-- ==== Sys2Proof/Word.lean ====
section
/-! DEFINITION. The widths of the block: a byte of MEM, a 32-bit register or command word, and the 64-bit DATA and
RESULT (00_scope.md R8; 10_state.md R101). -/

namespace Sys2Proof

/-- One location of MEM (20_memory.md R200). -/
abbrev Byte := BitVec 8

/-- A 32-bit register, a command word, a writeback word (00_scope.md R7, R8). -/
abbrev Word := BitVec 32

/-- DATA, RESULT and the bit cache register (00_scope.md R7, R8). -/
abbrev DWord := BitVec 64

end Sys2Proof
end

