-- ==== Sys2Proof/Config.lean ====
section
/-! DEFINITION. What an implementation fixes, and the free values. The parameters are those of 00_scope.md R8; the
machine runs with their RSBC values, and every shared operation takes them as an argument, so that a statement can be
made for all of them (log 5). -/

namespace Sys2Proof.Config

/-- A byte order (20_memory.md R210). -/
inductive Endian where
  | little
  | big
deriving DecidableEq, Repr

/-- The chunk widths an implementation may choose for LSB, MSB and JPEG: 1, 2 or 4 bytes (00_scope.md R8). -/
inductive ChunkWidth where
  | one
  | two
  | four
deriving DecidableEq, Repr

/-- The width in bytes. -/
def ChunkWidth.bytes : ChunkWidth → Nat
  | .one => 1
  | .two => 2
  | .four => 4

/-- The parameters of 00_scope.md R8: MEM_SIZE, CHUNK_BYTES of LSB, MSB and JPEG, and PIX_ENDIAN. -/
structure Params where
  memSize : Nat
  chunkLsb : ChunkWidth
  chunkMsb : ChunkWidth
  chunkJpeg : ChunkWidth
  pixEndian : Endian
deriving DecidableEq, Repr

/-- The range R8 gives the parameters: 1 <= MEM_SIZE <= 2^32. The other ranges are in the types. -/
abbrev Params.wf (p : Params) : Prop := 1 ≤ p.memSize ∧ p.memSize ≤ 2 ^ 32

/-- The values for RSBC (00_scope.md R8, column "value for RSBC"). -/
def rsbc : Params where
  memSize := 2 ^ 32
  chunkLsb := .four
  chunkMsb := .four
  chunkJpeg := .four
  pixEndian := .little

/-- FREE VALUE (43_packed_codec.md R620; 93_implementation_defined.md S1; log 4): what the byte of MEM at an address
of the pixel rectangle holds after the faulting UNPACK that made this draw. Its arguments are the number of the draw
and the address. It has no body, so no proof can see what it is. -/
opaque freeByte : Nat → Nat → Byte

end Sys2Proof.Config
end

