-- ==== Sys2Proof/Syntax.lean ====
section
/-! DEFINITION. The instructions: one constructor per row of spec/opcode_table.json, 15 commands (30_encoding.md R316)
and 3 host transactions (R301). -/

namespace Sys2Proof

/-- The fill direction of the bit cache (00_scope.md R12 "Flow"; 10_state.md R122). -/
inductive Flow where
  | lsbFirst
  | msbFirst
deriving DecidableEq, Repr

/-- The bit orders, "a closed set of variants" (30_encoding.md R312). -/
inductive BitOrder where
  | lsb
  | msb
  | msb16
  | msb32
  | jpeg
deriving DecidableEq, Repr

/-- The pixel element types (30_encoding.md R313; 20_memory.md R222). -/
inductive ElemType where
  | u8
  | u16
  | u32
deriving DecidableEq, Repr

/-- The operand widths of XHI and XLO (30_encoding.md R312). -/
inductive ExtractWidth where
  | w8
  | w16
  | w32
  | w64
deriving DecidableEq, Repr

/-- An instruction. `cnt` is the CNT field, a count of 0 to 127 (30_encoding.md R311; `Instr.wellFormed`). -/
inductive Instr where
  /-- 45_control.md R800 -/
  | nop
  /-- 41_bit_cache.md R400 -/
  | cinit (fl : Flow)
  /-- 41_bit_cache.md R410 -/
  | cpush (cnt : Nat)
  /-- 41_bit_cache.md R420 -/
  | cpeek (cnt : Nat)
  /-- 41_bit_cache.md R430 -/
  | cskip (cnt : Nat)
  /-- 41_bit_cache.md R450 -/
  | xhi (width : ExtractWidth) (cnt : Nat)
  /-- 41_bit_cache.md R460 -/
  | xlo (width : ExtractWidth) (cnt : Nat)
  /-- END, 45_control.md R801 -/
  | endSession
  /-- 42_stream_engine.md R500 -/
  | dstart (ord : BitOrder)
  /-- 42_stream_engine.md R520 -/
  | getbits (cnt : Nat)
  /-- 42_stream_engine.md R501 -/
  | estart (ord : BitOrder)
  /-- 42_stream_engine.md R535 -/
  | put (cnt : Nat)
  /-- 42_stream_engine.md R540 -/
  | flush
  /-- 43_packed_codec.md R610 -/
  | unpack (ord : BitOrder) (ety : ElemType) (cnt : Nat)
  /-- 43_packed_codec.md R640 -/
  | pack (ord : BitOrder) (ety : ElemType) (cnt : Nat)
  /-- Host transaction, 45_control.md R811 -/
  | regrd (idx : BitVec 8)
  /-- Host transaction with its 64-bit data phase, 45_control.md R812 -/
  | regwr (idx : BitVec 8) (data : DWord)
  /-- Host transaction, 70_reset_and_hazards.md R1000 -/
  | reset
deriving DecidableEq, Repr

end Sys2Proof
end

