-- ==== Sys2Proof/Machine/State.lean ====
section
/-! DEFINITION. The state of the block as plain data (10_state.md R100), the reasons a step can stop, and the state after
reset (70_reset_and_hazards.md R1001). -/

namespace Sys2Proof.Machine

/-- MODE: which session is open (10_state.md R125). -/
inductive Mode where
  | idle
  | raw
  | dec
  | enc
deriving DecidableEq, Repr

/-- CAUSE: the cause of the fatal fault, `noFault` while FAULTED = 0 (60_exceptions.md R901). -/
inductive Cause where
  | noFault
  | illegalCommand
  | badMode
  | pushOverflow
  | peekZero
  | peekOverCapacity
  | peekOverMax
  | peekOverFill
  | skipOverFill
  | extractOverWidth
  | putOverMax
  | endOfInput
  | jpegBadEscape
  | unflushedClose
  | cfgInvalid
  | cfgDimension
  | cfgRange
  | cfgOverlap
deriving DecidableEq, Repr

/-- The bit cache: the register C, the fill level F and the fill direction FLOW (10_state.md R120). -/
structure BitCache where
  bits : DWord
  fill : Nat
  flow : Flow
deriving DecidableEq, Repr

/-- The empty cache in a given flow: C = 0, F = 0. -/
def BitCache.empty (f : Flow) : BitCache where
  bits := 0
  fill := 0
  flow := f

/-- The registers of access class CFG (10_state.md R101). -/
structure CfgRegs where
  srcBase : Word
  srcLen : Word
  snkBase : Word
  snkCap : Word
  dimCols : Word
  dimRows : Word
  pixBase : Word
  pixLen : Word
  pixPitch : Word
  pixRows : Word
  pkLen : Word
  pkPitch : Word
  pkRows : Word
  padMode : Word
  padConst : Word
  padBase : Word
deriving DecidableEq, Repr

/-- MEM as the list of the bytes that differ from what an unlisted address reads as, addresses strictly rising
(`Memory.wf`). -/
abbrev Memory := List Host.Cell

/-- What the host does next (log 2, log 9): one host transaction (30_encoding.md R301), or one of its own accesses to MEM
between transactions (20_memory.md R200, R240). -/
inductive HostAction where
  /-- a 16-bit header with the 64-bit data phase (zero where the transaction has none) -/
  | transaction (header : BitVec 16) (data : DWord)
  /-- the host writes one byte of MEM -/
  | memWrite (addr : Nat) (value : Byte)
  /-- the host reads one byte of MEM -/
  | memRead (addr : Nat)
deriving DecidableEq, Repr

/-- The state of the machine: the register file of 10_state.md R101 (STATUS is a view, CMD holds nothing), the internal
state of R120, MEM (20_memory.md R200), and three fields of the model's own. -/
structure State where
  /-- RESULT (10_state.md R103) -/
  result : DWord
  /-- DATA (10_state.md R104) -/
  data : DWord
  /-- FAULT_CMD (10_state.md R105) -/
  faultCmd : Word
  /-- FAULT_INFO (10_state.md R106) -/
  faultInfo : Word
  /-- FAULT_ROW (10_state.md R107) -/
  faultRow : Word
  /-- FAULT_COL (10_state.md R107) -/
  faultCol : Word
  /-- SRC_POS (10_state.md R108) -/
  srcPos : Word
  /-- SNK_POS (10_state.md R109) -/
  snkPos : Word
  /-- the CFG registers (10_state.md R108-R113) -/
  cfg : CfgRegs
  /-- C, F and FLOW (10_state.md R120) -/
  cache : BitCache
  /-- MODE (10_state.md R125) -/
  mode : Mode
  /-- ORDER (10_state.md R120) -/
  order : BitOrder
  /-- FAULTED (60_exceptions.md R907) -/
  faulted : Bool
  /-- CAUSE (60_exceptions.md R901) -/
  cause : Cause
  /-- IOERR (45_control.md R813) -/
  ioerr : Bool
  /-- MEM (20_memory.md R200) -/
  mem : Memory
  /-- the model's own: the host's next actions, the first one first (45_control.md R810; log 2) -/
  pending : List HostAction
  /-- the model's own: what the last host action answered (45_control.md R811; log 3) -/
  response : Option DWord
  /-- the model's own: how many times a free value was drawn (43_packed_codec.md R620; log 4) -/
  draws : Nat
deriving DecidableEq, Repr

/-- The reasons the machine stops. A fatal fault of the block is no such reason: it is a next state (60_exceptions.md
R906). -/
inductive Fault where
  /-- Raised by every read or write of MEM at an address that does not exist (20_memory.md R200, R201; log 8). Safe: the
  range checks of 60_exceptions.md R914 keep every state that satisfies `State.Inv` away from it, but for an access to
  such an address by the host itself. -/
  | outsideMemory (addr : Nat)
deriving DecidableEq, Repr

/-- The reasons the machine has no meaning for an instruction. -/
inductive Refusal where
  /-- Raised by an arm of `exec` whose instruction has no meaning yet, with its mnemonic. Safe: nothing is claimed of
  it. -/
  | notModelled (mnemonic : String)
deriving DecidableEq, Repr

/-- Every CFG register 0 (70_reset_and_hazards.md R1001). -/
def CfgRegs.zero : CfgRegs where
  srcBase := 0
  srcLen := 0
  snkBase := 0
  snkCap := 0
  dimCols := 0
  dimRows := 0
  pixBase := 0
  pixLen := 0
  pixPitch := 0
  pixRows := 0
  pkLen := 0
  pkPitch := 0
  pkRows := 0
  padMode := 0
  padConst := 0
  padBase := 0

/-- The machine right after power-on: the block state of 70_reset_and_hazards.md R1001, MEM with nothing listed (R1002;
log 1), no host action pending (log 2), nothing answered (log 3), nothing drawn (log 4). -/
def State.reset : State where
  result := 0
  data := 0
  faultCmd := 0
  faultInfo := 0
  faultRow := 0
  faultCol := 0
  srcPos := 0
  snkPos := 0
  cfg := CfgRegs.zero
  cache := BitCache.empty .lsbFirst
  mode := .idle
  order := .lsb
  faulted := false
  cause := .noFault
  ioerr := false
  mem := []
  pending := []
  response := none
  draws := 0

end Sys2Proof.Machine
end

