-- ==== Sys2Proof/Machine/Memory.lean ====
section
/-! DEFINITION. MEM as canonical data (20_memory.md R200), and the composition and splitting of multi-byte values (R211,
R213). -/

namespace Sys2Proof.Machine

/-! ## Reading and writing one location -/

/-- DESIGN CHOICE (log 1; unsafe): what a byte that nothing has written reads as. The spec leaves MEM at power-on
unspecified (70_reset_and_hazards.md R1002). -/
def Memory.blank : Byte := 0

/-- The byte at an address. -/
def Memory.read : Memory → Nat → Byte
  | [], _ => Memory.blank
  | (k, b) :: m, a => if a = k then b else if a < k then Memory.blank else Memory.read m a

/-- MEM with one byte changed, in canonical form: an entry equal to what an unlisted address reads as is not listed. -/
def Memory.write : Memory → Nat → Byte → Memory
  | [], a, v => if v = Memory.blank then [] else [(a, v)]
  | (k, b) :: m, a, v =>
    if a = k then (if v = Memory.blank then m else (a, v) :: m)
    else if a < k then (if v = Memory.blank then (k, b) :: m else (a, v) :: (k, b) :: m)
    else (k, b) :: Memory.write m a v

/-- The canonical form: addresses strictly rising, and no entry equal to what an unlisted address reads as. -/
abbrev Memory.wf (m : Memory) : Prop :=
  m.Pairwise (fun c d => c.1 < d.1) ∧ ∀ c ∈ m, c.2 ≠ Memory.blank

/-- Every listed address exists in a memory of `size` bytes (20_memory.md R200). -/
abbrev Memory.within (m : Memory) (size : Nat) : Prop := ∀ c ∈ m, c.1 < size

/-! ## Multi-byte values -/

/-- The number that bytes stand for, the first byte least significant. -/
def bytesValue : List Byte → Nat
  | [] => 0
  | b :: bs => b.toNat + 256 * bytesValue bs

/-- ChunkValue(b, k, endian) of 20_memory.md R211, the bytes in stream order. -/
def chunkValue (e : Config.Endian) (bs : List Byte) : DWord :=
  match e with
  | .little => BitVec.ofNat 64 (bytesValue bs)
  | .big => BitVec.ofNat 64 (bytesValue bs.reverse)

/-- The bytes v[7:0], v[15:8], ... of a value, least significant first. -/
def bytesUp (v : Word) (k : Nat) : List Byte := (List.range k).map fun i => v.extractLsb' (8 * i) 8

/-- The split of a k-byte value into bytes, in stream order (20_memory.md R213). -/
def splitChunk (e : Config.Endian) (v : Word) (k : Nat) : List Byte :=
  match e with
  | .little => bytesUp v k
  | .big => (bytesUp v k).reverse

end Sys2Proof.Machine
end

