-- ==== Sys2Proof/WellFormed.lean ====
section
/-! DEFINITION. Which instructions an encoding can hold. The types rule out the reserved ORD and ETY codes; what is left
to check is that the count fits the 7-bit CNT field (30_encoding.md R310, R311). -/

namespace Sys2Proof

/-- The CNT field is 7 bits, 0..127 (30_encoding.md R310). -/
def cntFits (cnt : Nat) : Bool := decide (cnt < 128)

/-- An instruction that some command word or host transaction encodes. -/
def Instr.wellFormed : Instr → Bool
  | .nop => true
  | .cinit _ => true
  | .cpush cnt => cntFits cnt
  | .cpeek cnt => cntFits cnt
  | .cskip cnt => cntFits cnt
  | .xhi _ cnt => cntFits cnt
  | .xlo _ cnt => cntFits cnt
  | .endSession => true
  | .dstart _ => true
  | .getbits cnt => cntFits cnt
  | .estart _ => true
  | .put cnt => cntFits cnt
  | .flush => true
  | .unpack _ _ cnt => cntFits cnt
  | .pack _ _ cnt => cntFits cnt
  | .regrd _ => true
  | .regwr _ _ => true
  | .reset => true

end Sys2Proof
end

