-- ==== Sys2Proof/Decode.lean ====
section
/-! DEFINITION. Decoding of command words (30_encoding.md R310-R317, R322) and of host transactions (R301, R302), both
total, with every refusal named; then the encoder, written from the same table. -/

namespace Sys2Proof

/-! ## Field codes -/

/-- FL of CINIT: 0 LSB-first, 1 MSB-first (30_encoding.md R312). -/
def Flow.code : Flow → BitVec 1
  | .lsbFirst => 0
  | .msbFirst => 1

/-- The flow of an FL bit. -/
def Flow.ofCode (c : BitVec 1) : Flow := if c = 0 then .lsbFirst else .msbFirst

/-- ORD (30_encoding.md R312). -/
def BitOrder.code : BitOrder → BitVec 3
  | .lsb => 0
  | .msb => 1
  | .msb16 => 2
  | .msb32 => 3
  | .jpeg => 4

/-- Every bit order, in the order of R312. -/
def BitOrder.all : List BitOrder := [.lsb, .msb, .msb16, .msb32, .jpeg]

/-- The order of an ORD code; 5, 6 and 7 are reserved (30_encoding.md R312). -/
def BitOrder.ofCode (c : BitVec 3) : Option BitOrder := BitOrder.all.find? fun o => o.code == c

/-- ETY (30_encoding.md R313). -/
def ElemType.code : ElemType → BitVec 2
  | .u8 => 0
  | .u16 => 1
  | .u32 => 2

/-- Every element type, in the order of R313. -/
def ElemType.all : List ElemType := [.u8, .u16, .u32]

/-- The element type of an ETY code; 3 is reserved (30_encoding.md R313). -/
def ElemType.ofCode (c : BitVec 2) : Option ElemType := ElemType.all.find? fun e => e.code == c

/-- WSEL (30_encoding.md R312). -/
def ExtractWidth.code : ExtractWidth → BitVec 2
  | .w8 => 0
  | .w16 => 1
  | .w32 => 2
  | .w64 => 3

/-- The operand width of a WSEL code; every code is used. -/
def ExtractWidth.ofCode (c : BitVec 2) : ExtractWidth :=
  if c = 0 then .w8 else if c = 1 then .w16 else if c = 2 then .w32 else .w64

/-! ## The opcode map -/

/-- The rows of the opcode map (30_encoding.md R316). -/
inductive Opcode where
  | nop
  | cinit
  | cpush
  | cpeek
  | cskip
  | xhi
  | xlo
  | endSession
  | dstart
  | getbits
  | estart
  | put
  | flush
  | unpack
  | pack
deriving DecidableEq, Repr

/-- Every row, in the order of R316. -/
def Opcode.all : List Opcode :=
  [.nop, .cinit, .cpush, .cpeek, .cskip, .xhi, .xlo, .endSession, .dstart, .getbits, .estart, .put, .flush, .unpack,
    .pack]

/-- Column OPC of R316. -/
def Opcode.code : Opcode → BitVec 8
  | .nop => 0x00
  | .cinit => 0x01
  | .cpush => 0x02
  | .cpeek => 0x03
  | .cskip => 0x04
  | .xhi => 0x05
  | .xlo => 0x06
  | .endSession => 0x0F
  | .dstart => 0x10
  | .getbits => 0x11
  | .estart => 0x18
  | .put => 0x19
  | .flush => 0x1A
  | .unpack => 0x20
  | .pack => 0x21

/-- Column mask of R316: the bits of the word that are fixed. -/
def Opcode.mask : Opcode → Word
  | .nop => 0xFFFFFFFF
  | .cinit => 0xFFFEFFFF
  | .cpush => 0xFFFF80FF
  | .cpeek => 0xFFFF80FF
  | .cskip => 0xFFFF80FF
  | .xhi => 0xFFFC80FF
  | .xlo => 0xFFFC80FF
  | .endSession => 0xFFFFFFFF
  | .dstart => 0xFFF8FFFF
  | .getbits => 0xFFFF80FF
  | .estart => 0xFFF8FFFF
  | .put => 0xFFFF80FF
  | .flush => 0xFFFFFFFF
  | .unpack => 0xFFC880FF
  | .pack => 0xFFC880FF

/-- Column match of R316: the opcode in bits 7:0 and zeros above. -/
def Opcode.matchWord (o : Opcode) : Word := o.code.setWidth 32

/-- The row an OPC value selects, if it is assigned (30_encoding.md R317). -/
def Opcode.ofCode (c : BitVec 8) : Option Opcode := Opcode.all.find? fun o => o.code == c

/-! ## Decoding -/

/-- Why an encoding is refused. The first four make a command word illegal (30_encoding.md R317), the last three make a
host transaction reserved (R302). -/
inductive DecodeError where
  /-- OPC is not in the table of R316. -/
  | unassignedOpcode
  /-- a reserved bit, or a field the command does not use, is set (R314) -/
  | reservedBit
  /-- ORD is 5, 6 or 7 (R312) -/
  | reservedOrder
  /-- ETY is 3 (R313) -/
  | reservedElement
  /-- KIND is 10 -/
  | reservedKind
  /-- one of the header bits 13:8 is set -/
  | reservedHeaderBit
  /-- RESET with IDX other than 0 -/
  | resetWithIndex
deriving DecidableEq, Repr

/-- CNT = w[14:8], zero-extended (30_encoding.md R311). -/
def cntField (w : Word) : Nat := (w.extractLsb' 8 7).toNat

/-- ORD = w[18:16] (30_encoding.md R310), with the reserved codes refused. -/
def orderField (w : Word) : Except DecodeError BitOrder :=
  match BitOrder.ofCode (w.extractLsb' 16 3) with
  | some o => .ok o
  | none => .error .reservedOrder

/-- ETY = w[21:20] (30_encoding.md R310), with the reserved code refused. -/
def elemField (w : Word) : Except DecodeError ElemType :=
  match ElemType.ofCode (w.extractLsb' 20 2) with
  | some e => .ok e
  | none => .error .reservedElement

/-- WSEL = w[17:16] (30_encoding.md R310, R312). -/
def widthField (w : Word) : ExtractWidth := ExtractWidth.ofCode (w.extractLsb' 16 2)

/-- FL = w[16] (30_encoding.md R312). -/
def flowField (w : Word) : Flow := Flow.ofCode (w.extractLsb' 16 1)

/-- The instruction of a row, with the fields that the row uses (30_encoding.md R316, R322). -/
def Opcode.build (o : Opcode) (w : Word) : Except DecodeError Instr :=
  match o with
  | .nop => .ok .nop
  | .cinit => .ok (.cinit (flowField w))
  | .cpush => .ok (.cpush (cntField w))
  | .cpeek => .ok (.cpeek (cntField w))
  | .cskip => .ok (.cskip (cntField w))
  | .xhi => .ok (.xhi (widthField w) (cntField w))
  | .xlo => .ok (.xlo (widthField w) (cntField w))
  | .endSession => .ok .endSession
  | .dstart => (orderField w).map .dstart
  | .getbits => .ok (.getbits (cntField w))
  | .estart => (orderField w).map .estart
  | .put => .ok (.put (cntField w))
  | .flush => .ok .flush
  | .unpack => do return .unpack (← orderField w) (← elemField w) (cntField w)
  | .pack => do return .pack (← orderField w) (← elemField w) (cntField w)

/-- Decode(w) of 30_encoding.md R322, total on all 2^32 words. Every error is ILLEGAL_COMMAND (R317). -/
def decodeCommand (w : Word) : Except DecodeError Instr :=
  match Opcode.ofCode (w.extractLsb' 0 8) with
  | none => .error .unassignedOpcode
  | some o => if w &&& o.mask = o.matchWord then o.build w else .error .reservedBit

/-- KIND = header[15:14] (30_encoding.md R301). -/
def kindField (h : BitVec 16) : BitVec 2 := h.extractLsb' 14 2

/-- IDX = header[7:0] (30_encoding.md R301). -/
def indexField (h : BitVec 16) : BitVec 8 := h.extractLsb' 0 8

/-- Decoding of a host transaction: its header and, for REGWR, its data phase (30_encoding.md R301). Every error makes
it a reserved transaction (R302). -/
def decodeTransaction (h : BitVec 16) (d : DWord) : Except DecodeError Instr :=
  if h.extractLsb' 8 6 ≠ 0 then .error .reservedHeaderBit
  else if kindField h = 0 then .ok (.regrd (indexField h))
  else if kindField h = 1 then .ok (.regwr (indexField h) d)
  else if kindField h = 2 then .error .reservedKind
  else if indexField h = 0 then .ok .reset
  else .error .resetWithIndex

/-- The two encoded interfaces of the block (30_encoding.md R300). -/
inductive Code where
  /-- a 32-bit command word -/
  | command (w : Word)
  /-- a 16-bit header with the 64-bit data phase (zero where the transaction has none) -/
  | transaction (header : BitVec 16) (data : DWord)
deriving DecidableEq, Repr

/-- Decoding of either interface. -/
def decode : Code → Except DecodeError Instr
  | .command w => decodeCommand w
  | .transaction h d => decodeTransaction h d

/-- What the decoder reads from an instruction whose bits are `w`, numbered as spec/opcode_table.json numbers them: a row
of 32 bits is a command word; a row of 16 bits is a host transaction header, with the data phase in the bits above it
(log 12). -/
def decodeTableWord (nbits w : Nat) : Option Instr :=
  if nbits = 32 then (decodeCommand (BitVec.ofNat 32 w)).toOption
  else (decodeTransaction (BitVec.ofNat 16 w) (BitVec.ofNat 64 (w / 2 ^ 16))).toOption

/-! ## Encoding -/

/-- The command word format of 30_encoding.md R310, from bit 31 down: 10 reserved bits, ETY, a reserved bit, ORD, a
reserved bit, CNT, OPC. -/
def commandWord (o : Opcode) (cnt : Nat) (ord : BitVec 3) (ety : BitVec 2) : Word :=
  0#10 ++ ety ++ 0#1 ++ ord ++ 0#1 ++ BitVec.ofNat 7 cnt ++ o.code

/-- The header format of 30_encoding.md R301. -/
def transactionHeader (kind : BitVec 2) (idx : BitVec 8) : BitVec 16 := kind ++ 0#6 ++ idx

/-- enc(M) of 30_encoding.md R316 for a command, and the transaction of R301 for a host transaction. -/
def encode : Instr → Code
  | .nop => .command (commandWord .nop 0 0 0)
  | .cinit fl => .command (commandWord .cinit 0 (0#2 ++ fl.code) 0)
  | .cpush cnt => .command (commandWord .cpush cnt 0 0)
  | .cpeek cnt => .command (commandWord .cpeek cnt 0 0)
  | .cskip cnt => .command (commandWord .cskip cnt 0 0)
  | .xhi width cnt => .command (commandWord .xhi cnt (0#1 ++ width.code) 0)
  | .xlo width cnt => .command (commandWord .xlo cnt (0#1 ++ width.code) 0)
  | .endSession => .command (commandWord .endSession 0 0 0)
  | .dstart ord => .command (commandWord .dstart 0 ord.code 0)
  | .getbits cnt => .command (commandWord .getbits cnt 0 0)
  | .estart ord => .command (commandWord .estart 0 ord.code 0)
  | .put cnt => .command (commandWord .put cnt 0 0)
  | .flush => .command (commandWord .flush 0 0 0)
  | .unpack ord ety cnt => .command (commandWord .unpack cnt ord.code ety.code)
  | .pack ord ety cnt => .command (commandWord .pack cnt ord.code ety.code)
  | .regrd idx => .transaction (transactionHeader 0 idx) 0
  | .regwr idx data => .transaction (transactionHeader 1 idx) data
  | .reset => .transaction (transactionHeader 3 0) 0

/-- The command word a code carries: the word itself, or data[31:0] of a write to CMD (10_state.md R114). -/
def Code.word : Code → Word
  | .command w => w
  | .transaction _ d => d.setWidth 32

end Sys2Proof
end

