-- ==== Sys2Proof/Machine/Flags.lean ====
section
/-! DEFINITION. The codes of MODE and CAUSE, and the STATUS word with each of its fields (10_state.md R102; 60_exceptions.md
R901). -/

namespace Sys2Proof.Machine

/-- The code of a MODE: 0 IDLE, 1 RAW, 2 DEC, 3 ENC (10_state.md R125). -/
def Mode.code : Mode → BitVec 2
  | .idle => 0
  | .raw => 1
  | .dec => 2
  | .enc => 3

/-- The cause codes of 60_exceptions.md R901. -/
def Cause.code : Cause → BitVec 8
  | .noFault => 0x00
  | .illegalCommand => 0x01
  | .badMode => 0x02
  | .pushOverflow => 0x03
  | .peekZero => 0x04
  | .peekOverCapacity => 0x05
  | .peekOverMax => 0x06
  | .peekOverFill => 0x07
  | .skipOverFill => 0x08
  | .extractOverWidth => 0x09
  | .putOverMax => 0x0A
  | .endOfInput => 0x0B
  | .jpegBadEscape => 0x0C
  | .unflushedClose => 0x0D
  | .cfgInvalid => 0x10
  | .cfgDimension => 0x11
  | .cfgRange => 0x12
  | .cfgOverlap => 0x13

/-- FLOW' of 10_state.md R102: FLOW while a session is open, else 0. -/
def statusFlow (s : State) : BitVec 1 := if s.mode = .idle then 0 else s.cache.flow.code

/-- ORDER' of 10_state.md R102: ORDER in DEC and ENC, else 0. -/
def statusOrder (s : State) : BitVec 3 := if s.mode = .dec ∨ s.mode = .enc then s.order.code else 0

/-- The FILL field of STATUS: F as 7 bits (10_state.md R102). -/
def statusFill (s : State) : BitVec 7 := BitVec.ofNat 7 s.cache.fill

/-- The CAUSE field of STATUS, 0 when FAULTED = 0 (10_state.md R102). -/
def statusCause (s : State) : BitVec 8 := if s.faulted then s.cause.code else 0

/-- STATUS = {8'b0, CAUSE, 1'b0, F, ORDER', FLOW', MODE, IOERR, FAULTED} (10_state.md R102). -/
def statusWord (s : State) : Word :=
  0#8 ++ statusCause s ++ 0#1 ++ statusFill s ++ statusOrder s ++ statusFlow s ++ s.mode.code ++ BitVec.ofBool s.ioerr ++
    BitVec.ofBool s.faulted

end Sys2Proof.Machine
end

