-- ==== Sys2Proof/Machine/Operands.lean ====
section
/-! DEFINITION. The operand forms: the policy of each bit order (42_stream_engine.md R502), element sizes and widths
(20_memory.md R222; 43_packed_codec.md R601), register operands (30_encoding.md R315), the windows the CFG registers
describe (10_state.md R108-R113) and their checks (20_memory.md R233; 43_packed_codec.md R604). -/

namespace Sys2Proof.Machine

/-! ## Bit-order policy -/

/-- A row of the policy table of 42_stream_engine.md R502. -/
structure Policy where
  /-- CHUNK_BYTES -/
  chunk : Nat
  /-- CHUNK_ENDIAN -/
  endian : Config.Endian
  /-- FLOW -/
  flow : Flow
  /-- stuffing (44_jpeg_stuffing.md) -/
  stuffing : Bool
deriving DecidableEq, Repr

/-- The policy of each bit order (42_stream_engine.md R502). -/
def policy (p : Config.Params) : BitOrder → Policy
  | .lsb => ⟨p.chunkLsb.bytes, .little, .lsbFirst, false⟩
  | .msb => ⟨p.chunkMsb.bytes, .big, .msbFirst, false⟩
  | .msb16 => ⟨2, .little, .msbFirst, false⟩
  | .msb32 => ⟨4, .little, .msbFirst, false⟩
  | .jpeg => ⟨p.chunkJpeg.bytes, .big, .msbFirst, true⟩

/-! ## Widths -/

/-- ES, the element size in bytes (20_memory.md R222). -/
def elemSize : ElemType → Nat
  | .u8 => 1
  | .u16 => 2
  | .u32 => 4

/-- W = 8 << WSEL (30_encoding.md R312). -/
def extractBits : ExtractWidth → Nat
  | .w8 => 8
  | .w16 => 16
  | .w32 => 32
  | .w64 => 64

/-- The width w of 43_packed_codec.md R601: CNT, or the element's own width where CNT = 0. -/
def pixelWidth (ety : ElemType) (cnt : Nat) : Nat := if cnt = 0 then 8 * elemSize ety else cnt

/-! ## Register operands -/

/-- x[DATA][W-1:0], the operand of XHI and XLO (41_bit_cache.md R450). -/
def extractOperand (s : State) (w : Nat) : BitVec w := s.data.setWidth w

/-- x[DATA], the operand of CPUSH and PUT (10_state.md R104). -/
def dataOperand (s : State) : DWord := s.data

/-! ## Windows -/

/-- A window [base, base+len) of MEM, in unbounded integers (20_memory.md R233). -/
structure Window where
  base : Nat
  len : Nat
deriving DecidableEq, Repr

/-- InRange (20_memory.md R233). -/
def Window.inRange (p : Config.Params) (w : Window) : Bool := decide (w.len = 0) || decide (w.base + w.len ≤ p.memSize)

/-- Overlap (43_packed_codec.md R604). -/
def Window.overlaps (v w : Window) : Bool :=
  decide (0 < v.len) && decide (0 < w.len) && decide (v.base < w.base + w.len) && decide (w.base < v.base + v.len)

/-- The decode source window (10_state.md R108). -/
def srcWindow (c : CfgRegs) : Window := ⟨c.srcBase.toNat, c.srcLen.toNat⟩

/-- SNKR: the sink window (10_state.md R109; 43_packed_codec.md R604). -/
def snkWindow (c : CfgRegs) : Window := ⟨c.snkBase.toNat, c.snkCap.toNat⟩

/-- The byte address of element (r, c) of the pixel view (10_state.md R111). -/
def pixelAddr (cfg : CfgRegs) (ety : ElemType) (r c : Nat) : Nat :=
  cfg.pixBase.toNat + elemSize ety * (r * cfg.pixPitch.toNat + c)

/-- PIXR: the pixel region (43_packed_codec.md R604). -/
def pixelRegion (c : CfgRegs) (ety : ElemType) : Window :=
  ⟨c.pixBase.toNat,
    if 0 < c.dimRows.toNat ∧ 0 < c.dimCols.toNat then
      elemSize ety * ((c.dimRows.toNat - 1) * c.pixPitch.toNat + c.dimCols.toNat)
    else 0⟩

/-- The addresses of the pixel rectangle: every byte of every element (r, c) with r < DIM_ROWS and c < DIM_COLS
(43_packed_codec.md R620). -/
def rectangleAddrs (c : CfgRegs) (ety : ElemType) : List Nat :=
  (List.range c.dimRows.toNat).flatMap fun r =>
    (List.range c.dimCols.toNat).flatMap fun col =>
      (List.range (elemSize ety)).map fun i => pixelAddr c ety r col + i

/-- Packed row r (10_state.md R112). -/
def packedRow (c : CfgRegs) (r : Nat) : Window := ⟨c.srcBase.toNat + r * c.pkPitch.toNat, c.pkLen.toNat⟩

/-- PKR: the packed region (43_packed_codec.md R604). -/
def packedRegion (c : CfgRegs) : Window :=
  ⟨c.srcBase.toNat,
    if 0 < c.dimRows.toNat then (c.dimRows.toNat - 1) * c.pkPitch.toNat + c.pkLen.toNat else 0⟩

/-- The address of entry r of the padding table (10_state.md R113). -/
def padEntryAddr (c : CfgRegs) (r : Nat) : Nat := c.padBase.toNat + 4 * r

/-- PADR: the padding table (43_packed_codec.md R604). -/
def padRegion (c : CfgRegs) : Window :=
  ⟨c.padBase.toNat, if c.padMode = 1 then 4 * c.dimRows.toNat else 0⟩

end Sys2Proof.Machine
end

