-- ==== Sys2Proof/Machine/Ops.lean ====
section
/-! DEFINITION. The shared operations: raising faults and I/O errors (00_scope.md R10), access to MEM (20_memory.md R201),
the named updates of the state, fault entry (60_exceptions.md R906), reset, and the end of a command (45_control.md
R813). -/

namespace Sys2Proof.Machine

/-! ## Raising -/

/-- What a fatal fault records (60_exceptions.md R902, R906). -/
structure FaultRecord where
  cause : Cause
  info : Nat
  row : Nat
  col : Nat
deriving DecidableEq, Repr

/-- How the pseudocode of a command ends early: `raise Fault`, `raise IoError` (00_scope.md R10), or an access to an
address that does not exist (log 8). -/
inductive Raise where
  | fault (f : FaultRecord)
  | ioError
  | stop (r : Fault)
deriving DecidableEq, Repr

/-- `raise Fault(CAUSE, info)` outside the row loop of UNPACK: FAULT_ROW and FAULT_COL are 0 (60_exceptions.md R905,
R906). -/
def raiseFault (cause : Cause) (info : Nat) : Raise := .fault ⟨cause, info, 0, 0⟩

/-- A raise inside the row loop of UNPACK, tagged with its pixel (43_packed_codec.md R620). -/
def Raise.atPixel (r c : Nat) : Raise → Raise
  | .fault f => .fault ⟨f.cause, f.info, r, c⟩
  | .ioError => .ioError
  | .stop e => .stop e

/-! ## Access to MEM -/

/-- MemRead(a, 1), with 0 <= a < MEM_SIZE (20_memory.md R201; log 8). -/
def memRead (p : Config.Params) (m : Memory) (a : Nat) : Except Raise Byte :=
  if a < p.memSize then .ok (Memory.read m a) else .error (.stop (.outsideMemory a))

/-- MemWrite(a, 1, v), with 0 <= a < MEM_SIZE (20_memory.md R201; log 8). -/
def memWrite (p : Config.Params) (m : Memory) (a : Nat) (v : Byte) : Except Raise Memory :=
  if a < p.memSize then .ok (Memory.write m a v) else .error (.stop (.outsideMemory a))

/-- The bytes at a, a+1, ..., read in that order. -/
def memReadBytes (p : Config.Params) (m : Memory) (a : Nat) : Nat → Except Raise (List Byte)
  | 0 => .ok []
  | k + 1 => do
    let b ← memRead p m a
    let bs ← memReadBytes p m (a + 1) k
    return b :: bs

/-- Bytes written at a, a+1, ..., in that order. -/
def memWriteBytes (p : Config.Params) (m : Memory) (a : Nat) : List Byte → Except Raise Memory
  | [] => .ok m
  | b :: bs => do
    let m' ← memWrite p m a b
    memWriteBytes p m' (a + 1) bs

/-! ## Named updates of the state -/

/-- x[RESULT] <- v -/
def State.setResult (s : State) (v : DWord) : State := { s with result := v }

/-- x[DATA] <- v -/
def State.setData (s : State) (v : DWord) : State := { s with data := v }

/-- C, F and FLOW -/
def State.setCache (s : State) (c : BitCache) : State := { s with cache := c }

/-- x[SRC_POS] <- pos -/
def State.setSrcPos (s : State) (pos : Nat) : State := { s with srcPos := BitVec.ofNat 32 pos }

/-- x[SNK_POS] <- pos -/
def State.setSnkPos (s : State) (pos : Nat) : State := { s with snkPos := BitVec.ofNat 32 pos }

/-- MEM after a command's writes -/
def State.setMem (s : State) (m : Memory) : State := { s with mem := m }

/-- The CFG registers -/
def State.setCfg (s : State) (c : CfgRegs) : State := { s with cfg := c }

/-- IOERR <- b -/
def State.setIoerr (s : State) (b : Bool) : State := { s with ioerr := b }

/-- What the host is answered (log 3) -/
def State.setResponse (s : State) (r : Option DWord) : State := { s with response := r }

/-- Open a session: C <- 0; F <- 0; FLOW, ORDER, MODE as given (41_bit_cache.md R400; 42_stream_engine.md R500, R501). -/
def State.openSession (s : State) (m : Mode) (f : Flow) (o : BitOrder) : State :=
  { s with cache := BitCache.empty f, mode := m, order := o }

/-- Close a session: C <- 0; F <- 0; FLOW <- 0; ORDER <- 0; MODE <- IDLE (45_control.md R801). -/
def State.closeSession (s : State) : State := s.openSession .idle .lsbFirst .lsb

/-- The pixel rectangle with every byte drawn freely (43_packed_codec.md R620; log 4). -/
def State.freeRectangle (s : State) (ety : ElemType) : State :=
  { s with
    mem := (rectangleAddrs s.cfg ety).foldl (fun m a => Memory.write m a (Config.freeByte s.draws a)) s.mem
    draws := s.draws + 1 }

/-- FaultEntry(w, CAUSE, info, row, col) of 60_exceptions.md R906, applied to the state from before the command. -/
def State.faultEntry (s : State) (w : Word) (f : FaultRecord) : State :=
  { s with
    faulted := true
    cause := f.cause
    faultCmd := w
    faultInfo := BitVec.ofNat 32 f.info
    faultRow := BitVec.ofNat 32 f.row
    faultCol := BitVec.ofNat 32 f.col }

/-- ResetState() of 70_reset_and_hazards.md R1001. It is the one way out of FAULTED (60_exceptions.md R907). MEM stays
(R1002), and so do the host's actions and the draws, which are not the block's. -/
def State.resetBlock (s : State) : State :=
  { State.reset with mem := s.mem, pending := s.pending, response := s.response, draws := s.draws }

/-! ## The end of a command -/

/-- How a command ends (45_control.md R813). Each carries the state the ending applies to. -/
inductive CommandEnd where
  /-- it completes in this state -/
  | completes (s : State)
  /-- it raises IoError, with the effects already applied (60_exceptions.md R921) -/
  | ioError (s : State)
  /-- it raises a fatal fault, with the restored state (60_exceptions.md R906) -/
  | faults (f : FaultRecord) (s : State)
  /-- it accesses an address that does not exist (log 8) -/
  | stops (r : Fault)

/-- The ending of a raise that leaves nothing of the command's effects: `s` is the state before it (60_exceptions.md R906;
R921 for PUT and FLUSH). -/
def CommandEnd.ofRaise (s : State) : Raise → CommandEnd
  | .fault f => .faults f s
  | .ioError => .ioError s
  | .stop r => .stops r

/-- The ending of pseudocode that raises or gives the command's final state. -/
def CommandEnd.ofExcept (s : State) : Except Raise State → CommandEnd
  | .ok t => .completes t
  | .error e => CommandEnd.ofRaise s e

/-- `if MODE != m: raise Fault(BAD_MODE, MODE)` (60_exceptions.md R904). -/
def requireMode (m : Mode) (s : State) (rest : CommandEnd) : CommandEnd :=
  if s.mode = m then rest else .faults ⟨.badMode, s.mode.code.toNat, 0, 0⟩ s

/-- What the ending of the command word `w` does to the state (45_control.md R813): IOERR <- 0 on completion, IOERR <- 1
on an I/O error (60_exceptions.md R921), fault entry on a fault (R906). -/
def finishCommand (w : Word) : CommandEnd → Host.Outcome State Fault Refusal
  | .completes t => .next (t.setIoerr false)
  | .ioError t => .next (t.setIoerr true)
  | .faults f t => .next (t.faultEntry w f)
  | .stops r => .fault r

/-- A command `i` with the given pseudocode, as the write of its word to CMD that it stands for (30_encoding.md R300):
while FAULTED = 1 it is not executed at all (10_state.md R118; 60_exceptions.md R930). -/
def runCommand (i : Instr) (s : State) (body : State → CommandEnd) : Host.Outcome State Fault Refusal :=
  if s.faulted then .next s else finishCommand (encode i).word (body s)

end Sys2Proof.Machine
end

