-- ==== Sys2Proof/Machine/Control.lean ====
section
/-! DEFINITION. The control commands NOP and END (45_control.md R800, R801). -/

namespace Sys2Proof.Machine

/-- NOP: nothing but IOERR <- 0 (45_control.md R800). -/
def execNop (s : State) : Host.Outcome State Fault Refusal :=
  runCommand .nop s fun s => .completes s

/-- The pseudocode of END (45_control.md R801). -/
def endBody (s : State) : CommandEnd :=
  match s.mode with
  | .idle => .completes s
  | .raw => .completes s.closeSession
  | .dec => .completes s.closeSession
  | .enc =>
    if s.cache.fill ≠ 0 then .faults ⟨.unflushedClose, s.cache.fill, 0, 0⟩ s else .completes s.closeSession

/-- END: close the open session (45_control.md R801). -/
def execEndSession (s : State) : Host.Outcome State Fault Refusal :=
  runCommand .endSession s endBody

end Sys2Proof.Machine
end

