-- ==== Sys2Proof/Machine/Cache.lean ====
section
/-! DEFINITION. The bit cache primitives Push, Peek and Skip (41_bit_cache.md R405-R407), the extraction functions (R451),
and the commands CINIT, CPUSH, CPEEK, CSKIP, XHI and XLO. -/

namespace Sys2Proof.Machine

/-! ## Primitives -/

/-- zext_64(v[n-1:0]); n = 0 gives 0 (00_scope.md R9). -/
def lowBits (v : DWord) (n : Nat) : DWord := (v.setWidth n).setWidth 64

/-- Push(v, n) (41_bit_cache.md R405). -/
def BitCache.push (c : BitCache) (v : DWord) (n : Nat) : Except Raise BitCache :=
  if 64 < n + c.fill then .error (raiseFault .pushOverflow c.fill)
  else
    let placed :=
      match c.flow with
      | .lsbFirst => c.bits ||| (lowBits v n <<< c.fill)
      | .msbFirst => c.bits ||| (lowBits v n <<< (64 - c.fill - n))
    .ok { c with bits := placed, fill := c.fill + n }

/-- The count checks that Peek and GetBits make before anything else, in the order of 41_bit_cache.md R406 and
42_stream_engine.md R521. -/
def countFault (n fill : Nat) : Option Raise :=
  if n = 0 then some (raiseFault .peekZero fill)
  else if 64 < n then some (raiseFault .peekOverCapacity fill)
  else if 32 < n then some (raiseFault .peekOverMax fill)
  else none

/-- The n oldest valid bits, right-aligned: C[n-1:0] or C[63:64-n] (41_bit_cache.md R406). -/
def BitCache.oldest (c : BitCache) (n : Nat) : Word :=
  match c.flow with
  | .lsbFirst => (lowBits c.bits n).setWidth 32
  | .msbFirst => (c.bits >>> (64 - n)).setWidth 32

/-- Peek(n) (41_bit_cache.md R406). -/
def BitCache.peek (c : BitCache) (n : Nat) : Except Raise Word :=
  match countFault n c.fill with
  | some e => .error e
  | none => if c.fill < n then .error (raiseFault .peekOverFill c.fill) else .ok (c.oldest n)

/-- Skip(n) (41_bit_cache.md R407). -/
def BitCache.skip (c : BitCache) (n : Nat) : Except Raise BitCache :=
  if c.fill < n then .error (raiseFault .skipOverFill c.fill)
  else
    let shifted :=
      match c.flow with
      | .lsbFirst => c.bits >>> n
      | .msbFirst => c.bits <<< n
    .ok { c with bits := shifted, fill := c.fill - n }

/-! ## Extraction -/

/-- mask(n): n ones (00_scope.md R9). -/
def mask (w n : Nat) : BitVec w := BitVec.ofNat w (2 ^ n - 1)

/-- ExtractHigh(x, n, W): the high n bits of x in place (41_bit_cache.md R451). -/
def extractHigh (w : Nat) (x : BitVec w) (n : Nat) : Except Raise (BitVec w) :=
  if w < n then .error (raiseFault .extractOverWidth w)
  else if n = 0 then .ok 0
  else .ok (x &&& (mask w n <<< (w - n)))

/-- ExtractLow(x, n, W) (41_bit_cache.md R451). -/
def extractLow (w : Nat) (x : BitVec w) (n : Nat) : Except Raise (BitVec w) :=
  if w < n then .error (raiseFault .extractOverWidth w)
  else .ok (x &&& mask w n)

/-! ## Commands -/

/-- CINIT: open a raw cache session (41_bit_cache.md R400). -/
def execCinit (fl : Flow) (s : State) : Host.Outcome State Fault Refusal :=
  runCommand (.cinit fl) s fun s => requireMode .idle s (.completes (s.openSession .raw fl .lsb))

/-- CPUSH n: push n bits of DATA (41_bit_cache.md R410). -/
def execCpush (n : Nat) (s : State) : Host.Outcome State Fault Refusal :=
  runCommand (.cpush n) s fun s =>
    requireMode .raw s (.ofExcept s ((s.cache.push (dataOperand s) n).map s.setCache))

/-- CPEEK n: read n bits without consuming them (41_bit_cache.md R420). -/
def execCpeek (n : Nat) (s : State) : Host.Outcome State Fault Refusal :=
  runCommand (.cpeek n) s fun s =>
    requireMode .raw s (.ofExcept s ((s.cache.peek n).map fun v => s.setResult (v.setWidth 64)))

/-- CSKIP n: discard n bits (41_bit_cache.md R430). -/
def execCskip (n : Nat) (s : State) : Host.Outcome State Fault Refusal :=
  runCommand (.cskip n) s fun s => requireMode .raw s (.ofExcept s ((s.cache.skip n).map s.setCache))

/-- XHI.Wn N: the high N bits of a W-bit value, in every MODE (41_bit_cache.md R450). -/
def execXhi (width : ExtractWidth) (n : Nat) (s : State) : Host.Outcome State Fault Refusal :=
  runCommand (.xhi width n) s fun s =>
    .ofExcept s ((extractHigh (extractBits width) (extractOperand s (extractBits width)) n).map fun v => s.setResult (v.setWidth 64))

/-- XLO.Wn N: the low N bits of a W-bit value, in every MODE (41_bit_cache.md R460). -/
def execXlo (width : ExtractWidth) (n : Nat) (s : State) : Host.Outcome State Fault Refusal :=
  runCommand (.xlo width n) s fun s =>
    .ofExcept s ((extractLow (extractBits width) (extractOperand s (extractBits width)) n).map fun v => s.setResult (v.setWidth 64))

end Sys2Proof.Machine
end

