-- ==== Sys2Proof/Machine/Jpeg.lean ====
section
/-! DEFINITION. JPEG byte stuffing: the escape remover of the decode side and the escape inserter of the encode side
(44_jpeg_stuffing.md R710, R720). -/

namespace Sys2Proof.Machine

/-- The sentinel byte 0xFF (44_jpeg_stuffing.md R700). -/
def sentinelByte : Byte := 0xFF

/-- The escape byte 0x00 (44_jpeg_stuffing.md R700). -/
def escapeByte : Byte := 0x00

/-- The escape after a sentinel whose next byte is at `pos`: it is read, checked and passed over (44_jpeg_stuffing.md R710,
R711). -/
def readEscape (p : Config.Params) (m : Memory) (w : Window) (pos : Nat) : Except Raise Nat :=
  if w.len ≤ pos then .error (raiseFault .endOfInput pos)
  else do
    let e ← memRead p m (w.base + pos)
    if e = escapeByte then .ok (pos + 1) else .error (raiseFault .jpegBadEscape pos)

/-- ReadDestuffedByte (44_jpeg_stuffing.md R710). -/
def readDestuffedByte (p : Config.Params) (m : Memory) (w : Window) (pos : Nat) : Except Raise (Byte × Nat) :=
  if w.len ≤ pos then .error (raiseFault .endOfInput pos)
  else do
    let b ← memRead p m (w.base + pos)
    if b = sentinelByte then
      let pos' ← readEscape p m w (pos + 1)
      return (b, pos')
    else return (b, pos + 1)

/-- Stuff(bytes): a 0x00 after every 0xFF (44_jpeg_stuffing.md R720). -/
def stuff : List Byte → List Byte
  | [] => []
  | b :: bs => if b = sentinelByte then b :: escapeByte :: stuff bs else b :: stuff bs

end Sys2Proof.Machine
end

