-- ==== Sys2Proof/Machine/Stream.lean ====
section
/-! DEFINITION. The stream engine: refill and GetBits (42_stream_engine.md R510-R521), drain, PutBits and Flush (R530-R540),
and the commands DSTART, GETBITS, ESTART, PUT and FLUSH. The JPEG order differs only in the byte reader and in the
stuffing of a drained word. -/

namespace Sys2Proof.Machine

/-! ## Decode side -/

/-- ReadStreamByte, for every order but JPEG (42_stream_engine.md R511). -/
def readStreamByte (p : Config.Params) (m : Memory) (w : Window) (pos : Nat) : Except Raise (Byte × Nat) :=
  if w.len ≤ pos then .error (raiseFault .endOfInput pos)
  else do
    let b ← memRead p m (w.base + pos)
    return (b, pos + 1)

/-- The byte reader of an order (42_stream_engine.md R510). -/
def readByte (p : Config.Params) (o : BitOrder) (m : Memory) (w : Window) (pos : Nat) : Except Raise (Byte × Nat) :=
  if (policy p o).stuffing then readDestuffedByte p m w pos else readStreamByte p m w pos

/-- k data bytes in stream order (42_stream_engine.md R510). -/
def readBytes (p : Config.Params) (o : BitOrder) (m : Memory) (w : Window) : Nat → Nat → Except Raise (List Byte × Nat)
  | 0, pos => .ok ([], pos)
  | k + 1, pos => do
    let (b, pos') ← readByte p o m w pos
    let (bs, pos'') ← readBytes p o m w k pos'
    return (b :: bs, pos'')

/-- The changing part of a decode session: its cache and its position in the source window. -/
structure Cursor where
  cache : BitCache
  pos : Nat
deriving DecidableEq, Repr

/-- Refill: one whole chunk from the source window into the cache (42_stream_engine.md R510). -/
def refill (p : Config.Params) (o : BitOrder) (m : Memory) (w : Window) (k : Cursor) : Except Raise Cursor := do
  let (bs, pos') ← readBytes p o m w (policy p o).chunk k.pos
  let c ← k.cache.push (chunkValue (policy p o).endian bs) (8 * (policy p o).chunk)
  return ⟨c, pos'⟩

/-- `while F < n: Refill` (42_stream_engine.md R521). Every refill adds at least 8 bits, so `fuel` = n is more than the
loop takes. -/
def refillWhile (p : Config.Params) (o : BitOrder) (m : Memory) (w : Window) (n : Nat) :
    Nat → Cursor → Except Raise Cursor
  | 0, k => .ok k
  | fuel + 1, k =>
    if k.cache.fill < n then do
      let k' ← refill p o m w k
      refillWhile p o m w n fuel k'
    else .ok k

/-- GetBits(n, base, len, pos) (42_stream_engine.md R521): the count checks come before any refill. -/
def getBits (p : Config.Params) (o : BitOrder) (n : Nat) (m : Memory) (w : Window) (k : Cursor) :
    Except Raise (Word × Cursor) :=
  match countFault n k.cache.fill with
  | some e => .error e
  | none => do
    let k' ← refillWhile p o m w n n k
    let v ← k'.cache.peek n
    let c ← k'.cache.skip n
    return (v, ⟨c, k'.pos⟩)

/-! ## Encode side -/

/-- Chunk j of the word w of the oldest 32 cache bits, in stream order, for chunks of k bytes (42_stream_engine.md R531). -/
def wordChunk (f : Flow) (k : Nat) (w : Word) (j : Nat) : Word :=
  match f with
  | .lsbFirst => w >>> (8 * k * j)
  | .msbFirst => w >>> (32 - 8 * k * (j + 1))

/-- The four data bytes of a drained word: its 4/k chunks, each split by CHUNK_ENDIAN (42_stream_engine.md R531). -/
def wordBytes (q : Policy) (w : Word) : List Byte :=
  (List.range (4 / q.chunk)).flatMap fun j => splitChunk q.endian (wordChunk q.flow q.chunk w j) q.chunk

/-- StoreWordBytes(w, order): 4 bytes, or 4 to 8 under JPEG (42_stream_engine.md R531; 44_jpeg_stuffing.md R720). -/
def storeWordBytes (p : Config.Params) (o : BitOrder) (w : Word) : List Byte :=
  if (policy p o).stuffing then stuff (wordBytes (policy p o) w) else wordBytes (policy p o) w

/-- The changing part of an encode session: its cache, its position in the sink window, and MEM. -/
structure Sink where
  cache : BitCache
  pos : Nat
  mem : Memory
deriving DecidableEq, Repr

/-- Bytes written at the sink position, all or none of them (42_stream_engine.md R530, R532; 43_packed_codec.md R640). -/
def emitBytes (p : Config.Params) (w : Window) (bytes : List Byte) (k : Sink) : Except Raise Sink :=
  if w.len < k.pos + bytes.length then .error .ioError
  else do
    let m ← memWriteBytes p k.mem (w.base + k.pos) bytes
    return { k with mem := m, pos := k.pos + bytes.length }

/-- DrainIfFull: one writeback word when at least 32 bits are cached (42_stream_engine.md R530). -/
def drainIfFull (p : Config.Params) (o : BitOrder) (w : Window) (k : Sink) : Except Raise Sink :=
  if k.cache.fill < 32 then .ok k
  else do
    let v ← k.cache.peek 32
    let k' ← emitBytes p w (storeWordBytes p o v) k
    let c ← k'.cache.skip 32
    return { k' with cache := c }

/-- PutBits(v, n, base, cap, pos): push, then drain (42_stream_engine.md R533). A raise gives no `Sink`, so the caller
keeps the one from before: (C, F) <- saved. -/
def putBits (p : Config.Params) (o : BitOrder) (v : DWord) (n : Nat) (w : Window) (k : Sink) : Except Raise Sink :=
  if 32 < n then .error (raiseFault .putOverMax k.cache.fill)
  else do
    let c ← k.cache.push (lowBits v 32) n
    drainIfFull p o w { k with cache := c }

/-- Flush(base, cap, pos): pad with zero bits to a word boundary and drain (42_stream_engine.md R540). -/
def flushBits (p : Config.Params) (o : BitOrder) (w : Window) (k : Sink) : Except Raise Sink :=
  if k.cache.fill = 0 then .ok k
  else do
    let c ← k.cache.push 0 (32 - k.cache.fill)
    drainIfFull p o w { k with cache := c }

/-! ## Commands -/

/-- A session over window `w` is opened if the window is in range (42_stream_engine.md R500, R501). -/
def openOver (p : Config.Params) (w : Window) (sub : Nat) (s : State) (opened : State) : CommandEnd :=
  if w.inRange p then .completes opened else .faults ⟨.cfgRange, sub, 0, 0⟩ s

/-- The decode session's cursor. -/
def State.cursor (s : State) : Cursor := ⟨s.cache, s.srcPos.toNat⟩

/-- The encode session's sink. -/
def State.sink (s : State) : Sink := ⟨s.cache, s.snkPos.toNat, s.mem⟩

/-- The state with an encode session's sink put back. -/
def State.setSink (s : State) (k : Sink) : State := ((s.setCache k.cache).setSnkPos k.pos).setMem k.mem

/-- The pseudocode of DSTART (42_stream_engine.md R500). -/
def dstartBody (p : Config.Params) (o : BitOrder) (s : State) : CommandEnd :=
  requireMode .idle s
    (openOver p (srcWindow s.cfg) 1 s ((s.openSession .dec (policy p o).flow o).setSrcPos 0))

/-- The pseudocode of GETBITS (42_stream_engine.md R520). -/
def getbitsBody (p : Config.Params) (n : Nat) (s : State) : CommandEnd :=
  requireMode .dec s
    (.ofExcept s ((getBits p s.order n s.mem (srcWindow s.cfg) s.cursor).map fun r =>
      ((s.setCache r.2.cache).setSrcPos r.2.pos).setResult (r.1.setWidth 64)))

/-- The pseudocode of ESTART (42_stream_engine.md R501). -/
def estartBody (p : Config.Params) (o : BitOrder) (s : State) : CommandEnd :=
  requireMode .idle s
    (openOver p (snkWindow s.cfg) 2 s ((s.openSession .enc (policy p o).flow o).setSnkPos 0))

/-- The pseudocode of PUT (42_stream_engine.md R535). -/
def putBody (p : Config.Params) (n : Nat) (s : State) : CommandEnd :=
  requireMode .enc s
    (.ofExcept s ((putBits p s.order (dataOperand s) n (snkWindow s.cfg) s.sink).map s.setSink))

/-- The pseudocode of FLUSH (42_stream_engine.md R540). -/
def flushBody (p : Config.Params) (s : State) : CommandEnd :=
  requireMode .enc s (.ofExcept s ((flushBits p s.order (snkWindow s.cfg) s.sink).map s.setSink))

/-- DSTART.ord: open a decode session (42_stream_engine.md R500). -/
def execDstart (o : BitOrder) (s : State) : Host.Outcome State Fault Refusal :=
  runCommand (.dstart o) s (dstartBody Config.rsbc o)

/-- GETBITS n: read the next n bits of the stream (42_stream_engine.md R520). -/
def execGetbits (n : Nat) (s : State) : Host.Outcome State Fault Refusal :=
  runCommand (.getbits n) s (getbitsBody Config.rsbc n)

/-- ESTART.ord: open an encode session (42_stream_engine.md R501). -/
def execEstart (o : BitOrder) (s : State) : Host.Outcome State Fault Refusal :=
  runCommand (.estart o) s (estartBody Config.rsbc o)

/-- PUT n: append the n low bits of DATA to the stream (42_stream_engine.md R535). -/
def execPut (n : Nat) (s : State) : Host.Outcome State Fault Refusal :=
  runCommand (.put n) s (putBody Config.rsbc n)

/-- FLUSH: pad to a word boundary and drain (42_stream_engine.md R540). -/
def execFlush (s : State) : Host.Outcome State Fault Refusal :=
  runCommand .flush s (flushBody Config.rsbc)

end Sys2Proof.Machine
end

