-- ==== Sys2Proof/Machine/Packed.lean ====
section
/-! DEFINITION. The packed-pixel codec: the configuration checks (43_packed_codec.md R604), UNPACK (R610) and PACK
(R640). -/

namespace Sys2Proof.Machine

/-! ## Pixel elements and the padding table -/

/-- PixRead(r, c) (20_memory.md R221). -/
def pixRead (p : Config.Params) (cfg : CfgRegs) (ety : ElemType) (m : Memory) (r c : Nat) : Except Raise DWord := do
  let bs ← memReadBytes p m (pixelAddr cfg ety r c) (elemSize ety)
  return chunkValue p.pixEndian bs

/-- PixWrite(r, c, v) (20_memory.md R221). -/
def pixWrite (p : Config.Params) (cfg : CfgRegs) (ety : ElemType) (m : Memory) (r c : Nat) (v : Word) :
    Except Raise Memory :=
  memWriteBytes p m (pixelAddr cfg ety r c) (splitChunk p.pixEndian v (elemSize ety))

/-- PadRead(r): a 32-bit little-endian count (20_memory.md R224). -/
def padRead (p : Config.Params) (cfg : CfgRegs) (m : Memory) (r : Nat) : Except Raise Nat := do
  let bs ← memReadBytes p m (padEntryAddr cfg r) 4
  return bytesValue bs

/-- PAD(r) (43_packed_codec.md R641). -/
def padCount (p : Config.Params) (cfg : CfgRegs) (m : Memory) (r : Nat) : Except Raise Nat :=
  if cfg.padMode = 0 then .ok cfg.padConst.toNat else padRead p cfg m r

/-! ## Configuration checks -/

/-- Which of the two codec commands runs (43_packed_codec.md R604). -/
inductive CodecOp where
  | unpack
  | pack
deriving DecidableEq, Repr

/-- CodecChecks(op) of 43_packed_codec.md R604 as a table, in its order: the condition under which the check fails, the
cause and the sub-code (60_exceptions.md R912-R915). -/
def codecChecks (p : Config.Params) (op : CodecOp) (o : BitOrder) (ety : ElemType) (cnt : Nat) (g : CfgRegs) :
    List (Bool × Cause × Nat) :=
  [ (decide (o = .jpeg), .cfgInvalid, 1),
    (decide (op = .pack ∧ cnt = 0), .cfgInvalid, 2),
    (decide (32 < pixelWidth ety cnt), .cfgInvalid, 3),
    (decide (8 * elemSize ety < pixelWidth ety cnt), .cfgInvalid, 4),
    (decide (op = .pack ∧ 1 < g.padMode.toNat), .cfgInvalid, 5),
    (decide (g.pixLen ≠ g.dimCols), .cfgDimension, 1),
    (decide (g.pixRows ≠ g.dimRows), .cfgDimension, 2),
    (decide (op = .unpack ∧ g.pkRows ≠ g.dimRows), .cfgDimension, 3),
    (decide (g.pixPitch.toNat < g.pixLen.toNat), .cfgDimension, 4),
    (decide (op = .unpack ∧ g.pkPitch.toNat < g.pkLen.toNat), .cfgDimension, 5),
    (decide (op = .unpack) && !(packedRegion g).inRange p, .cfgRange, 1),
    (decide (op = .pack) && !(snkWindow g).inRange p, .cfgRange, 2),
    (!(pixelRegion g ety).inRange p, .cfgRange, 3),
    (decide (op = .pack) && !(padRegion g).inRange p, .cfgRange, 4),
    (decide (op = .unpack) && (packedRegion g).overlaps (pixelRegion g ety), .cfgOverlap, 1),
    (decide (op = .pack) && (pixelRegion g ety).overlaps (snkWindow g), .cfgOverlap, 2),
    (decide (op = .pack) && (padRegion g).overlaps (snkWindow g), .cfgOverlap, 3) ]

/-- The fault of the first check that fails, if one does (43_packed_codec.md R604). -/
def codecFault (p : Config.Params) (op : CodecOp) (o : BitOrder) (ety : ElemType) (cnt : Nat) (g : CfgRegs) :
    Option FaultRecord :=
  ((codecChecks p op o ety cnt g).find? fun k => k.1).map fun k => ⟨k.2.1, k.2.2, 0, 0⟩

/-! ## UNPACK -/

/-- One pixel of UNPACK: GetBits, then PixWrite; a raise is tagged with the pixel (43_packed_codec.md R610, R620). -/
def unpackPixel (p : Config.Params) (o : BitOrder) (ety : ElemType) (w : Nat) (g : CfgRegs) (r : Nat)
    (x : Cursor × Memory) (c : Nat) : Except Raise (Cursor × Memory) :=
  match getBits p o w x.2 (packedRow g r) x.1 with
  | .error e => .error (e.atPixel r c)
  | .ok (v, k) => do
    let m ← pixWrite p g ety x.2 r c v
    return (k, m)

/-- One row of UNPACK: a fresh session over packed row r (43_packed_codec.md R602, R603, R610). -/
def unpackRow (p : Config.Params) (o : BitOrder) (ety : ElemType) (w : Nat) (g : CfgRegs) (m : Memory) (r : Nat) :
    Except Raise Memory := do
  let x ← (List.range g.dimCols.toNat).foldlM (unpackPixel p o ety w g r)
    (⟨BitCache.empty (policy p o).flow, 0⟩, m)
  return x.2

/-- The row loop of UNPACK (43_packed_codec.md R603, R610). -/
def unpackRows (p : Config.Params) (o : BitOrder) (ety : ElemType) (w : Nat) (g : CfgRegs) (m : Memory) :
    Except Raise Memory :=
  (List.range g.dimRows.toNat).foldlM (unpackRow p o ety w g) m

/-- How the row loop of UNPACK ends the command: a fault leaves the rectangle's bytes free (43_packed_codec.md R620). -/
def unpackEnd (ety : ElemType) (s : State) : Except Raise Memory → CommandEnd
  | .ok m => .completes (s.setMem m).closeSession
  | .error (.fault f) => .faults f (s.freeRectangle ety)
  | .error .ioError => .ioError s
  | .error (.stop e) => .stops e

/-- The pseudocode of UNPACK (43_packed_codec.md R610). -/
def unpackBody (p : Config.Params) (o : BitOrder) (ety : ElemType) (cnt : Nat) (s : State) : CommandEnd :=
  requireMode .idle s
    (match codecFault p .unpack o ety cnt s.cfg with
     | some f => .faults f s
     | none => unpackEnd ety s (unpackRows p o ety (pixelWidth ety cnt) s.cfg s.mem))

/-! ## PACK -/

/-- A step of PACK: where it raises, what the earlier steps wrote is kept beside the raise (43_packed_codec.md R642). -/
def Sink.attempt (k : Sink) (r : Except Raise Sink) : Except (Raise × Sink) Sink := r.mapError fun e => (e, k)

/-- One pixel of PACK: PutBits(PixRead(r, c), w) (43_packed_codec.md R640). -/
def packPixel (p : Config.Params) (o : BitOrder) (ety : ElemType) (w : Nat) (g : CfgRegs) (r : Nat) (k : Sink) (c : Nat) :
    Except (Raise × Sink) Sink :=
  k.attempt do
    let v ← pixRead p g ety k.mem r c
    putBits p o v w (snkWindow g) k

/-- The padding after row r: PAD(r) bytes of 0x00, all or none (43_packed_codec.md R640, R641). -/
def packPadding (p : Config.Params) (g : CfgRegs) (r : Nat) (k : Sink) : Except (Raise × Sink) Sink :=
  k.attempt do
    let n ← padCount p g k.mem r
    emitBytes p (snkWindow g) (List.replicate n 0x00) k

/-- One row of PACK: a fresh session, its pixels, its flush, its padding (43_packed_codec.md R602, R640). -/
def packRow (p : Config.Params) (o : BitOrder) (ety : ElemType) (w : Nat) (g : CfgRegs) (k : Sink) (r : Nat) :
    Except (Raise × Sink) Sink := do
  let k₁ ← (List.range g.dimCols.toNat).foldlM (packPixel p o ety w g r)
    { k with cache := BitCache.empty (policy p o).flow }
  let k₂ ← k₁.attempt (flushBits p o (snkWindow g) k₁)
  packPadding p g r k₂

/-- The row loop of PACK (43_packed_codec.md R603, R640). -/
def packRows (p : Config.Params) (o : BitOrder) (ety : ElemType) (w : Nat) (g : CfgRegs) (m : Memory) :
    Except (Raise × Sink) Sink :=
  (List.range g.dimRows.toNat).foldlM (packRow p o ety w g) ⟨BitCache.empty (policy p o).flow, 0, m⟩

/-- The state in which PACK ends, having written up to the sink `k` (43_packed_codec.md R642, R643). -/
def packedState (s : State) (k : Sink) : State := ((s.setMem k.mem).setSnkPos k.pos).closeSession

/-- How the row loop of PACK ends the command (43_packed_codec.md R642). A fault cannot arise in it (R640). -/
def packEnd (s : State) : Except (Raise × Sink) Sink → CommandEnd
  | .ok k => .completes (packedState s k)
  | .error (.ioError, k) => .ioError (packedState s k)
  | .error (.fault f, _) => .faults f s
  | .error (.stop e, _) => .stops e

/-- The pseudocode of PACK (43_packed_codec.md R640). -/
def packBody (p : Config.Params) (o : BitOrder) (ety : ElemType) (cnt : Nat) (s : State) : CommandEnd :=
  requireMode .idle s
    (match codecFault p .pack o ety cnt s.cfg with
     | some f => .faults f s
     | none => packEnd s (packRows p o ety (pixelWidth ety cnt) s.cfg s.mem))

/-! ## Commands -/

/-- UNPACK.ord.ety w: decode the packed rows into the pixel view (43_packed_codec.md R610). -/
def execUnpack (o : BitOrder) (ety : ElemType) (cnt : Nat) (s : State) : Host.Outcome State Fault Refusal :=
  runCommand (.unpack o ety cnt) s (unpackBody Config.rsbc o ety cnt)

/-- PACK.ord.ety w: encode the pixel view into the sink window (43_packed_codec.md R640). -/
def execPack (o : BitOrder) (ety : ElemType) (cnt : Nat) (s : State) : Host.Outcome State Fault Refusal :=
  runCommand (.pack o ety cnt) s (packBody Config.rsbc o ety cnt)

end Sys2Proof.Machine
end

