-- ==== Sys2Proof/Machine/Registers.lean ====
section
/-! DEFINITION. The register file as the host sees it: the index map with the access classes (10_state.md R101), RegRead
(45_control.md R811) and the part of RegWrite (R812) that runs no command. -/

namespace Sys2Proof.Machine

/-- The registers of 10_state.md R101. -/
inductive Reg where
  | status
  | result
  | data
  | faultCmd
  | faultInfo
  | faultRow
  | faultCol
  | srcBase
  | srcLen
  | srcPos
  | snkBase
  | snkCap
  | snkPos
  | dimCols
  | dimRows
  | pixBase
  | pixLen
  | pixPitch
  | pixRows
  | pkLen
  | pkPitch
  | pkRows
  | padMode
  | padConst
  | padBase
  | cmd
deriving DecidableEq, Repr

/-- Every register, in the order of R101. -/
def Reg.all : List Reg :=
  [.status, .result, .data, .faultCmd, .faultInfo, .faultRow, .faultCol, .srcBase, .srcLen, .srcPos, .snkBase, .snkCap,
    .snkPos, .dimCols, .dimRows, .pixBase, .pixLen, .pixPitch, .pixRows, .pkLen, .pkPitch, .pkRows, .padMode, .padConst,
    .padBase, .cmd]

/-- Column index of R101. -/
def Reg.index : Reg → BitVec 8
  | .status => 0x00
  | .result => 0x01
  | .data => 0x02
  | .faultCmd => 0x03
  | .faultInfo => 0x04
  | .faultRow => 0x05
  | .faultCol => 0x06
  | .srcBase => 0x08
  | .srcLen => 0x09
  | .srcPos => 0x0A
  | .snkBase => 0x0C
  | .snkCap => 0x0D
  | .snkPos => 0x0E
  | .dimCols => 0x10
  | .dimRows => 0x11
  | .pixBase => 0x12
  | .pixLen => 0x13
  | .pixPitch => 0x14
  | .pixRows => 0x15
  | .pkLen => 0x16
  | .pkPitch => 0x17
  | .pkRows => 0x18
  | .padMode => 0x19
  | .padConst => 0x1A
  | .padBase => 0x1B
  | .cmd => 0x1F

/-- The register at an index; an index without one is reserved (10_state.md R101, R115). -/
def Reg.ofIndex (i : BitVec 8) : Option Reg := Reg.all.find? fun r => r.index == i

/-- The access codes of R101. -/
inductive Access where
  | readOnly
  | readWrite
  | config
  | writeOnly
deriving DecidableEq, Repr

/-- Column access of R101. -/
def Reg.access : Reg → Access
  | .status => .readOnly
  | .result => .readOnly
  | .data => .readWrite
  | .faultCmd => .readOnly
  | .faultInfo => .readOnly
  | .faultRow => .readOnly
  | .faultCol => .readOnly
  | .srcBase => .config
  | .srcLen => .config
  | .srcPos => .readOnly
  | .snkBase => .config
  | .snkCap => .config
  | .snkPos => .readOnly
  | .dimCols => .config
  | .dimRows => .config
  | .pixBase => .config
  | .pixLen => .config
  | .pixPitch => .config
  | .pixRows => .config
  | .pkLen => .config
  | .pkPitch => .config
  | .pkRows => .config
  | .padMode => .config
  | .padConst => .config
  | .padBase => .config
  | .cmd => .writeOnly

/-- A register's value, a 32-bit one zero-extended (45_control.md R811). -/
def State.readReg (s : State) : Reg → DWord
  | .status => (statusWord s).setWidth 64
  | .result => s.result
  | .data => s.data
  | .faultCmd => s.faultCmd.setWidth 64
  | .faultInfo => s.faultInfo.setWidth 64
  | .faultRow => s.faultRow.setWidth 64
  | .faultCol => s.faultCol.setWidth 64
  | .srcBase => s.cfg.srcBase.setWidth 64
  | .srcLen => s.cfg.srcLen.setWidth 64
  | .srcPos => s.srcPos.setWidth 64
  | .snkBase => s.cfg.snkBase.setWidth 64
  | .snkCap => s.cfg.snkCap.setWidth 64
  | .snkPos => s.snkPos.setWidth 64
  | .dimCols => s.cfg.dimCols.setWidth 64
  | .dimRows => s.cfg.dimRows.setWidth 64
  | .pixBase => s.cfg.pixBase.setWidth 64
  | .pixLen => s.cfg.pixLen.setWidth 64
  | .pixPitch => s.cfg.pixPitch.setWidth 64
  | .pixRows => s.cfg.pixRows.setWidth 64
  | .pkLen => s.cfg.pkLen.setWidth 64
  | .pkPitch => s.cfg.pkPitch.setWidth 64
  | .pkRows => s.cfg.pkRows.setWidth 64
  | .padMode => s.cfg.padMode.setWidth 64
  | .padConst => s.cfg.padConst.setWidth 64
  | .padBase => s.cfg.padBase.setWidth 64
  | .cmd => 0

/-- RegRead(i): a reserved index reads 0 (45_control.md R811; 10_state.md R115). -/
def regRead (s : State) (i : BitVec 8) : DWord :=
  match Reg.ofIndex i with
  | some r => s.readReg r
  | none => 0

/-- The CFG registers with one of them written; a register of another class is none of them. -/
def CfgRegs.write (g : CfgRegs) (v : Word) : Reg → CfgRegs
  | .srcBase => { g with srcBase := v }
  | .srcLen => { g with srcLen := v }
  | .snkBase => { g with snkBase := v }
  | .snkCap => { g with snkCap := v }
  | .dimCols => { g with dimCols := v }
  | .dimRows => { g with dimRows := v }
  | .pixBase => { g with pixBase := v }
  | .pixLen => { g with pixLen := v }
  | .pixPitch => { g with pixPitch := v }
  | .pixRows => { g with pixRows := v }
  | .pkLen => { g with pkLen := v }
  | .pkPitch => { g with pkPitch := v }
  | .pkRows => { g with pkRows := v }
  | .padMode => { g with padMode := v }
  | .padConst => { g with padConst := v }
  | .padBase => { g with padBase := v }
  | .status => g
  | .result => g
  | .data => g
  | .faultCmd => g
  | .faultInfo => g
  | .faultRow => g
  | .faultCol => g
  | .srcPos => g
  | .snkPos => g
  | .cmd => g

/-- A host write to a register other than CMD, while FAULTED = 0 (45_control.md R812): DATA takes all 64 bits, a CFG
register takes v[31:0] in IDLE only (10_state.md R117, R119), an RO register nothing (R116). -/
def writeReg (s : State) (r : Reg) (v : DWord) : State :=
  match r.access with
  | .readWrite => s.setData v
  | .config => if s.mode = .idle then s.setCfg (s.cfg.write (v.setWidth 32) r) else s
  | .readOnly => s
  | .writeOnly => s

end Sys2Proof.Machine
end

