-- ==== Sys2Proof/Machine/HostPort.lean ====
section
/-! DEFINITION. The host transactions REGRD, REGWR and RESET (45_control.md R810-R813; 70_reset_and_hazards.md R1000), and
the fetch of the host's next action. -/

namespace Sys2Proof.Machine

/-- The command a word decodes to, run (45_control.md R813). No command word decodes to a host transaction, so the last
three arms are never reached. -/
def runDecoded (i : Instr) (s : State) : Host.Outcome State Fault Refusal :=
  match i with
  | .nop => execNop s
  | .cinit fl => execCinit fl s
  | .cpush n => execCpush n s
  | .cpeek n => execCpeek n s
  | .cskip n => execCskip n s
  | .xhi width n => execXhi width n s
  | .xlo width n => execXlo width n s
  | .endSession => execEndSession s
  | .dstart o => execDstart o s
  | .getbits n => execGetbits n s
  | .estart o => execEstart o s
  | .put n => execPut n s
  | .flush => execFlush s
  | .unpack o ety n => execUnpack o ety n s
  | .pack o ety n => execPack o ety n s
  | .regrd _ => .next s
  | .regwr _ _ => .next s
  | .reset => .next s

/-- An illegal command word: ILLEGAL_COMMAND with FAULT_INFO = 0 and no other effect (30_encoding.md R317; 60_exceptions.md
R902, R903). -/
def illegalCommand (w : Word) (s : State) : State := s.faultEntry w ⟨.illegalCommand, 0, 0, 0⟩

/-- Execute(w) of 45_control.md R813. -/
def execute (w : Word) (s : State) : Host.Outcome State Fault Refusal :=
  match decodeCommand w with
  | .ok i => runDecoded i s
  | .error _ => .next (illegalCommand w s)

/-- REGRD: the host is answered the register's value, and the block's state does not change (45_control.md R811). -/
def execRegrd (i : BitVec 8) (s : State) : Host.Outcome State Fault Refusal :=
  .next (s.setResponse (some (regRead s i)))

/-- REGWR: RegWrite(i, v) of 45_control.md R812. -/
def execRegwr (i : BitVec 8) (v : DWord) (s : State) : Host.Outcome State Fault Refusal :=
  if s.faulted then .next s
  else
    match Reg.ofIndex i with
    | some .cmd => execute (v.setWidth 32) s
    | some r => .next (writeReg s r v)
    | none => .next s

/-- RESET, accepted in every state (70_reset_and_hazards.md R1000, R1001). -/
def execReset (s : State) : Host.Outcome State Fault Refusal := .next s.resetBlock

/-! ## The host's next action -/

/-- Whether a reserved transaction expects a response: DEDUCED (log 7), a header of KIND 00 does (30_encoding.md R302). -/
def reservedResponse (h : BitVec 16) : Option DWord := if kindField h = 0 then some 0 else none

/-- A reserved transaction has no effect on the block (30_encoding.md R302). -/
def reservedTransaction (h : BitVec 16) (s : State) : State := s.setResponse (reservedResponse h)

/-- The host writes one byte of MEM (20_memory.md R240; log 9). -/
def hostWrite (a : Nat) (v : Byte) (s : State) : Host.Outcome State Fault Refusal :=
  if a < Config.rsbc.memSize then .next (s.setMem (Memory.write s.mem a v)) else .fault (.outsideMemory a)

/-- The host reads one byte of MEM (20_memory.md R240; log 9). -/
def hostRead (a : Nat) (s : State) : Host.Outcome State Fault Refusal :=
  if a < Config.rsbc.memSize then .next (s.setResponse (some ((Memory.read s.mem a).setWidth 64)))
  else .fault (.outsideMemory a)

/-- The state once the host's next action is taken from the queue; what was answered before is gone (log 2, log 3). -/
def State.taken (s : State) (rest : List HostAction) : State := { s with pending := rest, response := none }

/-- What the next step does. -/
inductive Fetched where
  /-- no action is pending: the block is idle (70_reset_and_hazards.md R1010) -/
  | idle
  /-- an instruction, and the state it runs in -/
  | instr (i : Instr) (s : State)
  /-- an action that is no instruction, already done -/
  | done (o : Host.Outcome State Fault Refusal)

/-- The host's next action, taken and decoded (45_control.md R810). -/
def fetch (s : State) : Fetched :=
  match s.pending with
  | [] => .idle
  | .transaction h d :: rest =>
    match decodeTransaction h d with
    | .ok i => .instr i (s.taken rest)
    | .error _ => .done (.next (reservedTransaction h (s.taken rest)))
  | .memWrite a v :: rest => .done (hostWrite a v (s.taken rest))
  | .memRead a :: rest => .done (hostRead a (s.taken rest))

/-- The write of a command word to CMD (30_encoding.md R300). -/
def commandAction (w : Word) : HostAction := .transaction (transactionHeader 1 (Reg.index .cmd)) (w.setWidth 64)

/-- The host action that issues the instruction whose bits are `w`, in the numbering of `decodeTableWord` (log 12). -/
def tableWordAction (nbits w : Nat) : HostAction :=
  if nbits = 32 then commandAction (BitVec.ofNat 32 w)
  else .transaction (BitVec.ofNat 16 w) (BitVec.ofNat 64 (w / 2 ^ 16))

end Sys2Proof.Machine
end

