-- ==== Sys2Proof/Machine/Dispatch.lean ====
section
/-! DEFINITION. One arm per instruction: the call of its meaning. -/

namespace Sys2Proof.Machine

def exec (i : Instr) (s : State) : Host.Outcome State Fault Refusal :=
  match i with
  | .nop => Sys2Proof.Machine.execNop s
  | .cinit fl => Sys2Proof.Machine.execCinit fl s
  | .cpush n => Sys2Proof.Machine.execCpush n s
  | .cpeek n => Sys2Proof.Machine.execCpeek n s
  | .cskip n => Sys2Proof.Machine.execCskip n s
  | .xhi width n => Sys2Proof.Machine.execXhi width n s
  | .xlo width n => Sys2Proof.Machine.execXlo width n s
  | .endSession => Sys2Proof.Machine.execEndSession s
  | .dstart o => Sys2Proof.Machine.execDstart o s
  | .getbits n => Sys2Proof.Machine.execGetbits n s
  | .estart o => Sys2Proof.Machine.execEstart o s
  | .put n => Sys2Proof.Machine.execPut n s
  | .flush => Sys2Proof.Machine.execFlush s
  | .unpack o ety n => Sys2Proof.Machine.execUnpack o ety n s
  | .pack o ety n => Sys2Proof.Machine.execPack o ety n s
  | .regrd idx => Sys2Proof.Machine.execRegrd idx s
  | .regwr idx v => Sys2Proof.Machine.execRegwr idx v s
  | .reset => Sys2Proof.Machine.execReset s

end Sys2Proof.Machine
end

