-- ==== Sys2Proof/Machine/Step.lean ====
section
/-! DEFINITION. One step: the host's next action, taken and applied (45_control.md R810). -/

namespace Sys2Proof.Machine

/-- HostStep of 45_control.md R810. With no action pending the block is idle and holds all its state
(60_exceptions.md R945). -/
def step (s : State) : Host.Outcome State Fault Refusal :=
  match fetch s with
  | .idle => .next s
  | .instr i t => exec i t
  | .done o => o

/-- The state in which the host's very next action issues the instruction whose bits are `w` (log 2, log 12). -/
def State.withFetchWord (s : State) (nbits w : Nat) : State := { s with pending := tableWordAction nbits w :: s.pending }

end Sys2Proof.Machine
end

