-- ==== Sys2Proof/Safety.lean ====
section
/-! DEFINITION. The terms the statements use: the tables of the rules as the spec writes them, the bit cache as a queue of
bits (41_bit_cache.md R408), the bits of a chunk and of a stream (42_stream_engine.md R512), what a data byte string becomes
in a window (44_jpeg_stuffing.md R720), images, runs of several instructions, and the invariant of the machine (10_state.md
R121, R122; 42_stream_engine.md R534). None of them is used by the machine. -/

namespace Sys2Proof.Machine

/-! ## Bits in queue order -/

/-- The n bits a value contributes to the sequence of 41_bit_cache.md R408, the earliest first: least significant first in
LSB-first flow, most significant first in MSB-first flow. -/
def valueBits (f : Flow) (v : DWord) (n : Nat) : List Bool :=
  match f with
  | .lsbFirst => (List.range n).map fun i => v.getLsbD i
  | .msbFirst => (List.range n).map fun i => v.getLsbD (n - 1 - i)

/-- The valid bits of the cache, the oldest first (10_state.md R122). -/
def BitCache.queue (c : BitCache) : List Bool :=
  match c.flow with
  | .lsbFirst => (List.range c.fill).map fun i => c.bits.getLsbD i
  | .msbFirst => (List.range c.fill).map fun i => c.bits.getLsbD (63 - i)

/-- Bit i of C lies in the valid region: C[F-1:0] or C[63:64-F] (10_state.md R122). -/
def BitCache.validBit (c : BitCache) (i : Nat) : Bool :=
  match c.flow with
  | .lsbFirst => decide (i < c.fill)
  | .msbFirst => decide (64 ≤ i + c.fill)

/-- The cache invariant: 0 <= F <= 64, and every bit outside the valid region is 0 (10_state.md R121). -/
abbrev BitCache.wf (c : BitCache) : Prop :=
  c.fill ≤ 64 ∧ ∀ i < 64, c.validBit i = false → c.bits.getLsbD i = false

/-! ## Illegal words -/

/-- R317 of 30_encoding.md, field by field: the opcode is not assigned; bit 15, bit 19 or one of bits 31:22 is set; a field
the command does not use is set (R314); ORD is 5, 6 or 7; ETY is 3. -/
abbrev illegalWord (w : Word) : Prop :=
  let opc := (w.extractLsb' 0 8).toNat
  opc ∉ [0x00, 0x01, 0x02, 0x03, 0x04, 0x05, 0x06, 0x0F, 0x10, 0x11, 0x18, 0x19, 0x1A, 0x20, 0x21] ∨
    w.extractLsb' 15 1 ≠ 0 ∨ w.extractLsb' 19 1 ≠ 0 ∨ w.extractLsb' 22 10 ≠ 0 ∨
    (opc ∉ [0x02, 0x03, 0x04, 0x05, 0x06, 0x11, 0x19, 0x20, 0x21] ∧ w.extractLsb' 8 7 ≠ 0) ∨
    (opc = 0x01 ∧ w.extractLsb' 17 2 ≠ 0) ∨ (opc ∈ [0x05, 0x06] ∧ w.extractLsb' 18 1 ≠ 0) ∨
    (opc ∉ [0x01, 0x05, 0x06, 0x10, 0x18, 0x20, 0x21] ∧ w.extractLsb' 16 3 ≠ 0) ∨
    (opc ∉ [0x20, 0x21] ∧ w.extractLsb' 20 2 ≠ 0) ∨
    (opc ∈ [0x10, 0x18, 0x20, 0x21] ∧ 4 < (w.extractLsb' 16 3).toNat) ∨
    (opc ∈ [0x20, 0x21] ∧ w.extractLsb' 20 2 = 3)

/-! ## Streams -/

/-- The bits of a byte in flow order (42_stream_engine.md R512). -/
def byteBits (f : Flow) (b : Byte) : List Bool := valueBits f (b.setWidth 64) 8

/-- The bits a chunk adds to the cache, in queue order (42_stream_engine.md R510). -/
def chunkBits (q : Policy) (bs : List Byte) : List Bool := valueBits q.flow (chunkValue q.endian bs) (8 * q.chunk)

/-- The bits of m whole chunks of data bytes, in queue order (42_stream_engine.md R510, R512). -/
def streamBits (q : Policy) : Nat → List Byte → List Bool
  | 0, _ => []
  | m + 1, bs => chunkBits q (bs.take q.chunk) ++ streamBits q m (bs.drop q.chunk)

/-- How many chunks GetBits loads for n bits when F = fill: the least m with n <= fill + 8*k*m (42_stream_engine.md R521). -/
def chunksNeeded (k n fill : Nat) : Nat := (n - fill + (8 * k - 1)) / (8 * k)

/-- The window bytes that stand for data bytes: themselves, or stuffed under JPEG (44_jpeg_stuffing.md R710, R720). -/
def wireBytes (o : BitOrder) (data : List Byte) : List Byte := if o = .jpeg then stuff data else data

/-- MEM holds the bytes at a, a+1, ... -/
def HoldsAt (m : Memory) (a : Nat) (bytes : List Byte) : Prop :=
  ∀ i (h : i < bytes.length), Memory.read m (a + i) = bytes[i]

/-- The four data bytes of a drained word, as the table of 42_stream_engine.md R531 lists them. -/
def tableWordBytes (o : BitOrder) (w : Word) : List Byte :=
  match o with
  | .lsb => [w.extractLsb' 0 8, w.extractLsb' 8 8, w.extractLsb' 16 8, w.extractLsb' 24 8]
  | .msb => [w.extractLsb' 24 8, w.extractLsb' 16 8, w.extractLsb' 8 8, w.extractLsb' 0 8]
  | .msb16 => [w.extractLsb' 16 8, w.extractLsb' 24 8, w.extractLsb' 0 8, w.extractLsb' 8 8]
  | .msb32 => [w.extractLsb' 0 8, w.extractLsb' 8 8, w.extractLsb' 16 8, w.extractLsb' 24 8]
  | .jpeg => [w.extractLsb' 24 8, w.extractLsb' 16 8, w.extractLsb' 8 8, w.extractLsb' 0 8]

/-! ## Commands and their faults -/

/-- The 15 commands, as against the host transactions (30_encoding.md R300). -/
def isCommand : Instr → Bool
  | .regrd _ => false
  | .regwr _ _ => false
  | .reset => false
  | .nop => true
  | .cinit _ => true
  | .cpush _ => true
  | .cpeek _ => true
  | .cskip _ => true
  | .xhi _ _ => true
  | .xlo _ _ => true
  | .endSession => true
  | .dstart _ => true
  | .getbits _ => true
  | .estart _ => true
  | .put _ => true
  | .flush => true
  | .unpack _ _ _ => true
  | .pack _ _ _ => true

/-- The table of 60_exceptions.md R904: the mode a command needs, if it needs one. -/
def neededMode : Instr → Option Mode
  | .nop => none
  | .xhi _ _ => none
  | .xlo _ _ => none
  | .endSession => none
  | .cinit _ => some .idle
  | .dstart _ => some .idle
  | .estart _ => some .idle
  | .unpack _ _ _ => some .idle
  | .pack _ _ _ => some .idle
  | .cpush _ => some .raw
  | .cpeek _ => some .raw
  | .cskip _ => some .raw
  | .getbits _ => some .dec
  | .put _ => some .enc
  | .flush => some .enc
  | .regrd _ => none
  | .regwr _ _ => none
  | .reset => none

/-- The column "raised by" of 60_exceptions.md R901, read by command: the causes it can raise. -/
def causesOf : Instr → List Cause
  | .nop => []
  | .cinit _ => [.badMode]
  | .cpush _ => [.badMode, .pushOverflow]
  | .cpeek _ => [.badMode, .peekZero, .peekOverCapacity, .peekOverMax, .peekOverFill]
  | .cskip _ => [.badMode, .skipOverFill]
  | .xhi _ _ => [.extractOverWidth]
  | .xlo _ _ => [.extractOverWidth]
  | .endSession => [.unflushedClose]
  | .dstart _ => [.badMode, .cfgRange]
  | .getbits _ => [.badMode, .peekZero, .peekOverCapacity, .peekOverMax, .endOfInput, .jpegBadEscape]
  | .estart _ => [.badMode, .cfgRange]
  | .put _ => [.badMode, .putOverMax]
  | .flush => [.badMode]
  | .unpack _ _ _ => [.badMode, .cfgInvalid, .cfgDimension, .cfgRange, .cfgOverlap, .endOfInput]
  | .pack _ _ _ => [.badMode, .cfgInvalid, .cfgDimension, .cfgRange, .cfgOverlap]
  | .regrd _ => []
  | .regwr _ _ => []
  | .reset => []

/-- The state after the command `i` faulted outside the row loop of UNPACK: nothing changed but the fault record
(60_exceptions.md R906). -/
def faultedBy (s : State) (i : Instr) (c : Cause) (info : Nat) : State :=
  { s with
    faulted := true
    cause := c
    faultCmd := (encode i).word
    faultInfo := BitVec.ofNat 32 info
    faultRow := 0
    faultCol := 0 }

/-- A window passes the end of MEM (60_exceptions.md R914, with the RSBC memory size). -/
abbrev passesEnd (base len : Nat) : Prop := len ≠ 0 ∧ 2 ^ 32 < base + len

/-- Two windows share an address (43_packed_codec.md R604). -/
abbrev shareAddress (a m b n : Nat) : Prop := 0 < m ∧ 0 < n ∧ a < b + n ∧ b < a + m

/-- CodecChecks of 43_packed_codec.md R604 as the chain of tests it is written as there: the cause and sub-code of the first
that fails, for PACK (`pack` true) or UNPACK. -/
def codecRefusal (pack : Bool) (o : BitOrder) (es cnt : Nat) (g : CfgRegs) : Option (Cause × Nat) :=
  let rows := g.dimRows.toNat
  let cols := g.dimCols.toNat
  let w := if cnt = 0 then 8 * es else cnt
  let pixLen := if 0 < rows ∧ 0 < cols then es * ((rows - 1) * g.pixPitch.toNat + cols) else 0
  let packedLen := if 0 < rows then (rows - 1) * g.pkPitch.toNat + g.pkLen.toNat else 0
  let padLen := if g.padMode = 1 then 4 * rows else 0
  if o = .jpeg then some (.cfgInvalid, 1)
  else if pack = true ∧ cnt = 0 then some (.cfgInvalid, 2)
  else if 32 < w then some (.cfgInvalid, 3)
  else if 8 * es < w then some (.cfgInvalid, 4)
  else if pack = true ∧ 1 < g.padMode.toNat then some (.cfgInvalid, 5)
  else if g.pixLen ≠ g.dimCols then some (.cfgDimension, 1)
  else if g.pixRows ≠ g.dimRows then some (.cfgDimension, 2)
  else if pack = false ∧ g.pkRows ≠ g.dimRows then some (.cfgDimension, 3)
  else if g.pixPitch.toNat < g.pixLen.toNat then some (.cfgDimension, 4)
  else if pack = false ∧ g.pkPitch.toNat < g.pkLen.toNat then some (.cfgDimension, 5)
  else if pack = false then
    if passesEnd g.srcBase.toNat packedLen then some (.cfgRange, 1)
    else if passesEnd g.pixBase.toNat pixLen then some (.cfgRange, 3)
    else if shareAddress g.srcBase.toNat packedLen g.pixBase.toNat pixLen then some (.cfgOverlap, 1)
    else none
  else if passesEnd g.snkBase.toNat g.snkCap.toNat then some (.cfgRange, 2)
  else if passesEnd g.pixBase.toNat pixLen then some (.cfgRange, 3)
  else if passesEnd g.padBase.toNat padLen then some (.cfgRange, 4)
  else if shareAddress g.pixBase.toNat pixLen g.snkBase.toNat g.snkCap.toNat then some (.cfgOverlap, 2)
  else if shareAddress g.padBase.toNat padLen g.snkBase.toNat g.snkCap.toNat then some (.cfgOverlap, 3)
  else none

/-! ## Sequences of cache operations and of session calls -/

/-- A cache operation (41_bit_cache.md R408). -/
inductive CacheOp where
  | push (v : DWord) (n : Nat)
  | peek (n : Nat)
  | skip (n : Nat)
deriving DecidableEq, Repr

/-- Cache operations in turn: the last cache and the bits each Peek returned, or nothing where one of them raises. -/
def runCache : List CacheOp → BitCache → Option (BitCache × List (List Bool))
  | [], c => some (c, [])
  | .push v n :: ops, c => do
    let c' ← (c.push v n).toOption
    runCache ops c'
  | .peek n :: ops, c => do
    let v ← (c.peek n).toOption
    let (c', seen) ← runCache ops c
    return (c', valueBits c.flow (v.setWidth 64) n :: seen)
  | .skip n :: ops, c => do
    let c' ← (c.skip n).toOption
    runCache ops c'

/-- The same operations on a first-in first-out queue of bits of capacity 64 (41_bit_cache.md R408). -/
def runQueue (f : Flow) : List CacheOp → List Bool → Option (List Bool × List (List Bool))
  | [], q => some (q, [])
  | .push v n :: ops, q => if n + q.length ≤ 64 then runQueue f ops (q ++ valueBits f v n) else none
  | .peek n :: ops, q =>
    if 1 ≤ n ∧ n ≤ 32 ∧ n ≤ q.length then (runQueue f ops q).map fun r => (r.1, q.take n :: r.2) else none
  | .skip n :: ops, q => if n ≤ q.length then runQueue f ops (q.drop n) else none

/-- GetBits for each count in turn (42_stream_engine.md R543). -/
def readAll (p : Config.Params) (o : BitOrder) (m : Memory) (w : Window) :
    List Nat → Cursor → Except Raise (List Word)
  | [], _ => .ok []
  | n :: ns, k => do
    let (v, k') ← getBits p o n m w k
    let vs ← readAll p o m w ns k'
    return v :: vs

/-- Instructions in turn, as long as each answers a next state that is neither FAULTED nor in I/O error. -/
def runClean : List Instr → State → Option State
  | [], s => some s
  | i :: is, s =>
    match exec i s with
    | .next t => if t.faulted || t.ioerr then none else runClean is t
    | .fault _ => none
    | .refused _ => none

/-- `PUTI n, v` of 30_encoding.md R321 for each pair of a value and a count: DATA is written, then put. -/
def putProgram (vs : List (DWord × Nat)) : List Instr := vs.flatMap fun v => [.regwr 0x02 v.1, .put v.2]

/-- `GET n` of 30_encoding.md R321 for each count: GETBITS, and RESULT after it. -/
def readBack : List Nat → State → Option (List DWord)
  | [], _ => some []
  | n :: ns, s =>
    match exec (.getbits n) s with
    | .next t => if t.faulted then none else (readBack ns t).map fun vs => t.result :: vs
    | .fault _ => none
    | .refused _ => none

/-! ## Images -/

/-- The element (r, c) of the pixel view, little-endian (20_memory.md R221). -/
def elementAt (m : Memory) (g : CfgRegs) (es r c : Nat) : Nat :=
  bytesValue ((List.range es).map fun i => Memory.read m (g.pixBase.toNat + es * (r * g.pixPitch.toNat + c) + i))

/-- PAD(r) (43_packed_codec.md R641): the constant, or the 32-bit little-endian table entry. -/
def padAt (m : Memory) (g : CfgRegs) (r : Nat) : Nat :=
  if g.padMode = 0 then g.padConst.toNat
  else bytesValue ((List.range 4).map fun i => Memory.read m (g.padBase.toNat + 4 * r + i))

/-- The flushed words of a packed row of `cols` pixels of width w: ceil(cols*w/32) (43_packed_codec.md R643). -/
def rowWords (cols w : Nat) : Nat := (cols * w + 31) / 32

/-- Where row r starts in the sink: after the rows and paddings before it (43_packed_codec.md R640, R643). -/
def rowOffset (m : Memory) (g : CfgRegs) (w : Nat) : Nat → Nat
  | 0 => 0
  | r + 1 => rowOffset m g w r + 4 * rowWords g.dimCols.toNat w + padAt m g r

/-- The bits PACK puts for row r: each pixel's w low bits, left to right (43_packed_codec.md R640). -/
def packedRowBits (m : Memory) (g : CfgRegs) (f : Flow) (es w r : Nat) : List Bool :=
  (List.range g.dimCols.toNat).flatMap fun c => valueBits f (BitVec.ofNat 64 (elementAt m g es r c)) w

/-- The bits of the words PACK writes for row r: the row's, and zero bits up to a whole word (42_stream_engine.md R540). -/
def paddedRowBits (m : Memory) (g : CfgRegs) (f : Flow) (es w r : Nat) : List Bool :=
  packedRowBits m g f es w r ++ List.replicate (32 * rowWords g.dimCols.toNat w - g.dimCols.toNat * w) false

/-- MEM holds at `a` the drained words that stand for these bits (42_stream_engine.md R531). -/
def HoldsWords (o : BitOrder) (m : Memory) (a : Nat) (bits : List Bool) : Prop :=
  ∃ words : List Word,
    words.flatMap (fun v => valueBits (policy Config.rsbc o).flow (v.setWidth 64) 32) = bits ∧
      HoldsAt m a (words.flatMap (tableWordBytes o))

/-- The byte at `a` belongs to no element of the pixel rectangle (43_packed_codec.md R612, R620). -/
def OutsideRectangle (g : CfgRegs) (es a : Nat) : Prop :=
  ∀ r < g.dimRows.toNat, ∀ c < g.dimCols.toNat, ∀ i < es, a ≠ g.pixBase.toNat + es * (r * g.pixPitch.toNat + c) + i

/-- The chunks one UNPACK row reads: ceil(cols*w/(8k)) (43_packed_codec.md R611). -/
def rowChunks (k cols w : Nat) : Nat := (cols * w + (8 * k - 1)) / (8 * k)

/-- The stream bits of packed row r, over the chunks the row needs (43_packed_codec.md R610, R611). -/
def unpackedRowBits (m : Memory) (g : CfgRegs) (q : Policy) (w r : Nat) : List Bool :=
  streamBits q (rowChunks q.chunk g.dimCols.toNat w)
    ((List.range (q.chunk * rowChunks q.chunk g.dimCols.toNat w)).map fun i =>
      Memory.read m (g.srcBase.toNat + r * g.pkPitch.toNat + i))

/-! ## The invariant -/

/-- No session: C = 0, F = 0, FLOW = 0, ORDER = 0 (10_state.md R123, R125). -/
abbrev State.IdleOk (s : State) : Prop :=
  s.mode = .idle → s.cache = BitCache.empty .lsbFirst ∧ s.order = .lsb

/-- A raw session has ORDER = 0 (41_bit_cache.md R400). -/
abbrev State.RawOk (s : State) : Prop := s.mode = .raw → s.order = .lsb

/-- A decode session: its flow is its order's, fewer than 32 bits are cached between commands, and its window lies in MEM
and is not overrun (42_stream_engine.md R500, R511, R513). -/
abbrev State.DecOk (s : State) : Prop :=
  s.mode = .dec →
    s.cache.flow = (policy Config.rsbc s.order).flow ∧ s.cache.fill ≤ 31 ∧
      s.srcPos.toNat ≤ s.cfg.srcLen.toNat ∧ (srcWindow s.cfg).inRange Config.rsbc = true

/-- An encode session: its flow is its order's, F <= 31 between commands, and its window lies in MEM and is not overrun
(42_stream_engine.md R501, R532, R534). -/
abbrev State.EncOk (s : State) : Prop :=
  s.mode = .enc →
    s.cache.flow = (policy Config.rsbc s.order).flow ∧ s.cache.fill ≤ 31 ∧
      s.snkPos.toNat ≤ s.cfg.snkCap.toNat ∧ (snkWindow s.cfg).inRange Config.rsbc = true

/-- CAUSE and the FAULT_* registers are 0 exactly as FAULTED says (60_exceptions.md R901, R906). -/
abbrev State.FaultOk (s : State) : Prop :=
  (s.faulted = true → s.cause ≠ .noFault) ∧
    (s.faulted = false →
      s.cause = .noFault ∧ s.faultCmd = 0 ∧ s.faultInfo = 0 ∧ s.faultRow = 0 ∧ s.faultCol = 0)

/-- The address of the host's own access to MEM, if the action is one. -/
def HostAction.address : HostAction → Option Nat
  | .transaction _ _ => none
  | .memWrite a _ => some a
  | .memRead a => some a

/-- The host accesses only addresses that exist (20_memory.md R200). -/
abbrev State.HostOk (s : State) : Prop :=
  ∀ a ∈ s.pending, ∀ addr ∈ a.address, addr < Config.rsbc.memSize

/-- The invariant of the machine. -/
abbrev State.Inv (s : State) : Prop :=
  s.cache.wf ∧ Memory.wf s.mem ∧ Memory.within s.mem Config.rsbc.memSize ∧ s.IdleOk ∧ s.RawOk ∧ s.DecOk ∧ s.EncOk ∧
    s.FaultOk ∧ s.HostOk

end Sys2Proof.Machine
end

