-- ==== Sys2Proof/Certificates/Slice0/Obligations.lean ====
section
/-! DEFINITION. The statements about the machine. Each docstring names the rules of spec/ it formalises. -/

open Sys2Proof Sys2Proof.Machine

/-! ## Encoding -/

/-- 30_encoding.md R301, R316, R322: decoding the encoding of a well-formed instruction gives it back. -/
def Obligations.DecodeOfEncode : Prop :=
  ∀ i : Instr, i.wellFormed = true → decode (encode i) = .ok i

/-- 30_encoding.md R301, R316: a legal command word has one meaning, whose encoding it is; a legal header is the header of
its transaction's encoding, with the data phase where the transaction is a write. -/
def Obligations.EncodeOfDecode : Prop :=
  (∀ w i, decodeCommand w = .ok i → i.wellFormed = true ∧ encode i = .command w) ∧
    ∀ h d i, decodeTransaction h d = .ok i →
      i.wellFormed = true ∧ encode i = .transaction h (if kindField h = 1 then d else 0)

/-- 30_encoding.md R310-R316, R320: words written out from the tables of the spec. -/
def Obligations.SampleWordsDecode : Prop :=
  decodeCommand 0x00000000#32 = .ok .nop ∧
    decodeCommand 0x00010001#32 = .ok (.cinit .msbFirst) ∧
    decodeCommand 0x00000402#32 = .ok (.cpush 4) ∧
    decodeCommand 0x00007F03#32 = .ok (.cpeek 127) ∧
    decodeCommand 0x00030305#32 = .ok (.xhi .w64 3) ∧
    decodeCommand 0x0000000F#32 = .ok .endSession ∧
    decodeCommand 0x00020010#32 = .ok (.dstart .msb16) ∧
    decodeCommand 0x00000C11#32 = .ok (.getbits 12) ∧
    decodeCommand 0x00040018#32 = .ok (.estart .jpeg) ∧
    decodeCommand 0x0000001A#32 = .ok .flush ∧
    decodeCommand 0x00130C20#32 = .ok (.unpack .msb32 .u16 12) ∧
    decodeCommand 0x00202021#32 = .ok (.pack .lsb .u32 32) ∧
    decodeTransaction 0x0001#16 0 = .ok (.regrd 0x01) ∧
    decodeTransaction 0x4002#16 0xA = .ok (.regwr 0x02 0xA) ∧
    decodeTransaction 0xC000#16 0 = .ok .reset

/-- 30_encoding.md R317: a command word is illegal exactly as the rule says, and writing it to CMD raises ILLEGAL_COMMAND
and has no other effect. -/
def Obligations.IllegalWordsFault : Prop :=
  ∀ w : Word, (illegalWord w ↔ ∃ e, decodeCommand w = .error e) ∧
    ∀ (s : State) (d : DWord), illegalWord w → d.setWidth 32 = w → s.faulted = false →
      exec (.regwr 0x1F d) s =
        .next { s with
          faulted := true, cause := .illegalCommand, faultCmd := w, faultInfo := 0, faultRow := 0, faultCol := 0 }

/-- 30_encoding.md R311-R313, R316, R322: each row of the opcode map selects its words by mask, match and extra constraint,
and gives the instruction with the fields of the row. -/
def Obligations.OpcodeRowsSelect : Prop :=
  ∀ w : Word,
    (w = 0x00000000 → decodeCommand w = .ok .nop) ∧
    (w &&& 0xFFFEFFFF = 0x00000001 →
      decodeCommand w = .ok (.cinit (if w.getLsbD 16 then .msbFirst else .lsbFirst))) ∧
    (w &&& 0xFFFF80FF = 0x00000002 → decodeCommand w = .ok (.cpush (w.toNat / 2 ^ 8 % 2 ^ 7))) ∧
    (w &&& 0xFFFF80FF = 0x00000003 → decodeCommand w = .ok (.cpeek (w.toNat / 2 ^ 8 % 2 ^ 7))) ∧
    (w &&& 0xFFFF80FF = 0x00000004 → decodeCommand w = .ok (.cskip (w.toNat / 2 ^ 8 % 2 ^ 7))) ∧
    (∀ e ∈ [(0, ExtractWidth.w8), (1, .w16), (2, .w32), (3, .w64)], w.toNat / 2 ^ 16 % 2 ^ 2 = e.1 →
      (w &&& 0xFFFC80FF = 0x00000005 → decodeCommand w = .ok (.xhi e.2 (w.toNat / 2 ^ 8 % 2 ^ 7))) ∧
        (w &&& 0xFFFC80FF = 0x00000006 → decodeCommand w = .ok (.xlo e.2 (w.toNat / 2 ^ 8 % 2 ^ 7)))) ∧
    (w = 0x0000000F → decodeCommand w = .ok .endSession) ∧
    (w &&& 0xFFFF80FF = 0x00000011 → decodeCommand w = .ok (.getbits (w.toNat / 2 ^ 8 % 2 ^ 7))) ∧
    (w &&& 0xFFFF80FF = 0x00000019 → decodeCommand w = .ok (.put (w.toNat / 2 ^ 8 % 2 ^ 7))) ∧
    (w = 0x0000001A → decodeCommand w = .ok .flush) ∧
    ∀ o ∈ [(0, BitOrder.lsb), (1, .msb), (2, .msb16), (3, .msb32), (4, .jpeg)], w.toNat / 2 ^ 16 % 2 ^ 3 = o.1 →
      (w &&& 0xFFF8FFFF = 0x00000010 → decodeCommand w = .ok (.dstart o.2)) ∧
        (w &&& 0xFFF8FFFF = 0x00000018 → decodeCommand w = .ok (.estart o.2)) ∧
        ∀ e ∈ [(0, ElemType.u8), (1, .u16), (2, .u32)], w.toNat / 2 ^ 20 % 2 ^ 2 = e.1 →
          (w &&& 0xFFC880FF = 0x00000020 → decodeCommand w = .ok (.unpack o.2 e.2 (w.toNat / 2 ^ 8 % 2 ^ 7))) ∧
            (w &&& 0xFFC880FF = 0x00000021 → decodeCommand w = .ok (.pack o.2 e.2 (w.toNat / 2 ^ 8 % 2 ^ 7)))

/-- 30_encoding.md R302, 45_control.md R810: a reserved transaction changes no state of the block. What it answers, 0 to a
header of KIND 00 and nothing to the others, is the model's reading of "when a response is expected" (log 7). -/
def Obligations.ReservedTransactionsDoNothing : Prop :=
  ∀ (s : State) (h : BitVec 16) (d : DWord) (rest : List HostAction),
    s.pending = .transaction h d :: rest →
    (h.toNat / 2 ^ 14 = 2 ∨ h.toNat / 2 ^ 8 % 2 ^ 6 ≠ 0 ∨ h.toNat / 2 ^ 14 = 3 ∧ h.toNat % 2 ^ 8 ≠ 0) →
    step s = .next { s with pending := rest, response := if h.toNat / 2 ^ 14 = 0 then some 0 else none }

/-! ## The machine -/

/-- 45_control.md R810, 10_state.md R110: a step runs the instruction that the host's next transaction decodes to, in the
state in which that transaction is taken and nothing is answered yet (logs 2 and 3). -/
def Obligations.StepRunsDecoded : Prop :=
  ∀ (s : State) (h : BitVec 16) (d : DWord) (rest : List HostAction) (i : Instr),
    s.pending = .transaction h d :: rest → decodeTransaction h d = .ok i →
    step s = exec i { s with pending := rest, response := none }

/-- 30_encoding.md R300, 10_state.md R114: a command stands for the write of its word to CMD, bits above 31 ignored. -/
def Obligations.CommandsRunThroughCmd : Prop :=
  ∀ (i : Instr) (s : State) (d : DWord),
    isCommand i = true → i.wellFormed = true → encode i = .command (d.setWidth 32) →
    exec (.regwr 0x1F d) s = exec i s ∧
      ∀ rest, s.pending = .transaction 0x401F d :: rest →
        step s = exec i { s with pending := rest, response := none }

/-- 20_memory.md R200, R240; 70_reset_and_hazards.md R1010: with no action pending the block does nothing, and between
transactions the host reads and writes single bytes of MEM. The queue of actions is the model's own (logs 2, 3, 8, 9). -/
def Obligations.HostMemoryAccess : Prop :=
  ∀ (s : State) (rest : List HostAction) (a : Nat) (v : Byte),
    (s.pending = [] → step s = .next s) ∧
    (s.pending = .memWrite a v :: rest →
      if a < 2 ^ 32 then
        step s = .next { s with mem := Memory.write s.mem a v, pending := rest, response := none } ∧
          (Memory.wf s.mem → ∀ b, Memory.read (Memory.write s.mem a v) b = if b = a then v else Memory.read s.mem b)
      else step s = .fault (.outsideMemory a)) ∧
    (s.pending = .memRead a :: rest →
      if a < 2 ^ 32 then
        step s = .next { s with pending := rest, response := some ((Memory.read s.mem a).setWidth 64) }
      else step s = .fault (.outsideMemory a))

/-- 10_state.md R121, R124; 70_reset_and_hazards.md R1001: the invariant holds after power-on. -/
def Obligations.InvariantAtReset : Prop := State.reset.Inv

/-- 10_state.md R121, R122, R125; 42_stream_engine.md R534; 60_exceptions.md R901: every step keeps the invariant. -/
def Obligations.StepKeepsInvariant : Prop :=
  ∀ s t : State, s.Inv → step s = .next t → t.Inv

/-- 00_scope.md R9; 20_memory.md R201; 60_exceptions.md R900, R914: in a state that satisfies the invariant the machine
never stops: every fault of the block is a next state, and no address the block forms lies outside MEM. The host's own
accesses to MEM are the model's (logs 2, 8, 9); `HostOk` in the invariant holds those still pending inside MEM. -/
def Obligations.StepNeverStops : Prop :=
  ∀ s : State, s.Inv → ∃ t, step s = .next t

/-- 70_reset_and_hazards.md R1001, R1002: what RESET leaves. The last three fields are the model's own (logs 2 to 4). -/
def Obligations.ResetClearsTheBlock : Prop :=
  ∀ s : State, exec .reset s = .next
    { result := 0, data := 0, faultCmd := 0, faultInfo := 0, faultRow := 0, faultCol := 0, srcPos := 0, snkPos := 0
      cfg :=
        { srcBase := 0, srcLen := 0, snkBase := 0, snkCap := 0, dimCols := 0, dimRows := 0, pixBase := 0, pixLen := 0
          pixPitch := 0, pixRows := 0, pkLen := 0, pkPitch := 0, pkRows := 0, padMode := 0, padConst := 0, padBase := 0 }
      cache := { bits := 0, fill := 0, flow := .lsbFirst }
      mode := .idle, order := .lsb, faulted := false, cause := .noFault, ioerr := false, mem := s.mem
      pending := s.pending, response := s.response, draws := s.draws }

/-- 70_reset_and_hazards.md R1003: after RESET every register reads 0; the first GETBITS of a decode session faults
END_OF_INPUT with FAULT_INFO = 0; the first drain of an encode session is an I/O error; UNPACK and PACK with a legal width
change nothing and complete. -/
def Obligations.AfterResetNothingIsConfigured : Prop :=
  ∀ s : State, ∃ t, exec .reset s = .next t ∧
    (∀ idx, exec (.regrd idx) t = .next { t with response := some 0 }) ∧
    (∀ (o : BitOrder) (n : Nat), 1 ≤ n → n ≤ 32 →
      ∃ u, exec (.dstart o) t = .next u ∧ exec (.getbits n) u = .next (faultedBy u (.getbits n) .endOfInput 0)) ∧
    (∀ o : BitOrder, ∃ u, exec (.estart o) t = .next u ∧
      ∀ (c : BitCache) (d : DWord) (n : Nat), c.fill ≤ 31 → n ≤ 32 →
        (32 ≤ c.fill + n →
          exec (.put n) { u with cache := c, data := d } = .next { u with cache := c, data := d, ioerr := true }) ∧
        (c.fill ≠ 0 → exec .flush { u with cache := c } = .next { u with cache := c, ioerr := true })) ∧
    ∀ (o : BitOrder) (ety : ElemType) (w : Nat), o ≠ .jpeg → 1 ≤ w → w ≤ 8 * elemSize ety →
      exec (.unpack o ety w) t = .next t ∧ exec (.unpack o ety 0) t = .next t ∧ exec (.pack o ety w) t = .next t

/-- 10_state.md R118, 60_exceptions.md R907: while FAULTED = 1 every write and every command has no effect, reads answer as
in every other state, and only RESET leaves the state. -/
def Obligations.FaultedIsSticky : Prop :=
  ∀ s : State, s.faulted = true →
    (∀ i, isCommand i = true → exec i s = .next s) ∧
    (∀ idx d, exec (.regwr idx d) s = .next s) ∧
    (∀ idx, exec (.regrd idx) s = .next { s with response := some (regRead s idx) } ∧
      (idx ≠ 0x00 → regRead s idx = regRead { s with faulted := false } idx)) ∧
    (∀ t, exec .reset s = .next t → t.faulted = false) ∧
    ∀ t, step s = .next t → t.faulted = false → ∃ d rest, s.pending = .transaction 0xC000 d :: rest

/-- 60_exceptions.md R900, R906: a command that faults changes nothing but FAULTED, CAUSE and the FAULT_* registers, with
its word in FAULT_CMD; only UNPACK may also change MEM, inside the pixel rectangle, and name a pixel. -/
def Obligations.FaultsArePrecise : Prop :=
  ∀ (i : Instr) (s t : State),
    isCommand i = true → Memory.wf s.mem → s.faulted = false → exec i s = .next t → t.faulted = true →
    t = { s with
          faulted := true, cause := t.cause, faultCmd := (encode i).word, faultInfo := t.faultInfo
          faultRow := t.faultRow, faultCol := t.faultCol, mem := t.mem, draws := t.draws } ∧
      t.cause ≠ .noFault ∧
      match i with
      | .unpack _ ety _ => ∀ a, OutsideRectangle s.cfg (elemSize ety) a → Memory.read t.mem a = Memory.read s.mem a
      | _ => t.mem = s.mem ∧ t.draws = s.draws ∧ t.faultRow = 0 ∧ t.faultCol = 0

/-- 60_exceptions.md R904: a command that needs a mode and runs in another raises BAD_MODE with FAULT_INFO = MODE; a command
that needs none never raises it. -/
def Obligations.BadModeIsRaised : Prop :=
  ∀ (i : Instr) (s : State), isCommand i = true → s.faulted = false →
    (∀ m, neededMode i = some m → s.mode ≠ m →
      exec i s = .next (faultedBy s i .badMode
        (match s.mode with
         | .idle => 0
         | .raw => 1
         | .dec => 2
         | .enc => 3))) ∧
      ∀ t, neededMode i = none → exec i s = .next t → t.faulted = true → t.cause ≠ .badMode

/-- 60_exceptions.md R901, columns "name" and "raised by"; 42_stream_engine.md R513, R534: a command raises only the causes
the table gives it. -/
def Obligations.CausesHaveTheirOrigin : Prop :=
  ∀ (i : Instr) (s t : State), isCommand i = true → s.Inv → s.faulted = false → exec i s = .next t → t.faulted = true →
    t.cause ∈ causesOf i

/-- 10_state.md R101 (column "written by the block"), R103, R104, R108, R109, R123: what no command but the named ones
writes. -/
def Obligations.OnlyNamedCommandsWrite : Prop :=
  ∀ (i : Instr) (s t : State), isCommand i = true → s.Inv → exec i s = .next t →
    t.data = s.data ∧ t.cfg = s.cfg ∧ t.pending = s.pending ∧ t.response = s.response ∧
      (t.faulted = false →
        t.cause = s.cause ∧ t.faultCmd = s.faultCmd ∧ t.faultInfo = s.faultInfo ∧ t.faultRow = s.faultRow ∧
          t.faultCol = s.faultCol) ∧
      (match i with
       | .cpeek _ | .getbits _ | .xhi _ _ | .xlo _ _ => True
       | _ => t.result = s.result) ∧
      (match i with
       | .dstart _ | .getbits _ => True
       | _ => t.srcPos = s.srcPos) ∧
      (match i with
       | .estart _ | .put _ | .flush | .pack _ _ _ => True
       | _ => t.snkPos = s.snkPos) ∧
      (match i with
       | .put _ | .flush | .unpack _ _ _ | .pack _ _ _ => True
       | _ => t.mem = s.mem) ∧
      (match i with
       | .cinit _ | .cpush _ | .cskip _ | .endSession | .dstart _ | .estart _ | .getbits _ | .put _ | .flush => True
       | _ => t.cache = s.cache) ∧
      (match i with
       | .cinit _ | .endSession | .dstart _ | .estart _ => True
       | _ => t.mode = s.mode ∧ t.order = s.order ∧ t.cache.flow = s.cache.flow) ∧
      (s.faulted = false → t.faulted = false →
        match i with
        | .put _ | .flush | .pack _ _ _ => True
        | _ => t.ioerr = false)

/-! ## The host port -/

/-- 45_control.md R811; 10_state.md R114, R115: what a read of each register answers, and that it changes nothing else. -/
def Obligations.ReadsAnswerRegisters : Prop :=
  ∀ s : State,
    (∀ e ∈ [((0x00 : BitVec 8), (statusWord s).setWidth 64), (0x01, s.result), (0x02, s.data),
        (0x03, s.faultCmd.setWidth 64), (0x04, s.faultInfo.setWidth 64), (0x05, s.faultRow.setWidth 64),
        (0x06, s.faultCol.setWidth 64), (0x08, s.cfg.srcBase.setWidth 64), (0x09, s.cfg.srcLen.setWidth 64),
        (0x0A, s.srcPos.setWidth 64), (0x0C, s.cfg.snkBase.setWidth 64), (0x0D, s.cfg.snkCap.setWidth 64),
        (0x0E, s.snkPos.setWidth 64), (0x10, s.cfg.dimCols.setWidth 64), (0x11, s.cfg.dimRows.setWidth 64),
        (0x12, s.cfg.pixBase.setWidth 64), (0x13, s.cfg.pixLen.setWidth 64), (0x14, s.cfg.pixPitch.setWidth 64),
        (0x15, s.cfg.pixRows.setWidth 64), (0x16, s.cfg.pkLen.setWidth 64), (0x17, s.cfg.pkPitch.setWidth 64),
        (0x18, s.cfg.pkRows.setWidth 64), (0x19, s.cfg.padMode.setWidth 64), (0x1A, s.cfg.padConst.setWidth 64),
        (0x1B, s.cfg.padBase.setWidth 64), (0x1F, 0)],
      exec (.regrd e.1) s = .next { s with response := some e.2 }) ∧
    ∀ idx : BitVec 8, idx.toNat ∈ [0x07, 0x0B, 0x0F, 0x1C, 0x1D, 0x1E] ∨ 0x20 ≤ idx.toNat →
      exec (.regrd idx) s = .next { s with response := some 0 }

/-- 10_state.md R102: every field of STATUS, in its place. -/
def Obligations.StatusShowsTheState : Prop :=
  ∀ s : State, s.cache.fill ≤ 64 → ∃ v : DWord,
    exec (.regrd 0x00) s = .next { s with response := some v } ∧
      v.toNat = (if s.faulted then 1 else 0) + 2 * (if s.ioerr then 1 else 0) +
        4 * (match s.mode with
             | .idle => 0
             | .raw => 1
             | .dec => 2
             | .enc => 3) +
        16 * (if s.mode ≠ .idle ∧ s.cache.flow = .msbFirst then 1 else 0) +
        32 * (if s.mode = .dec ∨ s.mode = .enc then
                match s.order with
                | .lsb => 0
                | .msb => 1
                | .msb16 => 2
                | .msb32 => 3
                | .jpeg => 4
              else 0) +
        256 * s.cache.fill +
        65536 * (if s.faulted then
                   match s.cause with
                   | .noFault => 0x00
                   | .illegalCommand => 0x01
                   | .badMode => 0x02
                   | .pushOverflow => 0x03
                   | .peekZero => 0x04
                   | .peekOverCapacity => 0x05
                   | .peekOverMax => 0x06
                   | .peekOverFill => 0x07
                   | .skipOverFill => 0x08
                   | .extractOverWidth => 0x09
                   | .putOverMax => 0x0A
                   | .endOfInput => 0x0B
                   | .jpegBadEscape => 0x0C
                   | .unflushedClose => 0x0D
                   | .cfgInvalid => 0x10
                   | .cfgDimension => 0x11
                   | .cfgRange => 0x12
                   | .cfgOverlap => 0x13
                 else 0)

/-- 45_control.md R812; 10_state.md R114-R119: what a write of each register does. -/
def Obligations.WritesReachRegisters : Prop :=
  ∀ (s : State) (v : DWord),
    (s.faulted = true → ∀ idx, exec (.regwr idx v) s = .next s) ∧
    (s.faulted = false →
      (∀ i, decodeCommand (v.setWidth 32) = .ok i → exec (.regwr 0x1F v) s = exec i s) ∧
      (∀ e, decodeCommand (v.setWidth 32) = .error e →
        exec (.regwr 0x1F v) s = .next { s with
          faulted := true, cause := .illegalCommand, faultCmd := v.setWidth 32, faultInfo := 0, faultRow := 0
          faultCol := 0 }) ∧
      exec (.regwr 0x02 v) s = .next { s with data := v } ∧
      (∀ e ∈ [((0x08 : BitVec 8), { s.cfg with srcBase := v.setWidth 32 }), (0x09, { s.cfg with srcLen := v.setWidth 32 }),
          (0x0C, { s.cfg with snkBase := v.setWidth 32 }), (0x0D, { s.cfg with snkCap := v.setWidth 32 }),
          (0x10, { s.cfg with dimCols := v.setWidth 32 }), (0x11, { s.cfg with dimRows := v.setWidth 32 }),
          (0x12, { s.cfg with pixBase := v.setWidth 32 }), (0x13, { s.cfg with pixLen := v.setWidth 32 }),
          (0x14, { s.cfg with pixPitch := v.setWidth 32 }), (0x15, { s.cfg with pixRows := v.setWidth 32 }),
          (0x16, { s.cfg with pkLen := v.setWidth 32 }), (0x17, { s.cfg with pkPitch := v.setWidth 32 }),
          (0x18, { s.cfg with pkRows := v.setWidth 32 }), (0x19, { s.cfg with padMode := v.setWidth 32 }),
          (0x1A, { s.cfg with padConst := v.setWidth 32 }), (0x1B, { s.cfg with padBase := v.setWidth 32 })],
        exec (.regwr e.1 v) s = .next (if s.mode = .idle then { s with cfg := e.2 } else s)) ∧
      ∀ idx : BitVec 8,
        idx.toNat ∈ [0x00, 0x01, 0x03, 0x04, 0x05, 0x06, 0x07, 0x0A, 0x0B, 0x0E, 0x0F, 0x1C, 0x1D, 0x1E] ∨ 0x20 ≤ idx.toNat →
        exec (.regwr idx v) s = .next s)

/-! ## The bit cache -/

/-- 45_control.md R800: NOP clears IOERR and nothing else. -/
def Obligations.NopClearsIoerr : Prop :=
  ∀ s : State, s.faulted = false → exec .nop s = .next { s with ioerr := false }

/-- 41_bit_cache.md R400: CINIT opens a raw session with an empty cache. -/
def Obligations.CinitOpensRawSession : Prop :=
  ∀ (fl : Flow) (s : State), s.faulted = false → s.mode = .idle →
    exec (.cinit fl) s = .next { s with
      cache := { bits := 0, fill := 0, flow := fl }, mode := .raw, order := .lsb, ioerr := false }

/-- 41_bit_cache.md R405, R410: CPUSH n puts the n low bits of DATA next to the newest bit of the cache, or faults
PUSH_OVERFLOW where they do not fit. -/
def Obligations.CpushAppendsBits : Prop :=
  ∀ (n : Nat) (s : State), s.faulted = false → s.mode = .raw →
    (n + s.cache.fill ≤ 64 → ∃ c : DWord,
      exec (.cpush n) s = .next { s with
        cache := { bits := c, fill := s.cache.fill + n, flow := s.cache.flow }, ioerr := false } ∧
      ∀ i < 64, c.getLsbD i = (s.cache.bits.getLsbD i ||
        match s.cache.flow with
        | .lsbFirst => decide (s.cache.fill ≤ i) && decide (i < s.cache.fill + n) && s.data.getLsbD (i - s.cache.fill)
        | .msbFirst =>
          decide (64 ≤ i + s.cache.fill + n) && decide (i + s.cache.fill < 64) &&
            s.data.getLsbD (i + s.cache.fill + n - 64))) ∧
      (64 < n + s.cache.fill → exec (.cpush n) s = .next (faultedBy s (.cpush n) .pushOverflow s.cache.fill))

/-- 41_bit_cache.md R406, R420: CPEEK n puts the n oldest bits into RESULT, or faults by the first check that fails. -/
def Obligations.CpeekReadsOldestBits : Prop :=
  ∀ (n : Nat) (s : State), s.faulted = false → s.mode = .raw →
    exec (.cpeek n) s = .next
      (if n = 0 then faultedBy s (.cpeek n) .peekZero s.cache.fill
       else if 64 < n then faultedBy s (.cpeek n) .peekOverCapacity s.cache.fill
       else if 32 < n then faultedBy s (.cpeek n) .peekOverMax s.cache.fill
       else if s.cache.fill < n then faultedBy s (.cpeek n) .peekOverFill s.cache.fill
       else { s with
         result := BitVec.ofNat 64
           (match s.cache.flow with
            | .lsbFirst => s.cache.bits.toNat % 2 ^ n
            | .msbFirst => s.cache.bits.toNat / 2 ^ (64 - n))
         ioerr := false })

/-- 41_bit_cache.md R407, R430: CSKIP n drops the n oldest bits, or faults SKIP_OVER_FILL. -/
def Obligations.CskipDropsOldestBits : Prop :=
  ∀ (n : Nat) (s : State), s.faulted = false → s.mode = .raw →
    exec (.cskip n) s = .next
      (if s.cache.fill < n then faultedBy s (.cskip n) .skipOverFill s.cache.fill
       else { s with
         cache :=
           { bits := BitVec.ofNat 64
               (match s.cache.flow with
                | .lsbFirst => s.cache.bits.toNat / 2 ^ n
                | .msbFirst => s.cache.bits.toNat * 2 ^ n)
             fill := s.cache.fill - n
             flow := s.cache.flow }
         ioerr := false })

/-- 41_bit_cache.md R450, R451, R460: in every mode XHI keeps the high n bits of the low W bits of DATA in place and XLO the
low n bits; both fault EXTRACT_OVER_WIDTH where n > W. -/
def Obligations.ExtractionKeepsBits : Prop :=
  ∀ e ∈ [(ExtractWidth.w8, 8), (.w16, 16), (.w32, 32), (.w64, 64)], ∀ (n : Nat) (s : State), s.faulted = false →
    (n ≤ e.2 →
      (∃ r : DWord, exec (.xhi e.1 n) s = .next { s with result := r, ioerr := false } ∧
        ∀ i < 64, r.getLsbD i = (decide (e.2 ≤ i + n) && decide (i < e.2) && s.data.getLsbD i)) ∧
      ∃ r : DWord, exec (.xlo e.1 n) s = .next { s with result := r, ioerr := false } ∧
        ∀ i < 64, r.getLsbD i = (decide (i < n) && s.data.getLsbD i)) ∧
    (e.2 < n →
      exec (.xhi e.1 n) s = .next (faultedBy s (.xhi e.1 n) .extractOverWidth e.2) ∧
        exec (.xlo e.1 n) s = .next (faultedBy s (.xlo e.1 n) .extractOverWidth e.2))

/-- 41_bit_cache.md R408: from the empty cache, pushes, peeks and skips within their contracts act as on a queue of bits,
and the cache invariant holds after them. -/
def Obligations.CacheIsQueue : Prop :=
  ∀ (f : Flow) (ops : List CacheOp),
    (runCache ops { bits := 0, fill := 0, flow := f }).map (fun r => (r.1.queue, r.2)) = runQueue f ops [] ∧
      ∀ r, runCache ops { bits := 0, fill := 0, flow := f } = some r → r.1.wf ∧ r.1.flow = f

/-- 41_bit_cache.md R461: the extraction laws. -/
def Obligations.ExtractionLaws : Prop :=
  ∀ W ∈ [8, 16, 32, 64], ∀ N ≤ W,
    extractHigh W 0 N = .ok 0 ∧ extractLow W 0 N = .ok 0 ∧
      extractHigh W (BitVec.allOnes W) N = .ok (BitVec.ofNat W (2 ^ W - 2 ^ (W - N))) ∧
      extractLow W (BitVec.allOnes W) N = .ok (BitVec.ofNat W (2 ^ N - 1)) ∧
      ∀ x : BitVec W, extractHigh W x W = .ok x ∧ extractLow W x W = .ok x ∧ extractHigh W x 0 = .ok 0 ∧
        extractLow W x 0 = .ok 0

/-- 41_bit_cache.md R462: Peek by extraction of the whole cache register, right-aligned in both flows. -/
def Obligations.PeekIsExtraction : Prop :=
  ∀ (c : BitCache) (n : Nat), 1 ≤ n → n ≤ 32 → n ≤ c.fill → ∃ v : Word, c.peek n = .ok v ∧
    match c.flow with
    | .msbFirst => ∃ y, extractHigh 64 c.bits n = .ok y ∧ v.setWidth 64 = y >>> (64 - n)
    | .lsbFirst => extractLow 64 c.bits n = .ok (v.setWidth 64)

/-! ## The stream engine -/

/-- 20_memory.md R211, R213: the value of a chunk, the bytes it splits into, and that the one is the inverse of the
other. -/
def Obligations.ChunkSplitInverse : Prop :=
  (∀ b₀ b₁ b₂ b₃ : Byte,
    (∀ e, (chunkValue e [b₀]).toNat = b₀.toNat) ∧
    (chunkValue .little [b₀, b₁]).toNat = b₀.toNat + 2 ^ 8 * b₁.toNat ∧
    (chunkValue .big [b₀, b₁]).toNat = 2 ^ 8 * b₀.toNat + b₁.toNat ∧
    (chunkValue .little [b₀, b₁, b₂, b₃]).toNat =
      b₀.toNat + 2 ^ 8 * b₁.toNat + 2 ^ 16 * b₂.toNat + 2 ^ 24 * b₃.toNat ∧
    (chunkValue .big [b₀, b₁, b₂, b₃]).toNat =
      2 ^ 24 * b₀.toNat + 2 ^ 16 * b₁.toNat + 2 ^ 8 * b₂.toNat + b₃.toNat) ∧
  ∀ (e : Config.Endian) (k : Nat), k ∈ [1, 2, 4] →
    (∀ v : Word, v.toNat < 2 ^ (8 * k) → (splitChunk e v k).length = k ∧ chunkValue e (splitChunk e v k) = v.setWidth 64) ∧
      ∀ bs : List Byte, bs.length = k → splitChunk e ((chunkValue e bs).setWidth 32) k = bs

/-- 42_stream_engine.md R531; 44_jpeg_stuffing.md R720: the bytes of a drained word, for every order and every chunk
width. -/
def Obligations.DrainedWordBytes : Prop :=
  ∀ (p : Config.Params) (o : BitOrder) (w : Word), storeWordBytes p o w = wireBytes o (tableWordBytes o w)

/-- 42_stream_engine.md R500, R502; 20_memory.md R233: DSTART opens a decode session, or faults CFG_RANGE where the source
window passes the end of MEM. -/
def Obligations.DstartOpensDecodeSession : Prop :=
  ∀ (o : BitOrder) (s : State), s.faulted = false → s.mode = .idle →
    exec (.dstart o) s = .next
      (if s.cfg.srcLen.toNat ≠ 0 ∧ 2 ^ 32 < s.cfg.srcBase.toNat + s.cfg.srcLen.toNat then
        faultedBy s (.dstart o) .cfgRange 1
       else { s with
         cache := { bits := 0, fill := 0, flow := if o = .lsb then .lsbFirst else .msbFirst }
         order := o, mode := .dec, srcPos := 0, ioerr := false })

/-- 42_stream_engine.md R501, R502; 20_memory.md R233: ESTART opens an encode session, or faults CFG_RANGE where the sink
window passes the end of MEM. -/
def Obligations.EstartOpensEncodeSession : Prop :=
  ∀ (o : BitOrder) (s : State), s.faulted = false → s.mode = .idle →
    exec (.estart o) s = .next
      (if s.cfg.snkCap.toNat ≠ 0 ∧ 2 ^ 32 < s.cfg.snkBase.toNat + s.cfg.snkCap.toNat then
        faultedBy s (.estart o) .cfgRange 2
       else { s with
         cache := { bits := 0, fill := 0, flow := if o = .lsb then .lsbFirst else .msbFirst }
         order := o, mode := .enc, snkPos := 0, ioerr := false })

/-- 42_stream_engine.md R510, R511, R520, R521; 44_jpeg_stuffing.md R710, R713: GETBITS n loads just the chunks it needs and
returns the next n bits of the stream. `data` is the data bytes of those chunks; in the window they stand as they are, or
stuffed in a JPEG session. -/
def Obligations.GetbitsReadsStream : Prop :=
  ∀ (n : Nat) (s : State) (data : List Byte),
    let q := policy Config.rsbc s.order
    let m := chunksNeeded q.chunk n s.cache.fill
    let wire := wireBytes s.order data
    let bits := s.cache.queue ++ streamBits q m data
    s.Inv → s.faulted = false → s.mode = .dec → 1 ≤ n → n ≤ 32 → data.length = q.chunk * m →
    s.srcPos.toNat + wire.length ≤ s.cfg.srcLen.toNat → HoldsAt s.mem (s.cfg.srcBase.toNat + s.srcPos.toNat) wire →
    ∃ (v : DWord) (c : BitCache),
      exec (.getbits n) s = .next { s with
        result := v, cache := c, srcPos := BitVec.ofNat 32 (s.srcPos.toNat + wire.length), ioerr := false } ∧
      valueBits s.cache.flow v n = bits.take n ∧ v.toNat < 2 ^ n ∧ c.wf ∧ c.flow = s.cache.flow ∧ c.queue = bits.drop n ∧
      c.fill = s.cache.fill + 8 * q.chunk * m - n

/-- 42_stream_engine.md R511, R521; 60_exceptions.md R902, R930: the count faults of GETBITS come before any read, and a
chunk that does not fit the rest of the window is END_OF_INPUT at the window's end, for every order but JPEG. -/
def Obligations.GetbitsFaults : Prop :=
  ∀ (n : Nat) (s : State), s.faulted = false → s.mode = .dec →
    (n = 0 → exec (.getbits n) s = .next (faultedBy s (.getbits n) .peekZero s.cache.fill)) ∧
    (64 < n → exec (.getbits n) s = .next (faultedBy s (.getbits n) .peekOverCapacity s.cache.fill)) ∧
    (32 < n → n ≤ 64 → exec (.getbits n) s = .next (faultedBy s (.getbits n) .peekOverMax s.cache.fill)) ∧
    (1 ≤ n → n ≤ 32 → s.Inv → s.order ≠ .jpeg →
      let k := (policy Config.rsbc s.order).chunk
      s.cfg.srcLen.toNat < s.srcPos.toNat + k * chunksNeeded k n s.cache.fill →
      exec (.getbits n) s = .next (faultedBy s (.getbits n) .endOfInput s.cfg.srcLen.toNat))

/-- 44_jpeg_stuffing.md R710, R711: in a JPEG session, after the data bytes that can be read, the window ends, or a sentinel
is the window's last byte, or a sentinel is followed by another byte than the escape. -/
def Obligations.JpegReadFaults : Prop :=
  ∀ (n : Nat) (s : State) (data : List Byte),
    s.Inv → s.faulted = false → s.mode = .dec → s.order = .jpeg → 1 ≤ n → n ≤ 32 →
    data.length < 4 * chunksNeeded 4 n s.cache.fill →
    HoldsAt s.mem (s.cfg.srcBase.toNat + s.srcPos.toNat) (stuff data) →
    let pos := s.srcPos.toNat + (stuff data).length
    (pos = s.cfg.srcLen.toNat → exec (.getbits n) s = .next (faultedBy s (.getbits n) .endOfInput pos)) ∧
      (pos + 1 = s.cfg.srcLen.toNat → Memory.read s.mem (s.cfg.srcBase.toNat + pos) = 0xFF →
        exec (.getbits n) s = .next (faultedBy s (.getbits n) .endOfInput (pos + 1))) ∧
      (pos + 1 < s.cfg.srcLen.toNat → Memory.read s.mem (s.cfg.srcBase.toNat + pos) = 0xFF →
        Memory.read s.mem (s.cfg.srcBase.toNat + pos + 1) ≠ 0x00 →
        exec (.getbits n) s = .next (faultedBy s (.getbits n) .jpegBadEscape (pos + 1)))

/-- 42_stream_engine.md R530, R532, R533, R535; 60_exceptions.md R921: PUT n appends the n low bits of DATA; a full word
goes to the sink where its bytes fit; where they do not, the command ends with an I/O error and nothing else; n > 32 is
PUT_OVER_MAX. -/
def Obligations.PutAppendsAndDrains : Prop :=
  ∀ (n : Nat) (s : State), s.Inv → s.faulted = false → s.mode = .enc →
    let f := s.cache.flow
    let bits := s.cache.queue ++ valueBits f s.data n
    let a := s.cfg.snkBase.toNat + s.snkPos.toNat
    (32 < n → exec (.put n) s = .next (faultedBy s (.put n) .putOverMax s.cache.fill)) ∧
    (n ≤ 32 → s.cache.fill + n < 32 → ∃ c : BitCache,
      exec (.put n) s = .next { s with cache := c, ioerr := false } ∧ c.wf ∧ c.flow = f ∧ c.queue = bits) ∧
    (n ≤ 32 → 32 ≤ s.cache.fill + n → ∃ w : Word, valueBits f (w.setWidth 64) 32 = bits.take 32 ∧
      let bytes := wireBytes s.order (tableWordBytes s.order w)
      (s.snkPos.toNat + bytes.length ≤ s.cfg.snkCap.toNat → ∃ (c : BitCache) (m : Memory),
        exec (.put n) s = .next { s with
          cache := c, snkPos := BitVec.ofNat 32 (s.snkPos.toNat + bytes.length), mem := m, ioerr := false } ∧
        c.wf ∧ c.flow = f ∧ c.queue = bits.drop 32 ∧ Memory.wf m ∧ HoldsAt m a bytes ∧
        ∀ b, ¬ (a ≤ b ∧ b < a + bytes.length) → Memory.read m b = Memory.read s.mem b) ∧
      (s.cfg.snkCap.toNat < s.snkPos.toNat + bytes.length → exec (.put n) s = .next { s with ioerr := true }))

/-- 42_stream_engine.md R532, R540; 60_exceptions.md R921: FLUSH of an empty session writes nothing; of another it pads with
zero bits to one word and writes it where its bytes fit; where they do not, the command ends with an I/O error and nothing
else. -/
def Obligations.FlushPadsAndDrains : Prop :=
  ∀ s : State, s.Inv → s.faulted = false → s.mode = .enc →
    let a := s.cfg.snkBase.toNat + s.snkPos.toNat
    (s.cache.fill = 0 → exec .flush s = .next { s with ioerr := false }) ∧
    (s.cache.fill ≠ 0 → ∃ w : Word,
      valueBits s.cache.flow (w.setWidth 64) 32 = s.cache.queue ++ List.replicate (32 - s.cache.fill) false ∧
      let bytes := wireBytes s.order (tableWordBytes s.order w)
      (s.snkPos.toNat + bytes.length ≤ s.cfg.snkCap.toNat → ∃ m : Memory,
        exec .flush s = .next { s with
          cache := { bits := 0, fill := 0, flow := s.cache.flow }
          snkPos := BitVec.ofNat 32 (s.snkPos.toNat + bytes.length), mem := m, ioerr := false } ∧
        Memory.wf m ∧ HoldsAt m a bytes ∧
        ∀ b, ¬ (a ≤ b ∧ b < a + bytes.length) → Memory.read m b = Memory.read s.mem b) ∧
      (s.cfg.snkCap.toNat < s.snkPos.toNat + bytes.length → exec .flush s = .next { s with ioerr := true }))

/-- 45_control.md R801; 42_stream_engine.md R522, R541: END closes a session, and faults UNFLUSHED_CLOSE on an encode session
that holds bits. -/
def Obligations.EndClosesSession : Prop :=
  ∀ s : State, s.faulted = false →
    exec .endSession s = .next
      (if s.mode = .idle then { s with ioerr := false }
       else if s.mode = .enc ∧ s.cache.fill ≠ 0 then faultedBy s .endSession .unflushedClose s.cache.fill
       else { s with
         cache := { bits := 0, fill := 0, flow := .lsbFirst }, mode := .idle, order := .lsb, ioerr := false })

/-- 60_exceptions.md R922: after an I/O error in an encode session the same command fails again, SNK_CAP cannot be written,
and only END with F = 0 closes the session; END with F != 0 faults, and RESET leaves. -/
def Obligations.IoErrorPersists : Prop :=
  ∀ (i : Instr) (s t : State), s.Inv → s.faulted = false → s.mode = .enc → (i = .flush ∨ ∃ n, i = .put n) →
    exec i s = .next t → t.faulted = false → t.ioerr = true →
    exec i t = .next t ∧ (∀ v, exec (.regwr 0x0D v) t = .next t) ∧
      (t.cache.fill ≠ 0 → exec .endSession t = .next (faultedBy t .endSession .unflushedClose t.cache.fill)) ∧
      (t.cache.fill = 0 → ∃ u, exec .endSession t = .next u ∧ u.faulted = false ∧ u.mode = .idle) ∧
      (∃ u, exec .reset t = .next u ∧ u.faulted = false ∧ u.mode = .idle) ∧
      ∀ j u, isCommand j = true → exec j t = .next u → u.mode ≠ .enc → j = .endSession ∧ t.cache.fill = 0

/-- 42_stream_engine.md R512: for LSB, MSB and JPEG the bits of a chunk are its bytes' bits in flow order, and the chunk
width changes no value that GetBits returns. -/
def Obligations.ChunkWidthKeepsValues : Prop :=
  ∀ (p q : Config.Params) (o : BitOrder), o = .lsb ∨ o = .msb ∨ o = .jpeg →
    (∀ bs : List Byte, bs.length = (policy p o).chunk →
      chunkBits (policy p o) bs = bs.flatMap (byteBits (policy p o).flow)) ∧
    ∀ (m : Memory) (w : Window) (ns : List Nat) (vs vs' : List Word), w.inRange p = true → w.inRange q = true →
      readAll p o m w ns ⟨{ bits := 0, fill := 0, flow := (policy p o).flow }, 0⟩ = .ok vs →
      readAll q o m w ns ⟨{ bits := 0, fill := 0, flow := (policy q o).flow }, 0⟩ = .ok vs' → vs = vs'

/-- 42_stream_engine.md R542, R543; 44_jpeg_stuffing.md R730: whatever values an encode session puts and flushes without an
I/O error, its output holds 4*ceil(B/32) data bytes, and a decode session of the same order over it returns the values. -/
def Obligations.StreamRoundTrip : Prop :=
  ∀ (o : BitOrder) (vs : List (DWord × Nat)) (s t : State), s.Inv → s.faulted = false → s.mode = .idle →
    (∀ v ∈ vs, 1 ≤ v.2 ∧ v.2 ≤ 32) →
    runClean (.estart o :: (putProgram vs ++ [.flush, .endSession])) s = some t →
    ∃ data : List Byte,
      data.length = 4 * (((vs.map Prod.snd).sum + 31) / 32) ∧ t.snkPos.toNat = (wireBytes o data).length ∧
      HoldsAt t.mem s.cfg.snkBase.toNat (wireBytes o data) ∧
      ∃ u,
        runClean [.regwr 0x08 (t.cfg.snkBase.setWidth 64), .regwr 0x09 (t.snkPos.setWidth 64), .dstart o] t = some u ∧
        readBack (vs.map Prod.snd) u = some (vs.map fun v => BitVec.ofNat 64 (v.1.toNat % 2 ^ v.2))

/-! ## The packed-pixel codec -/

/-- 43_packed_codec.md R604; 60_exceptions.md R912-R915: the first configuration check that fails refuses UNPACK and PACK,
with its cause and sub-code, before anything else is done. -/
def Obligations.CodecChecksRefuse : Prop :=
  ∀ (o : BitOrder) (ety : ElemType) (cnt : Nat) (s : State) (c : Cause) (sub : Nat), s.faulted = false → s.mode = .idle →
    (codecRefusal false o (elemSize ety) cnt s.cfg = some (c, sub) →
      exec (.unpack o ety cnt) s = .next (faultedBy s (.unpack o ety cnt) c sub)) ∧
    (codecRefusal true o (elemSize ety) cnt s.cfg = some (c, sub) →
      exec (.pack o ety cnt) s = .next (faultedBy s (.pack o ety cnt) c sub))

/-- 43_packed_codec.md R601, R602, R610, R611, R612: UNPACK with a legal configuration whose packed rows are long enough
completes; element (r, c) holds the w stream bits at c*w of packed row r, and every byte outside the pixel rectangle and
every register keeps its value. -/
def Obligations.UnpackFillsPixels : Prop :=
  ∀ (o : BitOrder) (ety : ElemType) (cnt : Nat) (s : State),
    let es := elemSize ety
    let w := if cnt = 0 then 8 * es else cnt
    let q := policy Config.rsbc o
    let cols := s.cfg.dimCols.toNat
    s.Inv → s.faulted = false → s.mode = .idle → codecRefusal false o es cnt s.cfg = none →
    (0 < s.cfg.dimRows.toNat → q.chunk * rowChunks q.chunk cols w ≤ s.cfg.pkLen.toNat) →
    ∃ m : Memory, exec (.unpack o ety cnt) s = .next { s with mem := m, ioerr := false } ∧ Memory.wf m ∧
      (∀ r < s.cfg.dimRows.toNat, ∀ c < cols,
        elementAt m s.cfg es r c < 2 ^ w ∧
        valueBits q.flow (BitVec.ofNat 64 (elementAt m s.cfg es r c)) w =
          ((unpackedRowBits s.mem s.cfg q w r).drop (c * w)).take w) ∧
      ∀ a, OutsideRectangle s.cfg es a → Memory.read m a = Memory.read s.mem a

/-- 43_packed_codec.md R611, R620; 60_exceptions.md R902: UNPACK whose packed rows are too short faults END_OF_INPUT in row 0
at the first pixel whose bits the whole chunks do not hold, with FAULT_INFO the row's end; outside the pixel rectangle MEM
is unchanged. What the rectangle holds is free (log 4). -/
def Obligations.UnpackShortRowFaults : Prop :=
  ∀ (o : BitOrder) (ety : ElemType) (cnt : Nat) (s : State),
    let es := elemSize ety
    let w := if cnt = 0 then 8 * es else cnt
    let k := (policy Config.rsbc o).chunk
    s.Inv → s.faulted = false → s.mode = .idle → codecRefusal false o es cnt s.cfg = none →
    0 < s.cfg.dimRows.toNat → s.cfg.pkLen.toNat < k * rowChunks k s.cfg.dimCols.toNat w →
    ∃ (m : Memory) (d : Nat),
      exec (.unpack o ety cnt) s = .next { s with
        faulted := true, cause := .endOfInput, faultCmd := (encode (.unpack o ety cnt)).word, faultInfo := s.cfg.pkLen
        faultRow := 0, faultCol := BitVec.ofNat 32 (8 * k * (s.cfg.pkLen.toNat / k) / w), mem := m, draws := d } ∧
      ∀ a, OutsideRectangle s.cfg es a → Memory.read m a = Memory.read s.mem a

/-- 43_packed_codec.md R640, R641, R643: PACK with a legal configuration whose output fits the sink completes; the sink
holds each row's words followed by its padding, SNK_POS counts them, and every byte outside them and every other register
keeps its value. -/
def Obligations.PackFillsSink : Prop :=
  ∀ (o : BitOrder) (ety : ElemType) (w : Nat) (s : State),
    let es := elemSize ety
    let g := s.cfg
    let total := rowOffset s.mem g w g.dimRows.toNat
    let words := rowWords g.dimCols.toNat w
    s.Inv → s.faulted = false → s.mode = .idle → codecRefusal true o es w g = none → total ≤ g.snkCap.toNat →
    ∃ m : Memory,
      exec (.pack o ety w) s = .next { s with mem := m, snkPos := BitVec.ofNat 32 total, ioerr := false } ∧ Memory.wf m ∧
      (∀ r < g.dimRows.toNat,
        HoldsWords o m (g.snkBase.toNat + rowOffset s.mem g w r)
          (paddedRowBits s.mem g (policy Config.rsbc o).flow es w r) ∧
        HoldsAt m (g.snkBase.toNat + rowOffset s.mem g w r + 4 * words) (List.replicate (padAt s.mem g r) 0x00)) ∧
      ∀ a, ¬ (g.snkBase.toNat ≤ a ∧ a < g.snkBase.toNat + total) → Memory.read m a = Memory.read s.mem a

/-- 43_packed_codec.md R642: PACK whose output does not fit the sink stops with an I/O error at the first word or padding
that does not fit; everything before it stays in the sink, SNK_POS counts it, and nothing else is written. -/
def Obligations.PackStopsAtFullSink : Prop :=
  ∀ (o : BitOrder) (ety : ElemType) (w : Nat) (s : State),
    let es := elemSize ety
    let g := s.cfg
    let words := rowWords g.dimCols.toNat w
    let row := fun r => paddedRowBits s.mem g (policy Config.rsbc o).flow es w r
    s.Inv → s.faulted = false → s.mode = .idle → codecRefusal true o es w g = none →
    g.snkCap.toNat < rowOffset s.mem g w g.dimRows.toNat →
    ∃ (m : Memory) (r j : Nat),
      let n := rowOffset s.mem g w r + 4 * j
      exec (.pack o ety w) s = .next { s with mem := m, snkPos := BitVec.ofNat 32 n, ioerr := true } ∧
      r < g.dimRows.toNat ∧ n ≤ g.snkCap.toNat ∧
      (j < words ∧ g.snkCap.toNat < n + 4 ∨ j = words ∧ g.snkCap.toNat < n + padAt s.mem g r) ∧
      (∀ r' < r,
        HoldsWords o m (g.snkBase.toNat + rowOffset s.mem g w r') (row r') ∧
        HoldsAt m (g.snkBase.toNat + rowOffset s.mem g w r' + 4 * words) (List.replicate (padAt s.mem g r') 0x00)) ∧
      HoldsWords o m (g.snkBase.toNat + rowOffset s.mem g w r) ((row r).take (32 * j)) ∧
      ∀ a, ¬ (g.snkBase.toNat ≤ a ∧ a < g.snkBase.toNat + n) → Memory.read m a = Memory.read s.mem a

/-- 20_memory.md R221, R213: an element written is read back, in either pixel byte order and at any address, and no byte
outside it changes. -/
def Obligations.PixelReadAfterWrite : Prop :=
  ∀ (p : Config.Params) (g : CfgRegs) (ety : ElemType) (m : Memory) (r c : Nat) (v : Word),
    let a := g.pixBase.toNat + elemSize ety * (r * g.pixPitch.toNat + c)
    Memory.wf m → v.toNat < 2 ^ (8 * elemSize ety) → a + elemSize ety ≤ p.memSize →
    ∃ m', pixWrite p g ety m r c v = .ok m' ∧ pixRead p g ety m' r c = .ok (v.setWidth 64) ∧
      (∀ b, ¬ (a ≤ b ∧ b < a + elemSize ety) → Memory.read m' b = Memory.read m b) ∧
      Memory.read m' a = match p.pixEndian with
        | .little => v.setWidth 8
        | .big => (v >>> (8 * (elemSize ety - 1))).setWidth 8

/-- 43_packed_codec.md R650: PACK with a constant padding, then UNPACK from its sink into a view that does not overlap it,
gives the pixel matrix back. -/
def Obligations.PackUnpackRoundTrip : Prop :=
  ∀ (o : BitOrder) (ety : ElemType) (w : Nat) (s : State) (g' : CfgRegs),
    let es := elemSize ety
    let g := s.cfg
    let rowBytes := 4 * rowWords g.dimCols.toNat w + g.padConst.toNat
    s.Inv → s.faulted = false → s.mode = .idle → g.padMode = 0 → codecRefusal true o es w g = none →
    rowOffset s.mem g w g.dimRows.toNat ≤ g.snkCap.toNat →
    (∀ r < g.dimRows.toNat, ∀ c < g.dimCols.toNat, elementAt s.mem g es r c < 2 ^ w) →
    g'.srcBase = g.snkBase → g'.pkLen.toNat = rowBytes → g'.pkPitch.toNat = rowBytes → g'.dimRows = g.dimRows →
    g'.dimCols = g.dimCols → codecRefusal false o es w g' = none →
    ∃ t u : State, exec (.pack o ety w) s = .next t ∧ exec (.unpack o ety w) { t with cfg := g' } = .next u ∧
      t.ioerr = false ∧ t.faulted = false ∧ u.ioerr = false ∧ u.faulted = false ∧
      ∀ r < g.dimRows.toNat, ∀ c < g.dimCols.toNat, elementAt u.mem g' es r c = elementAt s.mem g es r c
end

