-- ==== Sys2Proof/Laws/Cache.lean ====
section
/-! SUPPORT. The bit cache as a queue of bits: what Push, Peek and Skip do to it (41_bit_cache.md R405-R408), and when they
raise. -/

namespace Sys2Proof.Machine

@[simp] theorem valueBits_length (f : Flow) (v : DWord) (n : Nat) : (valueBits f v n).length = n := by
  cases f <;> simp [valueBits]

@[simp] theorem BitCache.queue_length (c : BitCache) : c.queue.length = c.fill := by
  unfold BitCache.queue
  cases c.flow <;> simp

@[simp] theorem BitCache.empty_queue (f : Flow) : (BitCache.empty f).queue = [] := by
  cases f <;> rfl

@[simp] theorem BitCache.empty_fill (f : Flow) : (BitCache.empty f).fill = 0 := rfl

@[simp] theorem BitCache.empty_flow (f : Flow) : (BitCache.empty f).flow = f := rfl

theorem BitCache.wf_empty (f : Flow) : (BitCache.empty f).wf := by
  refine ⟨by simp, fun i _ _ => ?_⟩
  simp [BitCache.empty]

theorem lowBits_getLsbD (v : DWord) (n i : Nat) :
    (lowBits v n).getLsbD i = (decide (i < n) && v.getLsbD i) := by
  simp only [lowBits, BitVec.getLsbD_setWidth]
  by_cases h : i < 64
  · simp [h]
  · simp [h, BitVec.getLsbD_of_ge v i (by omega)]

theorem valueBits_getElem (f : Flow) (v : DWord) (n i : Nat) (h : i < (valueBits f v n).length) :
    (valueBits f v n)[i] = match (generalizing := false) f with
      | .lsbFirst => v.getLsbD i
      | .msbFirst => v.getLsbD (n - 1 - i) := by
  cases f <;> simp [valueBits]

theorem BitCache.queue_getElem (c : BitCache) (i : Nat) (h : i < c.queue.length) :
    c.queue[i] = match (generalizing := false) c.flow with
      | .lsbFirst => c.bits.getLsbD i
      | .msbFirst => c.bits.getLsbD (63 - i) := by
  obtain ⟨b, n, f⟩ := c
  cases f <;> simp [BitCache.queue]

/-- A bit outside the valid region is 0 (10_state.md R121), at every index. -/
theorem BitCache.wf_bit {c : BitCache} (h : c.wf) {i : Nat} (hi : c.validBit i = false) : c.bits.getLsbD i = false := by
  by_cases h' : i < 64
  · exact h.2 i h' hi
  · exact BitVec.getLsbD_of_ge _ _ (by omega)

/-- The flow, the fill level and the queue determine the cache (10_state.md R121). -/
theorem BitCache.eq_of_queue {c d : BitCache} (hc : c.wf) (hd : d.wf) (hf : c.flow = d.flow) (hq : c.queue = d.queue) :
    c = d := by
  have hl : c.fill = d.fill := by simpa using congrArg List.length hq
  have hb : c.bits = d.bits := by
    apply BitVec.eq_of_getLsbD_eq
    intro i hi
    by_cases hv : c.validBit i = true
    · have hv' := hv
      unfold BitCache.validBit at hv'
      cases hfl : c.flow <;> simp only [hfl, decide_eq_true_eq] at hv'
      · have a := c.queue_getElem i (by simpa using hv')
        have b := d.queue_getElem i (by simpa [← hl] using hv')
        simp only [hfl, ← hf] at a b
        rw [← a, ← b]
        simp only [hq]
      · have a := c.queue_getElem (63 - i) (by simp; omega)
        have b := d.queue_getElem (63 - i) (by simp [← hl]; omega)
        simp only [hfl, ← hf, show 63 - (63 - i) = i by omega] at a b
        rw [← a, ← b]
        simp only [hq]
    · have hv := Bool.eq_false_iff.2 hv
      have hv' : d.validBit i = false := by
        unfold BitCache.validBit at hv ⊢
        rw [← hf, ← hl]
        exact hv
      rw [BitCache.wf_bit hc hv, BitCache.wf_bit hd hv']
  cases c; cases d
  simp_all

/-! ## Push -/

/-- Push raises exactly when the bits do not fit (41_bit_cache.md R405). -/
theorem BitCache.push_error {c : BitCache} {v : DWord} {n : Nat} {e : Raise} :
    c.push v n = .error e ↔ 64 < n + c.fill ∧ e = raiseFault .pushOverflow c.fill := by
  unfold BitCache.push
  split <;> simp_all [eq_comm]

/-- Push appends the n low bits of the value to the queue (41_bit_cache.md R405, R408). -/
theorem BitCache.push_ok {c d : BitCache} {v : DWord} {n : Nat} (hc : c.wf) (h : c.push v n = .ok d) :
    n + c.fill ≤ 64 ∧ d.wf ∧ d.flow = c.flow ∧ d.fill = c.fill + n ∧ d.queue = c.queue ++ valueBits c.flow v n := by
  unfold BitCache.push at h
  split at h
  · cases h
  rename_i hn
  cases h
  have hn : n + c.fill ≤ 64 := by omega
  refine ⟨hn, ⟨by simp only; omega, fun i hi hv => ?_⟩, rfl, rfl, ?_⟩
  · cases hf : c.flow <;> simp only [BitCache.validBit, hf, decide_eq_false_iff_not] at hv ⊢
    · have := BitCache.wf_bit hc (i := i) (by simp [BitCache.validBit, hf]; omega)
      simp only [BitVec.getLsbD_or, BitVec.getLsbD_shiftLeft, lowBits_getLsbD, this]
      have : ¬ i - c.fill < n := by omega
      simp [this]
    · have := BitCache.wf_bit hc (i := i) (by simp [BitCache.validBit, hf]; omega)
      simp only [BitVec.getLsbD_or, BitVec.getLsbD_shiftLeft, lowBits_getLsbD, this]
      have : i < 64 - c.fill - n := by omega
      simp [this]
  · apply List.ext_getElem
    · simp
    intro i h₁ h₂
    rw [BitCache.queue_length] at h₁
    simp only at h₁
    rw [BitCache.queue_getElem]
    by_cases hi : i < c.fill
    · rw [List.getElem_append_left (by simpa using hi), BitCache.queue_getElem]
      cases hf : c.flow <;>
        simp only [BitVec.getLsbD_or, BitVec.getLsbD_shiftLeft, lowBits_getLsbD]
      · simp [hi]
      · have : ¬ 63 - i < 64 - c.fill - n := by omega
        have : ¬ 63 - i - (64 - c.fill - n) < n := by omega
        simp [this]
    · rw [List.getElem_append_right (by simpa using hi), valueBits_getElem]
      cases hf : c.flow <;>
        simp only [BitVec.getLsbD_or, BitVec.getLsbD_shiftLeft, lowBits_getLsbD, BitCache.queue_length]
      · rw [BitCache.wf_bit hc (i := i) (by simp [BitCache.validBit, hf]; omega)]
        have h1 : i < 64 := by omega
        have h2 : i - c.fill < n := by omega
        simp [h1, h2, hi]
      · rw [BitCache.wf_bit hc (i := 63 - i) (by simp [BitCache.validBit, hf]; omega)]
        have h1 : 63 - i < 64 := by omega
        have h2 : ¬ 63 - i < 64 - c.fill - n := by omega
        have h3 : 63 - i - (64 - c.fill - n) = n - 1 - (i - c.fill) := by omega
        have h4 : n - 1 - (i - c.fill) < n := by omega
        simp [h1, h2, h3, h4]

/-- Push completes whenever the bits fit (41_bit_cache.md R405). -/
theorem BitCache.push_fits {c : BitCache} (v : DWord) {n : Nat} (h : n + c.fill ≤ 64) : ∃ d, c.push v n = .ok d := by
  unfold BitCache.push
  rw [if_neg (by omega)]
  exact ⟨_, rfl⟩

/-! ## Peek -/

/-- The count checks pass exactly for counts of 1 to 32 (41_bit_cache.md R406). -/
theorem countFault_none {n fill : Nat} : countFault n fill = none ↔ 1 ≤ n ∧ n ≤ 32 := by
  unfold countFault
  split
  · simp; omega
  · split
    · simp; omega
    · split
      · simp; omega
      · simp; omega

/-- Every raise of the count checks is a fault with FAULT_INFO = F (60_exceptions.md R902). -/
theorem countFault_some {n fill : Nat} {e : Raise} (h : countFault n fill = some e) :
    ∃ c, e = raiseFault c fill ∧ c ≠ .noFault ∧ c ≠ .badMode ∧ c ≠ .illegalCommand := by
  unfold countFault at h
  split at h
  · cases h; exact ⟨_, rfl, by simp⟩
  · split at h
    · cases h; exact ⟨_, rfl, by simp⟩
    · split at h
      · cases h; exact ⟨_, rfl, by simp⟩
      · cases h

/-- The n oldest bits, right-aligned (41_bit_cache.md R406). -/
theorem BitCache.oldest_bits {c : BitCache} {n : Nat} (hn : n ≤ 32) (hf : n ≤ c.fill) :
    valueBits c.flow ((c.oldest n).setWidth 64) n = c.queue.take n ∧ (c.oldest n).toNat < 2 ^ n := by
  have key : ∀ i, (c.oldest n).getLsbD i = (decide (i < n) && match c.flow with
      | .lsbFirst => c.bits.getLsbD i
      | .msbFirst => c.bits.getLsbD (64 - n + i)) := by
    intro i
    unfold BitCache.oldest
    cases c.flow <;>
      simp only [BitVec.getLsbD_setWidth, lowBits_getLsbD, BitVec.getLsbD_ushiftRight]
    · by_cases h : i < n
      · have : i < 32 := by omega
        simp [h, this]
      · simp [h]
    · by_cases h : i < n
      · have : i < 32 := by omega
        simp [h, this]
      · simp [h, BitVec.getLsbD_of_ge c.bits (64 - n + i) (by omega)]
  constructor
  · apply List.ext_getElem
    · simp; omega
    intro i h₁ h₂
    simp only [valueBits_length] at h₁
    rw [valueBits_getElem, List.getElem_take, BitCache.queue_getElem]
    cases hfl : c.flow <;> simp only [BitVec.getLsbD_setWidth, key, hfl]
    · have : i < 64 := by omega
      simp [h₁, this]
    · have h1 : n - 1 - i < 64 := by omega
      have h2 : n - 1 - i < n := by omega
      have h3 : 64 - n + (n - 1 - i) = 63 - i := by omega
      simp [h1, h2, h3]
  · apply Nat.lt_pow_two_of_testBit
    intro i hi
    rw [BitVec.testBit_toNat, key]
    simp; omega

/-- Peek returns the n oldest bits (41_bit_cache.md R406, R408). -/
theorem BitCache.peek_ok {c : BitCache} {n : Nat} {v : Word} (h : c.peek n = .ok v) :
    1 ≤ n ∧ n ≤ 32 ∧ n ≤ c.fill ∧ v = c.oldest n ∧ valueBits c.flow (v.setWidth 64) n = c.queue.take n ∧ v.toNat < 2 ^ n := by
  unfold BitCache.peek at h
  split at h
  · cases h
  rename_i hn
  split at h
  · cases h
  cases h
  obtain ⟨h1, h2⟩ := countFault_none.1 hn
  have h3 : n ≤ c.fill := by omega
  exact ⟨h1, h2, h3, rfl, BitCache.oldest_bits h2 h3⟩

theorem BitCache.peek_fits {c : BitCache} {n : Nat} (h1 : 1 ≤ n) (h2 : n ≤ 32) (h3 : n ≤ c.fill) :
    c.peek n = .ok (c.oldest n) := by
  unfold BitCache.peek
  rw [countFault_none.2 ⟨h1, h2⟩]
  simp only
  rw [if_neg (by omega)]

/-! ## Skip -/

/-- Skip raises exactly when fewer bits are cached (41_bit_cache.md R407). -/
theorem BitCache.skip_error {c : BitCache} {n : Nat} {e : Raise} :
    c.skip n = .error e ↔ c.fill < n ∧ e = raiseFault .skipOverFill c.fill := by
  unfold BitCache.skip
  split <;> simp_all [eq_comm]

/-- Skip drops the n oldest bits (41_bit_cache.md R407, R408). -/
theorem BitCache.skip_ok {c d : BitCache} {n : Nat} (hc : c.wf) (h : c.skip n = .ok d) :
    n ≤ c.fill ∧ d.wf ∧ d.flow = c.flow ∧ d.fill = c.fill - n ∧ d.queue = c.queue.drop n := by
  unfold BitCache.skip at h
  split at h
  · cases h
  rename_i hn
  cases h
  have hn : n ≤ c.fill := by omega
  have hc64 := hc.1
  refine ⟨hn, ⟨by simp only; omega, fun i hi hv => ?_⟩, rfl, rfl, ?_⟩
  · cases hf : c.flow <;> simp only [BitCache.validBit, hf, decide_eq_false_iff_not] at hv ⊢
    · simp only [BitVec.getLsbD_ushiftRight]
      exact BitCache.wf_bit hc (by simp [BitCache.validBit, hf]; omega)
    · simp only [BitVec.getLsbD_shiftLeft]
      by_cases h' : i < n
      · simp [h']
      · rw [BitCache.wf_bit hc (i := i - n) (by simp [BitCache.validBit, hf]; omega)]
        simp
  · apply List.ext_getElem
    · simp
    intro i h₁ h₂
    rw [BitCache.queue_length] at h₁
    simp only at h₁
    rw [BitCache.queue_getElem, List.getElem_drop, BitCache.queue_getElem]
    cases hf : c.flow <;> simp only [BitVec.getLsbD_ushiftRight, BitVec.getLsbD_shiftLeft]
    have h1 : 63 - i < 64 := by omega
    have h2 : ¬ 63 - i < n := by omega
    have h3 : 63 - i - n = 63 - (n + i) := by omega
    simp [h1, h2, h3]

theorem BitCache.skip_fits {c : BitCache} {n : Nat} (h : n ≤ c.fill) : ∃ d, c.skip n = .ok d := by
  unfold BitCache.skip
  rw [if_neg (by omega)]
  exact ⟨_, rfl⟩

/-! ## Extraction -/

/-- ExtractHigh raises exactly when n > W (41_bit_cache.md R451). -/
theorem extractHigh_error {w n : Nat} {x : BitVec w} {e : Raise} :
    extractHigh w x n = .error e ↔ w < n ∧ e = raiseFault .extractOverWidth w := by
  unfold extractHigh
  split
  · simp_all [eq_comm]
  · split <;> simp_all

/-- ExtractLow raises exactly when n > W (41_bit_cache.md R451). -/
theorem extractLow_error {w n : Nat} {x : BitVec w} {e : Raise} :
    extractLow w x n = .error e ↔ w < n ∧ e = raiseFault .extractOverWidth w := by
  unfold extractLow
  split <;> simp_all [eq_comm]

theorem mask_getLsbD (w n i : Nat) : (mask w n).getLsbD i = (decide (i < w) && decide (i < n)) := by
  simp [mask, BitVec.getLsbD_ofNat, Nat.testBit_two_pow_sub_one]

/-- ExtractHigh keeps bits W-n .. W-1 in place and clears the others (41_bit_cache.md R451). -/
theorem extractHigh_bits {w n : Nat} {x y : BitVec w} (h : extractHigh w x n = .ok y) (i : Nat) :
    y.getLsbD i = (decide (w - n ≤ i) && x.getLsbD i) := by
  unfold extractHigh at h
  split at h
  · cases h
  rename_i hn
  by_cases hi : i < w
  · split at h
    · cases h
      have : ¬ w - n ≤ i := by omega
      simp [this]
    · cases h
      simp only [BitVec.getLsbD_and, BitVec.getLsbD_shiftLeft, mask_getLsbD]
      by_cases h' : w - n ≤ i
      · have h1 : i - (w - n) < w := by omega
        have h2 : i - (w - n) < n := by omega
        have h3 : ¬ i < w - n := by omega
        simp [hi, h', h1, h2, h3]
      · have h3 : i < w - n := by omega
        simp [h', h3]
  · rw [BitVec.getLsbD_of_ge y i (by omega), BitVec.getLsbD_of_ge x i (by omega)]
    simp

/-- ExtractLow keeps bits 0 .. n-1 and clears the others (41_bit_cache.md R451). -/
theorem extractLow_bits {w n : Nat} {x y : BitVec w} (h : extractLow w x n = .ok y) (i : Nat) :
    y.getLsbD i = (decide (i < n) && x.getLsbD i) := by
  unfold extractLow at h
  split at h
  · cases h
  cases h
  simp only [BitVec.getLsbD_and, mask_getLsbD]
  by_cases hi : i < w
  · simp [hi, Bool.and_comm]
  · rw [BitVec.getLsbD_of_ge x i (by omega)]
    simp

end Sys2Proof.Machine
end

