-- ==== Sys2Proof/Laws/Command.lean ====
section
/-! SUPPORT. What a command can do, said once: the gate of FAULTED, the mode check, and the three endings (45_control.md
R813; 60_exceptions.md R904, R906, R921). -/

namespace Sys2Proof.Machine

/-- While FAULTED = 1 a command is not executed (60_exceptions.md R930). -/
theorem runCommand_faulted {i : Instr} {s : State} {body : State → CommandEnd} (h : s.faulted = true) :
    runCommand i s body = .next s := by
  simp [runCommand, h]

theorem runCommand_ready {i : Instr} {s : State} {body : State → CommandEnd} (h : s.faulted = false) :
    runCommand i s body = finishCommand (encode i).word (body s) := by
  simp [runCommand, h]

/-- A command that answers a next state was not executed, or it ended in one of the three ways of R813. -/
theorem runCommand_next {i : Instr} {s t : State} {body : State → CommandEnd} (h : runCommand i s body = .next t) :
    s.faulted = true ∧ t = s ∨
      s.faulted = false ∧
        ((∃ u, body s = .completes u ∧ t = u.setIoerr false) ∨ (∃ u, body s = .ioError u ∧ t = u.setIoerr true) ∨
          ∃ f u, body s = .faults f u ∧ t = u.faultEntry (encode i).word f) := by
  unfold runCommand at h
  split at h
  · cases h
    exact .inl ⟨‹_›, rfl⟩
  · rename_i hf
    refine .inr ⟨by simpa using hf, ?_⟩
    unfold finishCommand at h
    split at h <;> cases h
    · exact .inl ⟨_, ‹_›, rfl⟩
    · exact .inr (.inl ⟨_, ‹_›, rfl⟩)
    · exact .inr (.inr ⟨_, _, ‹_›, rfl⟩)

/-- A command fails to answer a next state only at an address that does not exist. -/
theorem runCommand_fault {i : Instr} {s : State} {r : Fault} {body : State → CommandEnd}
    (h : runCommand i s body = .fault r) : s.faulted = false ∧ body s = .stops r := by
  unfold runCommand at h
  split at h
  · cases h
  · rename_i hf
    unfold finishCommand at h
    split at h <;> cases h
    exact ⟨by simpa using hf, ‹_›⟩

theorem runCommand_refused {i : Instr} {s : State} {r : Refusal} {body : State → CommandEnd} :
    runCommand i s body ≠ .refused r := by
  unfold runCommand finishCommand
  split
  · simp
  · split <;> simp

theorem requireMode_eq {m : Mode} {s : State} {rest : CommandEnd} (h : s.mode = m) : requireMode m s rest = rest := by
  simp [requireMode, h]

theorem requireMode_ne {m : Mode} {s : State} {rest : CommandEnd} (h : s.mode ≠ m) :
    requireMode m s rest = .faults ⟨.badMode, s.mode.code.toNat, 0, 0⟩ s := by
  simp [requireMode, h]

/-- The mode check passes, or BAD_MODE is raised (60_exceptions.md R904). -/
theorem requireMode_cases (m : Mode) (s : State) (rest : CommandEnd) :
    s.mode = m ∧ requireMode m s rest = rest ∨
      s.mode ≠ m ∧ requireMode m s rest = .faults ⟨.badMode, s.mode.code.toNat, 0, 0⟩ s := by
  by_cases h : s.mode = m
  · exact .inl ⟨h, requireMode_eq h⟩
  · exact .inr ⟨h, requireMode_ne h⟩

/-- The endings of pseudocode that raises or gives the final state. -/
theorem CommandEnd.ofExcept_cases (s : State) (r : Except Raise State) :
    (∃ t, r = .ok t ∧ CommandEnd.ofExcept s r = .completes t) ∨
      (∃ f, r = .error (.fault f) ∧ CommandEnd.ofExcept s r = .faults f s) ∨
      (r = .error .ioError ∧ CommandEnd.ofExcept s r = .ioError s) ∨
      ∃ e, r = .error (.stop e) ∧ CommandEnd.ofExcept s r = .stops e := by
  cases r with
  | ok t => exact .inl ⟨t, rfl, rfl⟩
  | error e =>
    cases e with
    | fault f => exact .inr (.inl ⟨f, rfl, rfl⟩)
    | ioError => exact .inr (.inr (.inl ⟨rfl, rfl⟩))
    | stop e => exact .inr (.inr (.inr ⟨e, rfl, rfl⟩))

/-- The fault record of a fault outside UNPACK's row loop. -/
theorem faultEntry_eq_faultedBy (s : State) (i : Instr) (c : Cause) (info : Nat) :
    s.faultEntry (encode i).word ⟨c, info, 0, 0⟩ = faultedBy s i c info := rfl

/-- A command run by Execute is the command of the table (45_control.md R813). -/
theorem runDecoded_eq_exec {i : Instr} (h : isCommand i = true) (s : State) : runDecoded i s = exec i s := by
  cases i <;> first | rfl | cases h

theorem execute_ok {w : Word} {i : Instr} (h : decodeCommand w = .ok i) (s : State) : execute w s = runDecoded i s := by
  simp [execute, h]

theorem execute_error {w : Word} {e : DecodeError} (h : decodeCommand w = .error e) (s : State) :
    execute w s = .next (illegalCommand w s) := by
  simp [execute, h]

/-- Under the idle invariant, closing a session that is not open changes nothing (10_state.md R123). -/
theorem closeSession_idle {s : State} (hm : s.mode = .idle) (h : s.IdleOk) : s.closeSession = s := by
  obtain ⟨hc, ho⟩ := h hm
  cases s
  simp only at hm hc ho
  subst hm hc ho
  rfl

end Sys2Proof.Machine
end

