-- ==== Sys2Proof/Laws/Decode.lean ====
section
/-! SUPPORT. The code tables read backwards, the fields of a command word and of a transaction header, and what decoding a
command word gives (30_encoding.md R301, R310-R317). -/

namespace Sys2Proof

/-! ## Code tables -/

@[simp] theorem Flow.ofCode_code (f : Flow) : Flow.ofCode f.code = f := by cases f <;> rfl

@[simp] theorem BitOrder.ofCode_code (o : BitOrder) : BitOrder.ofCode o.code = some o := by cases o <;> rfl

@[simp] theorem ElemType.ofCode_code (e : ElemType) : ElemType.ofCode e.code = some e := by cases e <;> rfl

@[simp] theorem ExtractWidth.ofCode_code (w : ExtractWidth) : ExtractWidth.ofCode w.code = w := by cases w <;> rfl

@[simp] theorem Opcode.ofCode_code (o : Opcode) : Opcode.ofCode o.code = some o := by cases o <;> rfl

@[simp] theorem Flow.code_ofCode (c : BitVec 1) : (Flow.ofCode c).code = c := by revert c; decide

@[simp] theorem ExtractWidth.code_ofCode (c : BitVec 2) : (ExtractWidth.ofCode c).code = c := by revert c; decide

theorem BitOrder.ofCode_eq_some {c : BitVec 3} {o : BitOrder} : BitOrder.ofCode c = some o ↔ o.code = c := by
  cases o <;> revert c <;> decide

theorem ElemType.ofCode_eq_some {c : BitVec 2} {e : ElemType} : ElemType.ofCode c = some e ↔ e.code = c := by
  cases e <;> revert c <;> decide

/-- ORD 5, 6 and 7 are reserved (30_encoding.md R312). -/
theorem BitOrder.ofCode_eq_none {c : BitVec 3} : BitOrder.ofCode c = none ↔ 4 < c.toNat := by
  revert c; decide

/-- ETY 3 is reserved (30_encoding.md R313). -/
theorem ElemType.ofCode_eq_none {c : BitVec 2} : ElemType.ofCode c = none ↔ c = 3 := by
  revert c; decide

theorem Opcode.ofCode_eq_some {c : BitVec 8} {o : Opcode} : Opcode.ofCode c = some o ↔ o.code = c := by
  constructor
  · intro h
    simpa using List.find?_some h
  · rintro rfl
    simp

theorem Machine.Reg.ofIndex_eq_some {i : BitVec 8} {r : Machine.Reg} : Machine.Reg.ofIndex i = some r ↔ r.index = i := by
  constructor
  · intro h
    simpa using List.find?_some h
  · rintro rfl
    cases r <;> rfl

@[simp] theorem Machine.Reg.ofIndex_index (r : Machine.Reg) : Machine.Reg.ofIndex r.index = some r :=
  Machine.Reg.ofIndex_eq_some.2 rfl

/-! ## Fields of a command word -/

theorem commandWord_opc (o : Opcode) (cnt : Nat) (ord : BitVec 3) (ety : BitVec 2) :
    (commandWord o cnt ord ety).extractLsb' 0 8 = o.code := by
  apply BitVec.eq_of_getLsbD_eq
  intro i hi
  simp only [commandWord, BitVec.getLsbD_extractLsb', BitVec.getLsbD_append]
  simp [hi]

theorem commandWord_cnt (o : Opcode) {cnt : Nat} (h : cnt < 128) (ord : BitVec 3) (ety : BitVec 2) :
    cntField (commandWord o cnt ord ety) = cnt := by
  have : (commandWord o cnt ord ety).extractLsb' 8 7 = BitVec.ofNat 7 cnt := by
    apply BitVec.eq_of_getLsbD_eq
    intro i hi
    simp only [commandWord, BitVec.getLsbD_extractLsb', BitVec.getLsbD_append]
    simp [hi]
  rw [cntField, this, BitVec.toNat_ofNat, Nat.mod_eq_of_lt h]

theorem commandWord_ord (o : Opcode) (cnt : Nat) (ord : BitVec 3) (ety : BitVec 2) :
    (commandWord o cnt ord ety).extractLsb' 16 3 = ord := by
  apply BitVec.eq_of_getLsbD_eq
  intro i hi
  simp only [commandWord, BitVec.getLsbD_extractLsb', BitVec.getLsbD_append]
  simp [hi, show ¬ 16 + i < 8 by omega, show ¬ 16 + i - 8 < 7 by omega, show 16 + i - 8 - 7 - 1 = i by omega,
    show ¬ 16 + i - 8 - 7 = 0 by omega]

theorem commandWord_ety (o : Opcode) (cnt : Nat) (ord : BitVec 3) (ety : BitVec 2) :
    (commandWord o cnt ord ety).extractLsb' 20 2 = ety := by
  apply BitVec.eq_of_getLsbD_eq
  intro i hi
  simp only [commandWord, BitVec.getLsbD_extractLsb', BitVec.getLsbD_append]
  simp [hi, show ¬ 20 + i < 8 by omega, show ¬ 20 + i - 8 < 7 by omega, show ¬ 20 + i - 8 - 7 - 1 < 3 by omega,
    show 20 + i - 8 - 7 - 1 - 3 - 1 = i by omega, show ¬ 20 + i - 8 - 7 = 0 by omega,
    show ¬ 20 + i - 8 - 7 - 1 - 3 = 0 by omega]

/-! ## Decoding -/

/-- What a legal word is: it matches a row, and the row builds the instruction (30_encoding.md R316, R322). -/
theorem decodeCommand_ok {w : Word} {i : Instr} (h : decodeCommand w = .ok i) :
    ∃ o : Opcode, o.code = w.extractLsb' 0 8 ∧ w &&& o.mask = o.matchWord ∧ o.build w = .ok i := by
  unfold decodeCommand at h
  split at h
  · cases h
  · rename_i o ho
    split at h
    · exact ⟨o, Opcode.ofCode_eq_some.1 ho, ‹_›, h⟩
    · cases h

theorem decodeCommand_of_row {w : Word} {o : Opcode} (ho : o.code = w.extractLsb' 0 8) (hm : w &&& o.mask = o.matchWord) :
    decodeCommand w = o.build w := by
  unfold decodeCommand
  rw [Opcode.ofCode_eq_some.2 ho]
  simp [hm]

/-- No command word decodes to a host transaction (30_encoding.md R300). -/
theorem decodeCommand_isCommand {w : Word} {i : Instr} (h : decodeCommand w = .ok i) : Machine.isCommand i = true := by
  obtain ⟨o, -, -, hb⟩ := decodeCommand_ok h
  have order : ∀ f : BitOrder → Instr, (orderField w).map f = .ok i → ∃ x, f x = i := by
    intro f hf
    cases ho : orderField w with
    | ok x => rw [ho] at hf; cases hf; exact ⟨x, rfl⟩
    | error e => rw [ho] at hf; cases hf
  cases o <;> simp only [Opcode.build, bind, Except.bind, pure, Except.pure] at hb
  case dstart => obtain ⟨x, rfl⟩ := order _ hb; rfl
  case estart => obtain ⟨x, rfl⟩ := order _ hb; rfl
  case unpack => split at hb <;> [cases hb; (split at hb <;> cases hb; rfl)]
  case pack => split at hb <;> [cases hb; (split at hb <;> cases hb; rfl)]
  all_goals cases hb; rfl

end Sys2Proof
end

