-- ==== Sys2Proof/Laws/Memory.lean ====
section
/-! SUPPORT. The laws of MEM: every write keeps the canonical form, a read after a write, and what the multi-byte accesses
do (20_memory.md R200, R201, R230). -/

namespace Sys2Proof.Machine

/-! ## One location -/

theorem Memory.wf_nil : Memory.wf [] := by simp [Memory.wf]

theorem Memory.wf_cons {c : Host.Cell} {m : Memory} :
    Memory.wf (c :: m) ↔ (∀ d ∈ m, c.1 < d.1) ∧ c.2 ≠ Memory.blank ∧ Memory.wf m := by
  simp only [Memory.wf, List.pairwise_cons, List.forall_mem_cons]
  tauto

/-- An address below every listed one reads blank. -/
theorem Memory.read_below {m : Memory} {a : Nat} (h : ∀ c ∈ m, a < c.1) : Memory.read m a = Memory.blank := by
  cases m with
  | nil => rfl
  | cons c m =>
    have := h c (by simp)
    simp [Memory.read, this, Nat.ne_of_lt this]

/-- A listed address after a write is the written one or was listed before. -/
theorem Memory.mem_write {m : Memory} {a : Nat} {v : Byte} {c : Host.Cell} (h : c ∈ Memory.write m a v) :
    c = (a, v) ∧ v ≠ Memory.blank ∨ c ∈ m := by
  induction m with
  | nil =>
    unfold Memory.write at h
    split at h <;> simp_all
  | cons d m ih =>
    unfold Memory.write at h
    split at h
    · split at h
      · exact .inr (List.mem_cons_of_mem _ h)
      · rcases List.mem_cons.1 h with h | h
        · exact .inl ⟨h, ‹_›⟩
        · exact .inr (List.mem_cons_of_mem _ h)
    · split at h
      · split at h
        · exact .inr h
        · rcases List.mem_cons.1 h with h | h
          · exact .inl ⟨h, ‹_›⟩
          · exact .inr h
      · rcases List.mem_cons.1 h with h | h
        · exact .inr (h ▸ List.mem_cons_self)
        · rcases ih h with h | h
          · exact .inl h
          · exact .inr (List.mem_cons_of_mem _ h)

/-- A write keeps the canonical form. -/
theorem Memory.wf_write {m : Memory} (h : Memory.wf m) (a : Nat) (v : Byte) : Memory.wf (Memory.write m a v) := by
  induction m with
  | nil =>
    unfold Memory.write
    split
    · exact Memory.wf_nil
    · exact Memory.wf_cons.2 ⟨by simp, by simpa, Memory.wf_nil⟩
  | cons c m ih =>
    obtain ⟨h₁, h₂, h₃⟩ := Memory.wf_cons.1 h
    unfold Memory.write
    split
    · rename_i e
      split
      · exact h₃
      · exact Memory.wf_cons.2 ⟨fun d hd => e ▸ h₁ d hd, by simpa, h₃⟩
    · split
      · split
        · exact h
        · refine Memory.wf_cons.2 ⟨fun d hd => ?_, by simpa, h⟩
          rcases List.mem_cons.1 hd with rfl | hd
          · assumption
          · exact Nat.lt_trans ‹_› (h₁ d hd)
      · refine Memory.wf_cons.2 ⟨fun d hd => ?_, h₂, ih h₃⟩
        rcases Memory.mem_write hd with ⟨rfl, -⟩ | hd
        · simp only; omega
        · exact h₁ d hd

/-- A write to an address that exists lists only addresses that exist. -/
theorem Memory.within_write {m : Memory} {size : Nat} (h : Memory.within m size) {a : Nat} (ha : a < size) (v : Byte) :
    Memory.within (Memory.write m a v) size := by
  intro c hc
  rcases Memory.mem_write hc with ⟨rfl, -⟩ | hc
  · exact ha
  · exact h c hc

/-- A write is read back, and every other address reads as before. -/
theorem Memory.read_write {m : Memory} (h : Memory.wf m) (a : Nat) (v : Byte) (b : Nat) :
    Memory.read (Memory.write m a v) b = if b = a then v else Memory.read m b := by
  induction m with
  | nil =>
    unfold Memory.write
    by_cases hv : v = Memory.blank <;> by_cases hb : b = a <;> simp [Memory.read, hv, hb]
  | cons c m ih =>
    obtain ⟨k, x⟩ := c
    obtain ⟨h₁, h₂, h₃⟩ := Memory.wf_cons.1 h
    have below : ∀ b ≤ k, Memory.read m b = Memory.blank := fun b hb =>
      Memory.read_below fun d hd => Nat.lt_of_le_of_lt hb (h₁ d hd)
    unfold Memory.write
    by_cases hak : a = k
    · subst hak
      by_cases hv : v = Memory.blank
      · rw [if_pos rfl, if_pos hv]
        by_cases hb : b = a
        · subst hb; simp [below, hv]
        · simp only [Memory.read, hb, if_false]
          by_cases hlt : b < a
          · simp [hlt, below b (Nat.le_of_lt hlt)]
          · simp [hlt]
      · rw [if_pos rfl, if_neg hv]
        by_cases hb : b = a <;> simp [Memory.read, hb]
    · rw [if_neg hak]
      by_cases hlt : a < k
      · rw [if_pos hlt]
        by_cases hv : v = Memory.blank
        · rw [if_pos hv]
          by_cases hb : b = a
          · subst hb; simp [Memory.read, hak, hlt, hv]
          · simp [hb]
        · rw [if_neg hv]
          by_cases hb : b = a
          · simp [Memory.read, hb]
          · by_cases hba : b < a
            · have : b < k := Nat.lt_trans hba hlt
              simp [Memory.read, hb, hba, this, Nat.ne_of_lt this]
            · simp [Memory.read, hb, hba]
      · rw [if_neg hlt]
        by_cases hbk : b = k
        · subst hbk
          simp [Memory.read, Ne.symm hak]
        · by_cases hblt : b < k
          · have : b ≠ a := by omega
            simp [Memory.read, hbk, hblt, this]
          · simp only [Memory.read, hbk, hblt, if_false]
            exact ih h₃

theorem Memory.read_write_same {m : Memory} (h : Memory.wf m) (a : Nat) (v : Byte) :
    Memory.read (Memory.write m a v) a = v := by
  simp [Memory.read_write h]

theorem Memory.read_write_other {m : Memory} (h : Memory.wf m) {a b : Nat} (hab : b ≠ a) (v : Byte) :
    Memory.read (Memory.write m a v) b = Memory.read m b := by
  simp [Memory.read_write h, hab]

/-! ## Accesses of the block -/

theorem memRead_ok {p : Config.Params} {m : Memory} {a : Nat} {b : Byte} :
    memRead p m a = .ok b ↔ a < p.memSize ∧ b = Memory.read m a := by
  unfold memRead
  split <;> simp_all [eq_comm]

theorem memRead_error {p : Config.Params} {m : Memory} {a : Nat} {e : Raise} (h : memRead p m a = .error e) :
    e = .stop (.outsideMemory a) ∧ p.memSize ≤ a := by
  unfold memRead at h
  split at h
  · cases h
  · cases h; exact ⟨rfl, by omega⟩

theorem memWrite_ok {p : Config.Params} {m m' : Memory} {a : Nat} {v : Byte} :
    memWrite p m a v = .ok m' ↔ a < p.memSize ∧ m' = Memory.write m a v := by
  unfold memWrite
  split <;> simp_all [eq_comm]

/-- Reading k bytes gives the bytes at a, ..., a+k-1. -/
theorem memReadBytes_eq {p : Config.Params} {m : Memory} {a k : Nat} (h : a + k ≤ p.memSize) :
    memReadBytes p m a k = .ok ((List.range k).map fun i => Memory.read m (a + i)) := by
  induction k generalizing a with
  | zero => rfl
  | succ k ih =>
    simp only [memReadBytes, memRead_ok.2 ⟨show a < p.memSize by omega, rfl⟩, ih (a := a + 1) (by omega), bind,
      Except.bind, pure, Except.pure, List.range_succ_eq_map, List.map_cons, List.map_map, Nat.add_zero]
    congr 2
    refine List.map_congr_left fun i _ => ?_
    simp only [Function.comp_apply, Nat.succ_eq_add_one]
    congr 1
    omega

/-- A write of bytes inside MEM completes, changes exactly those bytes, and keeps the canonical form. -/
theorem memWriteBytes_eq {p : Config.Params} {m : Memory} (hwf : Memory.wf m) {a : Nat} {bytes : List Byte}
    (h : a + bytes.length ≤ p.memSize) :
    ∃ m', memWriteBytes p m a bytes = .ok m' ∧ Memory.wf m' ∧
      (∀ size, a + bytes.length ≤ size → Memory.within m size → Memory.within m' size) ∧
        ∀ b, Memory.read m' b = if h : a ≤ b ∧ b < a + bytes.length then bytes[b - a]'(by omega) else Memory.read m b := by
  induction bytes generalizing m a with
  | nil =>
    refine ⟨m, rfl, hwf, fun _ _ h => h, fun b => ?_⟩
    rw [dif_neg (by simp)]
  | cons v vs ih =>
    simp only [List.length_cons] at h
    obtain ⟨m', e, w, i, r⟩ := ih (Memory.wf_write hwf a v) (a := a + 1) (by omega)
    refine ⟨m', ?_, w, fun size hs hm => ?_, fun b => ?_⟩
    · simp only [memWriteBytes, memWrite_ok.2 ⟨show a < p.memSize by omega, rfl⟩, bind, Except.bind]
      exact e
    · simp only [List.length_cons] at hs
      exact i size (by omega) (Memory.within_write hm (by omega) v)
    · rw [r b, Memory.read_write hwf]
      simp only [List.length_cons]
      by_cases hb : b = a
      · subst hb
        simp
      · by_cases hb' : a + 1 ≤ b ∧ b < a + 1 + vs.length
        · obtain ⟨j, rfl⟩ : ∃ j, b = a + 1 + j := ⟨b - (a + 1), by omega⟩
          rw [dif_pos hb', dif_pos (by omega)]
          simp only [show a + 1 + j - a = j + 1 by omega, List.getElem_cons_succ, show a + 1 + j - (a + 1) = j by omega]
        · rw [dif_neg hb', dif_neg (by omega), if_neg hb]

/-- What a write of bytes that completes has done, wherever it went. -/
theorem memWriteBytes_ok {p : Config.Params} {m m' : Memory} {a : Nat} {bytes : List Byte} (hwf : Memory.wf m)
    (h : memWriteBytes p m a bytes = .ok m') :
    Memory.wf m' ∧ (bytes ≠ [] → a + bytes.length ≤ p.memSize) ∧ (Memory.within m p.memSize → Memory.within m' p.memSize) ∧
      ∀ b, Memory.read m' b = if h : a ≤ b ∧ b < a + bytes.length then bytes[b - a]'(by omega) else Memory.read m b := by
  have size : bytes ≠ [] → a + bytes.length ≤ p.memSize := by
    clear hwf
    induction bytes generalizing m a with
    | nil => simp
    | cons v vs ih =>
      intro _
      simp only [memWriteBytes, bind, Except.bind] at h
      split at h
      · cases h
      · rename_i x e
        have ha := (memWrite_ok.1 e).1
        have := ih h
        cases vs with
        | nil => simp; omega
        | cons w ws =>
          have := this (by simp)
          simp only [List.length_cons] at *
          omega
  by_cases hb : bytes = []
  · subst hb
    cases h
    refine ⟨hwf, by simp, fun h => h, fun b => ?_⟩
    rw [dif_neg (by simp)]
  · obtain ⟨x, e, w, i, r⟩ := memWriteBytes_eq hwf (size hb)
    rw [h] at e
    cases e
    exact ⟨w, size, i _ (size hb), r⟩

/-- A write of bytes only ever stops at an address that does not exist. -/
theorem memWriteBytes_error {p : Config.Params} {m : Memory} {a : Nat} {bytes : List Byte} {e : Raise}
    (h : memWriteBytes p m a bytes = .error e) : ∃ b, e = .stop (.outsideMemory b) := by
  induction bytes generalizing m a with
  | nil => cases h
  | cons v vs ih =>
    simp only [memWriteBytes, bind, Except.bind] at h
    split at h
    · rename_i x he
      cases h
      unfold memWrite at he
      split at he
      · cases he
      · cases he; exact ⟨_, rfl⟩
    · exact ih h

theorem memReadBytes_error {p : Config.Params} {m : Memory} {a k : Nat} {e : Raise}
    (h : memReadBytes p m a k = .error e) : ∃ b, e = .stop (.outsideMemory b) := by
  induction k generalizing a with
  | zero => cases h
  | succ k ih =>
    simp only [memReadBytes, bind, Except.bind] at h
    split at h
    · rename_i x he
      cases h
      exact ⟨_, (memRead_error he).1⟩
    · split at h
      · rename_i x he
        cases h
        exact ih he
      · cases h

/-! ## The host's view and the free rectangle -/

/-- A fold of writes keeps the canonical form. -/
theorem Memory.wf_foldl_write {m : Memory} (h : Memory.wf m) (as : List Nat) (f : Nat → Byte) :
    Memory.wf (as.foldl (fun m a => Memory.write m a (f a)) m) := by
  induction as generalizing m with
  | nil => exact h
  | cons a as ih => exact ih (Memory.wf_write h a _)

theorem Memory.within_foldl_write {m : Memory} {size : Nat} (h : Memory.within m size) {as : List Nat}
    (ha : ∀ a ∈ as, a < size) (f : Nat → Byte) : Memory.within (as.foldl (fun m a => Memory.write m a (f a)) m) size := by
  induction as generalizing m with
  | nil => exact h
  | cons a as ih =>
    exact ih (Memory.within_write h (ha a (by simp)) _) fun b hb => ha b (by simp [hb])

/-- A fold of writes changes only the addresses it lists, and each of those to its value. -/
theorem Memory.read_foldl_write {m : Memory} (h : Memory.wf m) (as : List Nat) (f : Nat → Byte) (b : Nat) :
    Memory.read (as.foldl (fun m a => Memory.write m a (f a)) m) b = if b ∈ as then f b else Memory.read m b := by
  induction as generalizing m with
  | nil => simp
  | cons a as ih =>
    rw [List.foldl_cons, ih (Memory.wf_write h a _), Memory.read_write h]
    by_cases hb : b ∈ as
    · simp [hb]
    · by_cases hba : b = a <;> simp [hb, hba]

/-! ## Multi-byte values -/

theorem bytesValue_lt (bs : List Byte) : bytesValue bs < 256 ^ bs.length := by
  induction bs with
  | nil => simp [bytesValue]
  | cons b bs ih =>
    have := b.isLt
    simp only [bytesValue, List.length_cons, Nat.pow_succ]
    omega

theorem splitChunk_length (e : Config.Endian) (v : Word) (k : Nat) : (splitChunk e v k).length = k := by
  cases e <;> simp [splitChunk, bytesUp]

end Sys2Proof.Machine
end

