-- ==== Sys2Proof/Laws/Stream.lean ====
section
/-! SUPPORT. The stream engine: what the byte readers, a refill, GetBits, a drain, PutBits and Flush do
(42_stream_engine.md R510-R540; 44_jpeg_stuffing.md R710, R720). -/

namespace Sys2Proof.Machine

/-! ## The policy table -/

theorem policy_chunk (p : Config.Params) (o : BitOrder) :
    (policy p o).chunk = 1 ∨ (policy p o).chunk = 2 ∨ (policy p o).chunk = 4 := by
  obtain ⟨_, a, b, c, _⟩ := p
  cases o <;> simp only [policy]
  · cases a <;> simp [Config.ChunkWidth.bytes]
  · cases b <;> simp [Config.ChunkWidth.bytes]
  · simp
  · simp
  · cases c <;> simp [Config.ChunkWidth.bytes]

theorem policy_chunk_pos (p : Config.Params) (o : BitOrder) : 1 ≤ (policy p o).chunk := by
  rcases policy_chunk p o with h | h | h <;> omega

theorem policy_chunk_le (p : Config.Params) (o : BitOrder) : (policy p o).chunk ≤ 4 := by
  rcases policy_chunk p o with h | h | h <;> omega

theorem policy_stuffing (p : Config.Params) (o : BitOrder) : (policy p o).stuffing = decide (o = .jpeg) := by
  cases o <;> rfl

/-! ## Bytes held in MEM -/

theorem HoldsAt.nil (m : Memory) (a : Nat) : HoldsAt m a [] := fun i h => absurd h (by simp)

theorem HoldsAt.cons_iff {m : Memory} {a : Nat} {b : Byte} {bs : List Byte} :
    HoldsAt m a (b :: bs) ↔ Memory.read m a = b ∧ HoldsAt m (a + 1) bs := by
  constructor
  · intro h
    refine ⟨h 0 (by simp), fun i hi => ?_⟩
    have := h (i + 1) (by simpa using hi)
    simpa [Nat.add_assoc, Nat.add_comm 1 i] using this
  · rintro ⟨h1, h2⟩ i hi
    cases i with
    | zero => simpa using h1
    | succ i =>
      have := h2 i (by simpa using hi)
      simpa [Nat.add_assoc, Nat.add_comm 1 i] using this

theorem HoldsAt.append_iff {m : Memory} {a : Nat} {xs ys : List Byte} :
    HoldsAt m a (xs ++ ys) ↔ HoldsAt m a xs ∧ HoldsAt m (a + xs.length) ys := by
  induction xs generalizing a with
  | nil => simp [HoldsAt.nil]
  | cons x xs ih =>
    rw [List.cons_append, HoldsAt.cons_iff, HoldsAt.cons_iff, ih, and_assoc]
    simp [Nat.add_assoc, Nat.add_comm 1]

/-- MEM holds at most one byte string of a length at an address. -/
theorem HoldsAt.unique {m : Memory} {a : Nat} {xs ys : List Byte} (hx : HoldsAt m a xs) (hy : HoldsAt m a ys)
    (h : xs.length = ys.length) : xs = ys :=
  List.ext_getElem h fun i h₁ h₂ => (hx i h₁).symm.trans (hy i h₂)

theorem stuff_append (xs ys : List Byte) : stuff (xs ++ ys) = stuff xs ++ stuff ys := by
  induction xs with
  | nil => rfl
  | cons x xs ih =>
    simp only [List.cons_append, stuff, ih]
    split <;> simp

theorem wireBytes_append (o : BitOrder) (xs ys : List Byte) : wireBytes o (xs ++ ys) = wireBytes o xs ++ wireBytes o ys := by
  unfold wireBytes
  split
  · exact stuff_append xs ys
  · rfl

@[simp] theorem wireBytes_nil (o : BitOrder) : wireBytes o [] = [] := by
  unfold wireBytes
  split <;> rfl

theorem wireBytes_cons (o : BitOrder) (b : Byte) (bs : List Byte) :
    wireBytes o (b :: bs) = wireBytes o [b] ++ wireBytes o bs := by
  rw [← wireBytes_append]; rfl

/-- Stuffing at most doubles a byte string and never shortens it (44_jpeg_stuffing.md R720). -/
theorem wireBytes_length (o : BitOrder) (bs : List Byte) :
    bs.length ≤ (wireBytes o bs).length ∧ (wireBytes o bs).length ≤ 2 * bs.length := by
  unfold wireBytes
  split
  · induction bs with
    | nil => simp [stuff]
    | cons b bs ih =>
      simp only [stuff]
      split <;> simp only [List.length_cons] <;> omega
  · omega

/-! ## Reading bytes -/

theorem Window.inRange_iff {p : Config.Params} {w : Window} :
    w.inRange p = true ↔ w.len = 0 ∨ w.base + w.len ≤ p.memSize := by
  simp [Window.inRange]

/-- One data byte is read exactly when its window bytes stand there and end inside the window (42_stream_engine.md R511;
44_jpeg_stuffing.md R710). -/
theorem readByte_ok_iff {p : Config.Params} {o : BitOrder} {m : Memory} {w : Window} (hr : w.inRange p = true)
    {pos pos' : Nat} {b : Byte} :
    readByte p o m w pos = .ok (b, pos') ↔
      pos' = pos + (wireBytes o [b]).length ∧ pos' ≤ w.len ∧ HoldsAt m (w.base + pos) (wireBytes o [b]) := by
  rw [Window.inRange_iff] at hr
  unfold readByte wireBytes
  rw [policy_stuffing]
  by_cases ho : o = .jpeg
  · simp only [ho, decide_true, if_true, stuff, readDestuffedByte]
    by_cases hp : w.len ≤ pos
    · simp only [hp, if_true, reduceCtorEq, false_iff]
      split <;> simp <;> omega
    · have hm : w.base + pos < p.memSize := by omega
      simp only [hp, if_false, memRead_ok.2 ⟨hm, rfl⟩, bind, Except.bind, pure, Except.pure]
      by_cases hs : Memory.read m (w.base + pos) = sentinelByte
      · simp only [hs, if_true, readEscape]
        by_cases hp' : w.len ≤ pos + 1
        · simp only [hp', if_true, reduceCtorEq, false_iff]
          split
          · simp; omega
          · rename_i hb
            rintro ⟨-, -, h⟩
            exact hb ((HoldsAt.cons_iff.1 h).1.symm.trans hs)
        · have hm' : w.base + (pos + 1) < p.memSize := by omega
          simp only [hp', if_false, memRead_ok.2 ⟨hm', rfl⟩, bind, Except.bind]
          by_cases he : Memory.read m (w.base + (pos + 1)) = escapeByte
          · simp only [he, if_true, Except.ok.injEq, Prod.mk.injEq]
            constructor
            · rintro ⟨rfl, rfl⟩
              simp only [if_true]
              exact ⟨by simp, by omega, HoldsAt.cons_iff.2 ⟨hs, HoldsAt.cons_iff.2 ⟨he, HoldsAt.nil _ _⟩⟩⟩
            · rintro ⟨h1, -, h3⟩
              split at h1
              · rename_i hb
                exact ⟨hb.symm, by simpa using h1.symm⟩
              · rename_i hb
                rw [if_neg hb] at h3
                exact absurd ((HoldsAt.cons_iff.1 h3).1.symm.trans hs) hb
          · simp only [he, if_false, reduceCtorEq, false_iff]
            rintro ⟨-, -, h3⟩
            split at h3
            · exact he (HoldsAt.cons_iff.1 (HoldsAt.cons_iff.1 h3).2).1
            · rename_i hb
              exact hb ((HoldsAt.cons_iff.1 h3).1.symm.trans hs)
      · simp only [hs, if_false, Except.ok.injEq, Prod.mk.injEq]
        constructor
        · rintro ⟨rfl, rfl⟩
          rw [if_neg hs]
          exact ⟨by simp, by omega, HoldsAt.cons_iff.2 ⟨rfl, HoldsAt.nil _ _⟩⟩
        · rintro ⟨h1, -, h3⟩
          split at h3
          · rename_i hb
            exact absurd ((HoldsAt.cons_iff.1 h3).1.trans hb) hs
          · rename_i hb
            rw [if_neg hb] at h1
            exact ⟨(HoldsAt.cons_iff.1 h3).1, by simpa using h1.symm⟩
  · simp only [ho, decide_false, if_false, Bool.false_eq_true, readStreamByte]
    by_cases hp : w.len ≤ pos
    · simp only [hp, if_true, reduceCtorEq, false_iff]
      simp; omega
    · have hm : w.base + pos < p.memSize := by omega
      simp only [hp, if_false, memRead_ok.2 ⟨hm, rfl⟩, bind, Except.bind, pure, Except.pure, Except.ok.injEq,
        Prod.mk.injEq, HoldsAt.cons_iff, HoldsAt.nil, and_true]
      constructor
      · rintro ⟨rfl, rfl⟩
        exact ⟨by simp, by omega, rfl⟩
      · rintro ⟨h1, -, h3⟩
        exact ⟨h3, by simpa using h1.symm⟩

/-- How reading a data byte fails: at the window's end, at a bad escape (JPEG only), or outside MEM. -/
inductive ReadFailure (p : Config.Params) (o : BitOrder) (w : Window) (pos : Nat) : Raise → Prop where
  | endOfInput (info : Nat) (h : w.len ≤ info) (h' : info ≤ max pos w.len) :
    ReadFailure p o w pos (raiseFault .endOfInput info)
  | badEscape (info : Nat) (h : pos < info) (h' : info < w.len) (ho : o = .jpeg) :
    ReadFailure p o w pos (raiseFault .jpegBadEscape info)
  | outside (a : Nat) (h : w.inRange p = false) : ReadFailure p o w pos (.stop (.outsideMemory a))

theorem readByte_error {p : Config.Params} {o : BitOrder} {m : Memory} {w : Window} {pos : Nat} {e : Raise}
    (h : readByte p o m w pos = .error e) : ReadFailure p o w pos e := by
  have out : ∀ q a, q < w.len → memRead p m (w.base + q) = .error a → ReadFailure p o w pos a := by
    intro q a hq ha
    obtain ⟨rfl, hm⟩ := memRead_error ha
    refine .outside _ ?_
    rw [Bool.eq_false_iff, Ne, Window.inRange_iff]
    omega
  unfold readByte at h
  rw [policy_stuffing] at h
  by_cases ho : o = .jpeg
  · simp only [ho, decide_true, if_true, readDestuffedByte] at h
    split at h
    · cases h
      exact .endOfInput _ ‹_› (by omega)
    · simp only [bind, Except.bind] at h
      split at h
      · cases h
        exact out _ _ (Nat.lt_of_not_le ‹_›) ‹_›
      · split at h
        · split at h
          · rename_i he
            cases h
            unfold readEscape at he
            split at he
            · cases he
              exact .endOfInput _ ‹_› (by omega)
            · simp only [bind, Except.bind] at he
              split at he
              · cases he
                exact out _ _ (Nat.lt_of_not_le ‹_›) ‹_›
              · split at he
                · cases he
                · cases he
                  exact .badEscape _ (by omega) (by omega) ho
          · cases h
        · cases h
  · simp only [ho, decide_false, if_false, Bool.false_eq_true, readStreamByte] at h
    split at h
    · cases h
      exact .endOfInput _ ‹_› (by omega)
    · simp only [bind, Except.bind] at h
      split at h
      · cases h
        exact out _ _ (Nat.lt_of_not_le ‹_›) ‹_›
      · cases h

/-- k data bytes are read exactly when their window bytes stand there and end inside the window. -/
theorem readBytes_ok_iff {p : Config.Params} {o : BitOrder} {m : Memory} {w : Window} (hr : w.inRange p = true)
    {k pos pos' : Nat} {bs : List Byte} :
    readBytes p o m w k pos = .ok (bs, pos') ↔
      bs.length = k ∧ pos' = pos + (wireBytes o bs).length ∧ (k ≠ 0 → pos' ≤ w.len) ∧
        HoldsAt m (w.base + pos) (wireBytes o bs) := by
  induction k generalizing pos bs with
  | zero =>
    simp only [readBytes, Except.ok.injEq, Prod.mk.injEq]
    constructor
    · rintro ⟨rfl, rfl⟩
      simp [HoldsAt.nil]
    · rintro ⟨h1, h2, -, -⟩
      have := List.length_eq_zero_iff.1 h1
      subst this
      simp [h2]
  | succ k ih =>
    simp only [readBytes, bind, Except.bind]
    constructor
    · intro h
      split at h
      · cases h
      rename_i x hx
      obtain ⟨b, q⟩ := x
      split at h
      · cases h
      rename_i y hy
      obtain ⟨cs, q'⟩ := y
      simp only [pure, Except.pure, Except.ok.injEq, Prod.mk.injEq] at h
      obtain ⟨rfl, rfl⟩ := h
      obtain ⟨a1, a2, a3⟩ := (readByte_ok_iff hr).1 hx
      obtain ⟨b1, b2, b3, b4⟩ := ih.1 hy
      rw [wireBytes_cons, List.length_append, HoldsAt.append_iff]
      refine ⟨by simp [b1], by omega, fun _ => ?_, a3, ?_⟩
      · by_cases hk : k = 0
        · subst hk
          have := List.length_eq_zero_iff.1 b1
          subst this
          simp at b2
          omega
        · exact b3 hk
      · rw [show w.base + pos + (wireBytes o [b]).length = w.base + q by omega]
        exact b4
    · rintro ⟨h1, h2, h3, h4⟩
      cases bs with
      | nil => simp at h1
      | cons b bs =>
        have h3 := h3 (by simp)
        rw [wireBytes_cons, List.length_append] at h2
        rw [wireBytes_cons, HoldsAt.append_iff] at h4
        have := (readByte_ok_iff hr (pos' := pos + (wireBytes o [b]).length)).2 ⟨rfl, by omega, h4.1⟩
        simp only [this]
        have := (ih (pos := pos + (wireBytes o [b]).length) (bs := bs)).2
          ⟨by simpa using h1, by omega, fun _ => h3, by rw [← Nat.add_assoc]; exact h4.2⟩
        simp only [this, pure, Except.pure]

theorem readByte_pos {p : Config.Params} {o : BitOrder} {m : Memory} {w : Window} {pos pos' : Nat} {b : Byte}
    (h : readByte p o m w pos = .ok (b, pos')) : pos < pos' ∧ pos' ≤ w.len := by
  unfold readByte at h
  rw [policy_stuffing] at h
  by_cases ho : o = .jpeg
  · simp only [ho, decide_true, if_true, readDestuffedByte] at h
    split at h
    · cases h
    · simp only [bind, Except.bind] at h
      split at h
      · cases h
      · split at h
        · split at h
          · cases h
          · rename_i he
            cases h
            unfold readEscape at he
            split at he
            · cases he
            · simp only [bind, Except.bind] at he
              split at he
              · cases he
              · split at he
                · cases he; omega
                · cases he
        · cases h; omega
  · simp only [ho, decide_false, if_false, Bool.false_eq_true, readStreamByte] at h
    split at h
    · cases h
    · simp only [bind, Except.bind] at h
      split at h
      · cases h
      · cases h; omega

theorem readBytes_error {p : Config.Params} {o : BitOrder} {m : Memory} {w : Window} {k pos : Nat} {e : Raise}
    (h : readBytes p o m w k pos = .error e) : ReadFailure p o w pos e := by
  induction k generalizing pos with
  | zero => cases h
  | succ k ih =>
    simp only [readBytes, bind, Except.bind] at h
    split at h
    · cases h
      exact readByte_error ‹_›
    · rename_i x hx
      split at h
      · cases h
        have hp := readByte_pos hx
        cases ih ‹_› with
        | endOfInput info a b => exact .endOfInput info a (by omega)
        | badEscape info a b c => exact .badEscape info (by omega) b c
        | outside a b => exact .outside a b
      · cases h

/-! ## Refill and GetBits -/

/-- What loading m chunks of data bytes into a session does to its cursor (42_stream_engine.md R510). -/
structure Loaded (p : Config.Params) (o : BitOrder) (mem : Memory) (w : Window) (m : Nat) (data : List Byte)
    (k k' : Cursor) : Prop where
  length : data.length = (policy p o).chunk * m
  pos : k'.pos = k.pos + (wireBytes o data).length
  inside : m ≠ 0 → k'.pos ≤ w.len
  holds : HoldsAt mem (w.base + k.pos) (wireBytes o data)
  wf : k'.cache.wf
  flow : k'.cache.flow = k.cache.flow
  fill : k'.cache.fill = k.cache.fill + 8 * (policy p o).chunk * m
  queue : k'.cache.queue = k.cache.queue ++ streamBits (policy p o) m data

/-- One refill loads one chunk (42_stream_engine.md R510). -/
theorem refill_ok {p : Config.Params} {o : BitOrder} {mem : Memory} {w : Window} {k k' : Cursor}
    (hr : w.inRange p = true) (hk : k.cache.wf) (hf : k.cache.flow = (policy p o).flow)
    (h : refill p o mem w k = .ok k') : ∃ bs, Loaded p o mem w 1 bs k k' := by
  simp only [refill, bind, Except.bind] at h
  split at h
  · cases h
  rename_i x hx
  obtain ⟨bs, q⟩ := x
  split at h
  · cases h
  rename_i c hc
  cases h
  obtain ⟨a1, a2, a3, a4⟩ := (readBytes_ok_iff hr).1 hx
  obtain ⟨-, b2, b3, b4, b5⟩ := BitCache.push_ok hk hc
  have := policy_chunk_pos p o
  refine ⟨bs, by simpa using a1, a2, fun _ => a3 (by omega), a4, b2, b3, by simp [b4], ?_⟩
  simp only [b5, streamBits, chunkBits, hf, List.append_nil]
  rw [List.take_of_length_le (by omega)]

/-- A refill completes when a chunk of data stands in the rest of the window (42_stream_engine.md R510). -/
theorem refill_fits {p : Config.Params} {o : BitOrder} {mem : Memory} {w : Window} {k : Cursor}
    (hr : w.inRange p = true) (hfill : k.cache.fill ≤ 32) {bs : List Byte} (hl : bs.length = (policy p o).chunk)
    (hp : k.pos + (wireBytes o bs).length ≤ w.len) (hm : HoldsAt mem (w.base + k.pos) (wireBytes o bs)) :
    ∃ k', refill p o mem w k = .ok k' := by
  have h1 := (readBytes_ok_iff (p := p) (o := o) hr).2 ⟨hl, rfl, fun _ => hp, hm⟩
  have := policy_chunk_le p o
  obtain ⟨c, hc⟩ := k.cache.push_fits (chunkValue (policy p o).endian bs) (n := 8 * (policy p o).chunk) (by omega)
  refine ⟨⟨c, k.pos + (wireBytes o bs).length⟩, ?_⟩
  simp only [refill, bind, Except.bind, h1, hc, pure, Except.pure]

/-- A refill with at most 32 bits cached fails only as a read does (42_stream_engine.md R513). -/
theorem refill_error {p : Config.Params} {o : BitOrder} {mem : Memory} {w : Window} {k : Cursor} {e : Raise}
    (hfill : k.cache.fill ≤ 32) (h : refill p o mem w k = .error e) : ReadFailure p o w k.pos e := by
  simp only [refill, bind, Except.bind] at h
  split at h
  · cases h
    exact readBytes_error ‹_›
  rename_i x hx
  split at h
  · cases h
    rename_i hc
    have := (BitCache.push_error.1 hc).1
    have := policy_chunk_le p o
    omega
  · cases h

theorem Loaded.refl (p : Config.Params) (o : BitOrder) (mem : Memory) (w : Window) {k : Cursor} (hk : k.cache.wf) :
    Loaded p o mem w 0 [] k k where
  length := by simp
  pos := by simp
  inside := by simp
  holds := by simp [HoldsAt.nil]
  wf := hk
  flow := rfl
  fill := by simp
  queue := by simp [streamBits]

theorem Loaded.cons {p : Config.Params} {o : BitOrder} {mem : Memory} {w : Window} {m : Nat} {bs data : List Byte}
    {k k' k'' : Cursor} (h : Loaded p o mem w 1 bs k k') (h' : Loaded p o mem w m data k' k'') :
    Loaded p o mem w (m + 1) (bs ++ data) k k'' where
  length := by
    rw [List.length_append, h.length, h'.length]
    ring
  pos := by rw [wireBytes_append, List.length_append, h'.pos, h.pos]; omega
  inside := fun _ => by
    by_cases hm : m = 0
    · subst hm
      have := List.length_eq_zero_iff.1 (h'.length.trans (Nat.mul_zero _))
      subst this
      have := h'.pos
      have := h.inside (by simp)
      simp at *
      omega
    · exact h'.inside hm
  holds := by
    rw [wireBytes_append, HoldsAt.append_iff]
    refine ⟨h.holds, ?_⟩
    have := h'.holds
    rwa [h.pos, ← Nat.add_assoc] at this
  wf := h'.wf
  flow := h'.flow.trans h.flow
  fill := by rw [h'.fill, h.fill]; ring
  queue := by
    have hl : bs.length = (policy p o).chunk := by simpa using h.length
    rw [h'.queue, h.queue]
    simp only [streamBits, List.append_nil, List.append_assoc]
    rw [List.take_append_of_le_length (by omega), List.drop_append_of_le_length (by omega), ← hl, List.drop_length,
      List.take_length, List.nil_append]

/-- The refill loop loads whole chunks until n bits are cached, and no chunk more (42_stream_engine.md R521). -/
theorem refillWhile_ok {p : Config.Params} {o : BitOrder} {mem : Memory} {w : Window} {n fuel : Nat} {k k' : Cursor}
    (hr : w.inRange p = true) (hk : k.cache.wf) (hf : k.cache.flow = (policy p o).flow)
    (hfuel : n ≤ k.cache.fill + 8 * fuel) (h : refillWhile p o mem w n fuel k = .ok k') :
    ∃ m data, Loaded p o mem w m data k k' ∧ n ≤ k'.cache.fill ∧
      (m ≠ 0 → k'.cache.fill < n + 8 * (policy p o).chunk) := by
  induction fuel generalizing k with
  | zero =>
    cases h
    exact ⟨0, [], .refl p o mem w hk, by omega, by simp⟩
  | succ fuel ih =>
    simp only [refillWhile] at h
    split at h
    · simp only [bind, Except.bind] at h
      split at h
      · cases h
      rename_i k₁ h₁
      obtain ⟨bs, l₁⟩ := refill_ok hr hk hf h₁
      have hc := policy_chunk_pos p o
      have hfill := l₁.fill
      obtain ⟨m, data, l₂, a, b⟩ := ih l₁.wf (l₁.flow.trans hf) (by omega) h
      refine ⟨m + 1, bs ++ data, l₁.cons l₂, a, fun _ => ?_⟩
      by_cases hm : m = 0
      · subst hm
        have := l₂.fill
        omega
      · exact b hm
    · cases h
      exact ⟨0, [], .refl p o mem w hk, by omega, by simp⟩

theorem refillWhile_error {p : Config.Params} {o : BitOrder} {mem : Memory} {w : Window} {n fuel : Nat} {k : Cursor}
    {e : Raise} (hn : n ≤ 32) (hk : k.pos ≤ w.len)
    (h : refillWhile p o mem w n fuel k = .error e) :
    ∃ pos, k.pos ≤ pos ∧ pos ≤ w.len ∧ ReadFailure p o w pos e := by
  induction fuel generalizing k with
  | zero => cases h
  | succ fuel ih =>
    simp only [refillWhile] at h
    split at h
    · simp only [bind, Except.bind] at h
      split at h
      · cases h
        exact ⟨k.pos, Nat.le_refl _, hk, refill_error (by omega) ‹_›⟩
      rename_i k₁ h₁
      have step : k.pos ≤ k₁.pos ∧ k₁.pos ≤ w.len := by
        simp only [refill, bind, Except.bind] at h₁
        split at h₁
        · cases h₁
        rename_i x hx
        obtain ⟨bs, q⟩ := x
        split at h₁
        · cases h₁
        cases h₁
        simp only
        have : ∀ j pos pos' bs, readBytes p o mem w j pos = .ok (bs, pos') → pos ≤ w.len → pos ≤ pos' ∧ pos' ≤ w.len := by
          intro j
          induction j with
          | zero => intro pos pos' bs h hp; cases h; omega
          | succ j ih =>
            intro pos pos' bs h hp
            simp only [readBytes, bind, Except.bind] at h
            split at h
            · cases h
            rename_i x hx
            obtain ⟨b, q⟩ := x
            split at h
            · cases h
            rename_i y hy
            obtain ⟨cs, q'⟩ := y
            cases h
            have := readByte_pos hx
            have := ih _ _ _ hy this.2
            omega
        exact this _ _ _ _ hx hk
      obtain ⟨pos, a, b, c⟩ := ih step.2 h
      exact ⟨pos, by omega, b, c⟩
    · cases h

/-- The refill loop completes when the chunks it needs stand in the rest of the window. -/
theorem refillWhile_fits {p : Config.Params} {o : BitOrder} {mem : Memory} {w : Window} {n fuel m : Nat} {k : Cursor}
    (hr : w.inRange p = true) (hk : k.cache.wf) (hf : k.cache.flow = (policy p o).flow) (hn : n ≤ 32)
    (hm : n ≤ k.cache.fill + 8 * (policy p o).chunk * m) {data : List Byte}
    (hl : data.length = (policy p o).chunk * m) (hp : k.pos + (wireBytes o data).length ≤ w.len)
    (hh : HoldsAt mem (w.base + k.pos) (wireBytes o data)) : ∃ k', refillWhile p o mem w n fuel k = .ok k' := by
  induction fuel generalizing k m data with
  | zero => exact ⟨k, rfl⟩
  | succ fuel ih =>
    simp only [refillWhile]
    split
    · rename_i hlt
      cases m with
      | zero => simp at hm; omega
      | succ m =>
        have hc := policy_chunk_pos p o
        have hl' : data.length = (policy p o).chunk * m + (policy p o).chunk := by rw [hl]; ring
        obtain ⟨bs, rest, rfl, hb⟩ : ∃ bs rest, data = bs ++ rest ∧ bs.length = (policy p o).chunk :=
          ⟨data.take (policy p o).chunk, data.drop (policy p o).chunk, by simp, by simp; omega⟩
        rw [wireBytes_append, HoldsAt.append_iff] at hh
        rw [wireBytes_append, List.length_append] at hp
        obtain ⟨k₁, h₁⟩ := refill_fits (p := p) hr (k := k) (by omega) hb (by omega) hh.1
        obtain ⟨bs', l₁⟩ := refill_ok hr hk hf h₁
        have e : bs' = bs := by
          have e1 := l₁.holds
          simp only [refill, bind, Except.bind,
            (readBytes_ok_iff (p := p) (o := o) hr).2 ⟨hb, rfl, fun _ => (show _ ≤ w.len by omega), hh.1⟩] at h₁
          split at h₁
          · cases h₁
          · cases h₁
            have e2 := l₁.pos
            simp only [Nat.add_left_cancel_iff] at e2
            have e3 := HoldsAt.unique e1 hh.1 e2.symm
            have hrd := (readBytes_ok_iff (p := p) (o := o) hr (k := (policy p o).chunk) (pos := k.pos)
              (pos' := k.pos + (wireBytes o bs').length) (bs := bs')).2
              ⟨by simpa using l₁.length, rfl, fun _ => by omega, e1⟩
            rw [(readBytes_ok_iff (p := p) (o := o) hr).2 ⟨hb, rfl, fun _ => (show _ ≤ w.len by omega), hh.1⟩] at hrd
            cases hrd
            rfl
        subst e
        simp only [bind, Except.bind, h₁]
        have h2 : rest.length = (policy p o).chunk * m := by
          rw [List.length_append] at hl'
          omega
        refine ih l₁.wf (l₁.flow.trans hf) (m := m) ?_ (data := rest) h2 ?_ ?_
        · rw [l₁.fill]
          have : 8 * (policy p o).chunk * (m + 1) = 8 * (policy p o).chunk * 1 + 8 * (policy p o).chunk * m := by ring
          omega
        · rw [l₁.pos]; omega
        · rw [l₁.pos, ← Nat.add_assoc]; exact hh.2
    · exact ⟨k, rfl⟩

/-- GetBits returns the next n bits of the cache and the loaded chunks, and drops them (42_stream_engine.md R521). -/
theorem getBits_ok {p : Config.Params} {o : BitOrder} {n : Nat} {mem : Memory} {w : Window} {k k' : Cursor} {v : Word}
    (hr : w.inRange p = true) (hk : k.cache.wf) (hf : k.cache.flow = (policy p o).flow)
    (h : getBits p o n mem w k = .ok (v, k')) :
    1 ≤ n ∧ n ≤ 32 ∧ ∃ m data k₁, Loaded p o mem w m data k k₁ ∧ n ≤ k₁.cache.fill ∧
      (m ≠ 0 → k₁.cache.fill < n + 8 * (policy p o).chunk) ∧
      k'.cache.wf ∧ k'.cache.flow = k.cache.flow ∧ k'.cache.fill = k₁.cache.fill - n ∧
      k'.cache.queue = k₁.cache.queue.drop n ∧ k'.pos = k₁.pos ∧
      valueBits k.cache.flow (v.setWidth 64) n = k₁.cache.queue.take n ∧ v.toNat < 2 ^ n := by
  unfold getBits at h
  split at h
  · cases h
  rename_i hn
  obtain ⟨h1, h2⟩ := countFault_none.1 hn
  simp only [bind, Except.bind] at h
  split at h
  · cases h
  rename_i k₁ hk₁
  split at h
  · cases h
  rename_i x hx
  split at h
  · cases h
  rename_i c hc
  cases h
  obtain ⟨m, data, l, a, b⟩ := refillWhile_ok hr hk hf (by omega) hk₁
  obtain ⟨-, -, -, -, d1, d2⟩ := BitCache.peek_ok hx
  obtain ⟨-, e2, e3, e4, e5⟩ := BitCache.skip_ok l.wf hc
  exact ⟨h1, h2, m, data, k₁, l, a, b, e2, e3.trans l.flow, e4, e5, rfl, by rw [← l.flow]; exact d1, d2⟩

/-- GetBits completes when its count is legal and the chunks it needs stand in the rest of the window. -/
theorem getBits_fits {p : Config.Params} {o : BitOrder} {n m : Nat} {mem : Memory} {w : Window} {k : Cursor}
    (hr : w.inRange p = true) (hk : k.cache.wf) (hf : k.cache.flow = (policy p o).flow) (h1 : 1 ≤ n) (hn : n ≤ 32)
    (hm : n ≤ k.cache.fill + 8 * (policy p o).chunk * m) {data : List Byte}
    (hl : data.length = (policy p o).chunk * m) (hp : k.pos + (wireBytes o data).length ≤ w.len)
    (hh : HoldsAt mem (w.base + k.pos) (wireBytes o data)) : ∃ x, getBits p o n mem w k = .ok x := by
  obtain ⟨k₁, hk₁⟩ := refillWhile_fits (fuel := n) hr hk hf hn hm hl hp hh
  obtain ⟨-, -, l, a, -⟩ := refillWhile_ok hr hk hf (by omega) hk₁
  obtain ⟨c, hc⟩ := k₁.cache.skip_fits a
  unfold getBits
  rw [countFault_none.2 ⟨h1, hn⟩]
  simp only [bind, Except.bind, hk₁, BitCache.peek_fits h1 hn a, hc, pure, Except.pure]
  exact ⟨_, rfl⟩

/-- How GetBits fails on a session whose position is inside its window: a count fault before any read, or a read. -/
theorem getBits_error {p : Config.Params} {o : BitOrder} {n : Nat} {mem : Memory} {w : Window} {k : Cursor} {e : Raise}
    (hr : w.inRange p = true) (hk : k.cache.wf) (hf : k.cache.flow = (policy p o).flow) (hp : k.pos ≤ w.len)
    (h : getBits p o n mem w k = .error e) :
    countFault n k.cache.fill = some e ∨
      1 ≤ n ∧ n ≤ 32 ∧ ∃ pos, k.pos ≤ pos ∧ pos ≤ w.len ∧ ReadFailure p o w pos e := by
  unfold getBits at h
  split at h
  · rename_i x hx
    cases h
    exact .inl hx
  rename_i hn
  obtain ⟨h1, h2⟩ := countFault_none.1 hn
  refine .inr ⟨h1, h2, ?_⟩
  simp only [bind, Except.bind] at h
  split at h
  · cases h
    exact refillWhile_error h2 hp ‹_›
  rename_i k₁ hk₁
  obtain ⟨-, -, l, a, -⟩ := refillWhile_ok hr hk hf (by omega) hk₁
  rw [BitCache.peek_fits h1 h2 a] at h
  simp only at h
  obtain ⟨c, hc⟩ := k₁.cache.skip_fits a
  rw [hc] at h
  cases h

/-! ## Drain -/

theorem wordBytes_length (p : Config.Params) (o : BitOrder) (w : Word) : (wordBytes (policy p o) w).length = 4 := by
  unfold wordBytes
  rw [List.length_flatMap]
  rcases policy_chunk p o with h | h | h <;> rw [h] <;> simp [splitChunk_length]

theorem storeWordBytes_eq_wire (p : Config.Params) (o : BitOrder) (w : Word) :
    storeWordBytes p o w = wireBytes o (wordBytes (policy p o) w) := by
  unfold storeWordBytes wireBytes
  rw [policy_stuffing]
  by_cases h : o = .jpeg <;> simp [h]

/-- A drained word takes 4 to 8 window bytes (42_stream_engine.md R530; 44_jpeg_stuffing.md R720). -/
theorem storeWordBytes_length (p : Config.Params) (o : BitOrder) (w : Word) :
    4 ≤ (storeWordBytes p o w).length ∧ (storeWordBytes p o w).length ≤ 8 := by
  have := wireBytes_length o (wordBytes (policy p o) w)
  rw [wordBytes_length] at this
  rw [storeWordBytes_eq_wire]
  omega

/-- Bytes that fit the window are written there and nowhere else (42_stream_engine.md R530, R532). -/
theorem emitBytes_ok {p : Config.Params} {w : Window} {bytes : List Byte} {k k' : Sink} (hwf : Memory.wf k.mem)
    (h : emitBytes p w bytes k = .ok k') :
    k.pos + bytes.length ≤ w.len ∧ k'.pos = k.pos + bytes.length ∧ k'.cache = k.cache ∧ Memory.wf k'.mem ∧
      (Memory.within k.mem p.memSize → Memory.within k'.mem p.memSize) ∧
      ∀ b, Memory.read k'.mem b =
        if h : w.base + k.pos ≤ b ∧ b < w.base + k.pos + bytes.length then bytes[b - (w.base + k.pos)]'(by omega)
        else Memory.read k.mem b := by
  unfold emitBytes at h
  split at h
  · cases h
  simp only [bind, Except.bind] at h
  split at h
  · cases h
  rename_i m hm
  cases h
  obtain ⟨a1, -, a3, a4⟩ := memWriteBytes_ok hwf hm
  exact ⟨by omega, rfl, rfl, a1, a3, a4⟩

/-- Bytes that do not fit raise IoError; bytes that fit a window in range are written. -/
theorem emitBytes_error {p : Config.Params} {w : Window} {bytes : List Byte} {k : Sink} {e : Raise}
    (hr : w.inRange p = true) (hwf : Memory.wf k.mem) (h : emitBytes p w bytes k = .error e) :
    w.len < k.pos + bytes.length ∧ e = .ioError := by
  unfold emitBytes at h
  split at h
  · cases h
    exact ⟨‹_›, rfl⟩
  · exfalso
    rw [Window.inRange_iff] at hr
    by_cases hb : bytes = []
    · subst hb
      cases h
    · have : 0 < bytes.length := List.length_pos_iff.2 hb
      obtain ⟨m', e', -⟩ := memWriteBytes_eq hwf (a := w.base + k.pos) (bytes := bytes) (p := p) (by omega)
      rw [e'] at h
      cases h

/-- What a drain does: nothing below 32 bits, else the 32 oldest bits go to the sink (42_stream_engine.md R530). -/
theorem drainIfFull_ok {p : Config.Params} {o : BitOrder} {w : Window} {k k' : Sink} (hk : k.cache.wf)
    (hwf : Memory.wf k.mem) (h : drainIfFull p o w k = .ok k') :
    k.cache.fill < 32 ∧ k' = k ∨
      32 ≤ k.cache.fill ∧ k'.cache.wf ∧ k'.cache.flow = k.cache.flow ∧ k'.cache.fill = k.cache.fill - 32 ∧
        k'.cache.queue = k.cache.queue.drop 32 ∧
        ∃ v, valueBits k.cache.flow (v.setWidth 64) 32 = k.cache.queue.take 32 ∧
          k.pos + (storeWordBytes p o v).length ≤ w.len ∧ k'.pos = k.pos + (storeWordBytes p o v).length ∧
          Memory.wf k'.mem ∧ (Memory.within k.mem p.memSize → Memory.within k'.mem p.memSize) ∧
          ∀ b, Memory.read k'.mem b =
            if h : w.base + k.pos ≤ b ∧ b < w.base + k.pos + (storeWordBytes p o v).length then
              (storeWordBytes p o v)[b - (w.base + k.pos)]'(by omega)
            else Memory.read k.mem b := by
  unfold drainIfFull at h
  split at h
  · cases h
    exact .inl ⟨‹_›, rfl⟩
  rename_i h32
  have h32 : 32 ≤ k.cache.fill := by omega
  refine .inr ⟨h32, ?_⟩
  simp only [bind, Except.bind, BitCache.peek_fits (show 1 ≤ 32 by omega) (Nat.le_refl 32) h32] at h
  split at h
  · cases h
  rename_i k₁ hk₁
  split at h
  · cases h
  rename_i c hc
  cases h
  obtain ⟨a1, a2, a3, a4, a5, a6⟩ := emitBytes_ok hwf hk₁
  rw [a3] at hc
  obtain ⟨-, b2, b3, b4, b5⟩ := BitCache.skip_ok hk hc
  exact ⟨b2, b3, b4, b5, _, (BitCache.oldest_bits (Nat.le_refl 32) h32).1, a1, a2, a4, a5, a6⟩

/-- A drain into a window in range fails only because the sink is full (42_stream_engine.md R532). -/
theorem drainIfFull_error {p : Config.Params} {o : BitOrder} {w : Window} {k : Sink} {e : Raise}
    (hr : w.inRange p = true) (hwf : Memory.wf k.mem) (h : drainIfFull p o w k = .error e) :
    e = .ioError ∧ 32 ≤ k.cache.fill ∧
      ∃ v, valueBits k.cache.flow (v.setWidth 64) 32 = k.cache.queue.take 32 ∧
        w.len < k.pos + (storeWordBytes p o v).length := by
  unfold drainIfFull at h
  split at h
  · cases h
  rename_i h32
  have h32 : 32 ≤ k.cache.fill := by omega
  simp only [bind, Except.bind, BitCache.peek_fits (show 1 ≤ 32 by omega) (Nat.le_refl 32) h32] at h
  split at h
  · cases h
    obtain ⟨a, b⟩ := emitBytes_error hr hwf ‹_›
    exact ⟨b, h32, _, (BitCache.oldest_bits (Nat.le_refl 32) h32).1, a⟩
  rename_i k₁ hk₁
  split at h
  · rename_i hc
    cases h
    rw [(emitBytes_ok hwf hk₁).2.2.1] at hc
    have := (BitCache.skip_error.1 hc).1
    omega
  · cases h

theorem valueBits_lowBits (f : Flow) (v : DWord) {n k : Nat} (h : n ≤ k) :
    valueBits f (lowBits v k) n = valueBits f v n := by
  apply List.ext_getElem (by simp)
  intro i h₁ h₂
  simp only [valueBits_length] at h₁
  rw [valueBits_getElem, valueBits_getElem]
  cases f <;> simp only [lowBits_getLsbD]
  · have : i < k := by omega
    simp [this]
  · have : n - 1 - i < k := by omega
    simp [this]

/-- PutBits is a push of the n low bits and then a drain (42_stream_engine.md R533). -/
theorem putBits_ok {p : Config.Params} {o : BitOrder} {v : DWord} {n : Nat} {w : Window} {k k' : Sink}
    (hk : k.cache.wf) (h : putBits p o v n w k = .ok k') :
    n ≤ 32 ∧ ∃ c, c.wf ∧ c.flow = k.cache.flow ∧ c.fill = k.cache.fill + n ∧
      c.queue = k.cache.queue ++ valueBits k.cache.flow v n ∧ drainIfFull p o w { k with cache := c } = .ok k' := by
  unfold putBits at h
  split at h
  · cases h
  rename_i hn
  simp only [bind, Except.bind] at h
  split at h
  · cases h
  rename_i c hc
  obtain ⟨-, a2, a3, a4, a5⟩ := BitCache.push_ok hk hc
  rw [valueBits_lowBits _ _ (by omega)] at a5
  exact ⟨by omega, c, a2, a3, a4, a5, h⟩

/-- How PutBits fails with at most 32 bits cached: a count over 32, or a full sink (42_stream_engine.md R533, R534). -/
theorem putBits_error {p : Config.Params} {o : BitOrder} {v : DWord} {n : Nat} {w : Window} {k : Sink} {e : Raise}
    (hr : w.inRange p = true) (hwf : Memory.wf k.mem) (hfill : k.cache.fill ≤ 32) (h : putBits p o v n w k = .error e) :
    32 < n ∧ e = raiseFault .putOverMax k.cache.fill ∨ n ≤ 32 ∧ 32 ≤ k.cache.fill + n ∧ e = .ioError := by
  unfold putBits at h
  split at h
  · cases h
    exact .inl ⟨‹_›, rfl⟩
  rename_i hn
  simp only [bind, Except.bind] at h
  split at h
  · rename_i hc
    have := (BitCache.push_error.1 hc).1
    omega
  rename_i c hc
  obtain ⟨a, b, -⟩ := drainIfFull_error (k := { k with cache := c }) hr hwf h
  have hfl : c.fill = k.cache.fill + n := by
    unfold BitCache.push at hc
    split at hc
    · cases hc
    · cases hc; rfl
  simp only at b
  exact .inr ⟨by omega, by omega, a⟩

/-- Flush of an empty session does nothing; of another it pads to 32 bits and drains (42_stream_engine.md R540). -/
theorem flushBits_ok {p : Config.Params} {o : BitOrder} {w : Window} {k k' : Sink} (hk : k.cache.wf)
    (h : flushBits p o w k = .ok k') :
    k.cache.fill = 0 ∧ k' = k ∨
      k.cache.fill ≠ 0 ∧ ∃ c, c.wf ∧ c.flow = k.cache.flow ∧ c.fill = k.cache.fill + (32 - k.cache.fill) ∧
        c.queue = k.cache.queue ++ List.replicate (32 - k.cache.fill) false ∧
        drainIfFull p o w { k with cache := c } = .ok k' := by
  unfold flushBits at h
  split at h
  · cases h
    exact .inl ⟨‹_›, rfl⟩
  refine .inr ⟨‹_›, ?_⟩
  simp only [bind, Except.bind] at h
  split at h
  · cases h
  rename_i c hc
  obtain ⟨-, a2, a3, a4, a5⟩ := BitCache.push_ok hk hc
  refine ⟨c, a2, a3, a4, ?_, h⟩
  rw [a5]
  congr 1
  apply List.ext_getElem (by simp)
  intro i h₁ h₂
  rw [valueBits_getElem, List.getElem_replicate]
  cases k.cache.flow <;> simp

/-- How Flush fails with at most 32 bits cached: a full sink. -/
theorem flushBits_error {p : Config.Params} {o : BitOrder} {w : Window} {k : Sink} {e : Raise}
    (hr : w.inRange p = true) (hwf : Memory.wf k.mem) (hfill : k.cache.fill ≤ 32) (h : flushBits p o w k = .error e) :
    k.cache.fill ≠ 0 ∧ e = .ioError := by
  unfold flushBits at h
  split at h
  · cases h
  refine ⟨‹_›, ?_⟩
  simp only [bind, Except.bind] at h
  split at h
  · rename_i hc
    have := (BitCache.push_error.1 hc).1
    omega
  · rename_i c _
    exact (drainIfFull_error (k := { k with cache := c }) hr hwf h).1

end Sys2Proof.Machine
end

