-- ==== Sys2Proof/Laws/Packed.lean ====
section
/-! SUPPORT. The packed-pixel codec: loops over rows and columns, the addresses of elements, and what one pixel and one
padding of UNPACK and PACK do (43_packed_codec.md R603-R641). -/

namespace Sys2Proof.Machine

/-! ## Loops -/

variable {σ ε : Type}

/-- A loop that completes carries an invariant from its start to its end. -/
theorem foldlM_range_ok {f : σ → Nat → Except ε σ} {P : Nat → σ → Prop} {n : Nat} {x y : σ} (h0 : P 0 x)
    (next : ∀ i < n, ∀ u v, P i u → f u i = .ok v → P (i + 1) v) (h : (List.range n).foldlM f x = .ok y) : P n y := by
  induction n generalizing y with
  | zero =>
    cases h
    exact h0
  | succ n ih =>
    rw [List.range_succ, List.foldlM_append] at h
    cases hu : (List.range n).foldlM f x with
    | error e => rw [hu] at h; cases h
    | ok u =>
      rw [hu] at h
      have hv : f u n = .ok y := by
        simp only [bind, Except.bind, List.foldlM_cons, List.foldlM_nil] at h
        split at h <;> cases h
        assumption
      exact next n (by omega) u y (ih (fun i hi => next i (by omega)) hu) hv

/-- A loop completes when every turn does. -/
theorem foldlM_range_fits {f : σ → Nat → Except ε σ} {P : Nat → σ → Prop} {n : Nat} {x : σ} (h0 : P 0 x)
    (next : ∀ i < n, ∀ u, P i u → ∃ v, f u i = .ok v ∧ P (i + 1) v) :
    ∃ y, (List.range n).foldlM f x = .ok y ∧ P n y := by
  induction n with
  | zero => exact ⟨x, rfl, h0⟩
  | succ n ih =>
    obtain ⟨u, hu, hp⟩ := ih fun i hi => next i (by omega)
    obtain ⟨v, hv, hq⟩ := next n (by omega) u hp
    refine ⟨v, ?_, hq⟩
    rw [List.range_succ, List.foldlM_append, hu]
    simp [bind, Except.bind, hv, pure, Except.pure]

/-- A loop fails at one of its turns, after the turns before it completed. -/
theorem foldlM_range_error {f : σ → Nat → Except ε σ} {P : Nat → σ → Prop} {n : Nat} {x : σ} {e : ε} (h0 : P 0 x)
    (next : ∀ i < n, ∀ u v, P i u → f u i = .ok v → P (i + 1) v) (h : (List.range n).foldlM f x = .error e) :
    ∃ i < n, ∃ u, P i u ∧ f u i = .error e := by
  induction n with
  | zero => cases h
  | succ n ih =>
    rw [List.range_succ, List.foldlM_append] at h
    cases hu : (List.range n).foldlM f x with
    | error e' =>
      rw [hu] at h
      cases h
      obtain ⟨i, hi, u, hp⟩ := ih (fun i hi => next i (by omega)) hu
      exact ⟨i, by omega, u, hp⟩
    | ok u =>
      rw [hu] at h
      refine ⟨n, by omega, u, foldlM_range_ok h0 (fun i hi => next i (by omega)) hu, ?_⟩
      simp only [bind, Except.bind, List.foldlM_cons, List.foldlM_nil] at h
      split at h <;> cases h
      assumption

/-! ## Addresses -/

/-- An element of the rectangle lies inside the pixel region (20_memory.md R221; 43_packed_codec.md R604). -/
theorem pixelAddr_lt {p : Config.Params} {g : CfgRegs} {ety : ElemType} (h : (pixelRegion g ety).inRange p = true)
    {r c : Nat} (hr : r < g.dimRows.toNat) (hc : c < g.dimCols.toNat) :
    g.pixBase.toNat ≤ pixelAddr g ety r c ∧
      pixelAddr g ety r c + elemSize ety ≤ (pixelRegion g ety).base + (pixelRegion g ety).len ∧
      pixelAddr g ety r c + elemSize ety ≤ p.memSize := by
  rw [Window.inRange_iff] at h
  have hl : (pixelRegion g ety).len = elemSize ety * ((g.dimRows.toNat - 1) * g.pixPitch.toNat + g.dimCols.toNat) := by
    unfold pixelRegion
    rw [if_pos ⟨by omega, by omega⟩]
  have hb : (pixelRegion g ety).base = g.pixBase.toNat := rfl
  have h1 : r * g.pixPitch.toNat ≤ (g.dimRows.toNat - 1) * g.pixPitch.toNat := Nat.mul_le_mul_right _ (by omega)
  have h2 : elemSize ety * (r * g.pixPitch.toNat + c) + elemSize ety ≤
      elemSize ety * ((g.dimRows.toNat - 1) * g.pixPitch.toNat + g.dimCols.toNat) := by
    rw [← Nat.mul_succ]
    exact Nat.mul_le_mul_left _ (by omega)
  have h3 : 0 < elemSize ety := by cases ety <;> decide
  unfold pixelAddr
  rw [hl, hb]
  refine ⟨by omega, by omega, ?_⟩
  rcases h with h | h
  · rw [hl] at h
    have := Nat.le_of_lt_succ (Nat.lt_succ_of_le h2)
    omega
  · rw [hl, hb] at h
    omega

/-- The addresses of the pixel rectangle (43_packed_codec.md R620). -/
theorem mem_rectangleAddrs {g : CfgRegs} {ety : ElemType} {a : Nat} :
    a ∈ rectangleAddrs g ety ↔ ∃ r < g.dimRows.toNat, ∃ c < g.dimCols.toNat, ∃ i < elemSize ety,
      pixelAddr g ety r c + i = a := by
  simp [rectangleAddrs, List.mem_flatMap, List.mem_map]

/-- Two elements of the rectangle share no byte (10_state.md R111). -/
theorem pixelAddr_disjoint {g : CfgRegs} {ety : ElemType} (hp : g.dimCols.toNat ≤ g.pixPitch.toNat) {r c r' c' : Nat}
    (hc : c < g.dimCols.toNat) (hc' : c' < g.dimCols.toNat) {i i' : Nat} (hi : i < elemSize ety) (hi' : i' < elemSize ety)
    (h : pixelAddr g ety r c + i = pixelAddr g ety r' c' + i') : r = r' ∧ c = c' ∧ i = i' := by
  have e : elemSize ety * (r * g.pixPitch.toNat + c) + i = elemSize ety * (r' * g.pixPitch.toNat + c') + i' := by
    unfold pixelAddr at h
    omega
  have hpos : 0 < elemSize ety := by omega
  have hq : r * g.pixPitch.toNat + c = r' * g.pixPitch.toNat + c' := by
    have := congrArg (· / elemSize ety) e
    simpa [Nat.mul_add_div hpos, Nat.div_eq_of_lt hi, Nat.div_eq_of_lt hi'] using this
  have hi2 : i = i' := by rw [hq] at e; omega
  have hpp : 0 < g.pixPitch.toNat := by omega
  have hr : r = r' := by
    have := congrArg (· / g.pixPitch.toNat) hq
    have h1 : c < g.pixPitch.toNat := by omega
    have h2 : c' < g.pixPitch.toNat := by omega
    simpa [Nat.mul_comm _ g.pixPitch.toNat, Nat.mul_add_div hpp, Nat.div_eq_of_lt h1, Nat.div_eq_of_lt h2] using this
  subst hr
  exact ⟨rfl, by omega, hi2⟩

/-! ## Elements and the padding table -/

theorem elemSize_pos (ety : ElemType) : 0 < elemSize ety := by cases ety <;> decide

/-- PixRead inside MEM reads the element's bytes (20_memory.md R221). -/
theorem pixRead_eq {p : Config.Params} {g : CfgRegs} {ety : ElemType} {m : Memory} {r c : Nat}
    (h : pixelAddr g ety r c + elemSize ety ≤ p.memSize) :
    pixRead p g ety m r c =
      .ok (chunkValue p.pixEndian ((List.range (elemSize ety)).map fun i => Memory.read m (pixelAddr g ety r c + i))) := by
  unfold pixRead
  rw [memReadBytes_eq h]
  rfl

/-- PixWrite inside MEM writes the element's bytes and nothing else (20_memory.md R221). -/
theorem pixWrite_eq {p : Config.Params} {g : CfgRegs} {ety : ElemType} {m : Memory} (hwf : Memory.wf m) {r c : Nat}
    {v : Word} (h : pixelAddr g ety r c + elemSize ety ≤ p.memSize) :
    ∃ m', pixWrite p g ety m r c v = .ok m' ∧ Memory.wf m' ∧
      (Memory.within m p.memSize → Memory.within m' p.memSize) ∧
      ∀ b, Memory.read m' b =
        if h : pixelAddr g ety r c ≤ b ∧ b < pixelAddr g ety r c + elemSize ety then
          (splitChunk p.pixEndian v (elemSize ety))[b - pixelAddr g ety r c]'(by rw [splitChunk_length]; omega)
        else Memory.read m b := by
  unfold pixWrite
  obtain ⟨m', e, w, i, rd⟩ := memWriteBytes_eq hwf (p := p) (a := pixelAddr g ety r c)
    (bytes := splitChunk p.pixEndian v (elemSize ety)) (by rw [splitChunk_length]; exact h)
  refine ⟨m', e, w, i _ (by rw [splitChunk_length]; exact h), fun b => ?_⟩
  rw [rd b]
  simp only [splitChunk_length]

/-- PadRead inside MEM reads the entry's four bytes (20_memory.md R224). -/
theorem padRead_eq {p : Config.Params} {g : CfgRegs} {m : Memory} {r : Nat} (h : padEntryAddr g r + 4 ≤ p.memSize) :
    padRead p g m r = .ok (bytesValue ((List.range 4).map fun i => Memory.read m (padEntryAddr g r + i))) := by
  unfold padRead
  rw [memReadBytes_eq h]
  rfl

/-- PAD(r) is the constant or the table entry (43_packed_codec.md R641). -/
theorem padCount_eq {p : Config.Params} {g : CfgRegs} {m : Memory} {r : Nat}
    (h : g.padMode ≠ 0 → padEntryAddr g r + 4 ≤ p.memSize) : padCount p g m r = .ok (padAt m g r) := by
  unfold padCount padAt
  by_cases hm : g.padMode = 0
  · simp [hm]
  · rw [if_neg hm, if_neg hm, padRead_eq (h hm)]
    rfl

/-! ## Configuration checks -/

/-- What passing the checks gives UNPACK (43_packed_codec.md R604). -/
theorem codecFault_unpack_none {p : Config.Params} {o : BitOrder} {ety : ElemType} {cnt : Nat} {g : CfgRegs}
    (h : codecFault p .unpack o ety cnt g = none) :
    o ≠ .jpeg ∧ 1 ≤ pixelWidth ety cnt ∧ pixelWidth ety cnt ≤ 32 ∧ pixelWidth ety cnt ≤ 8 * elemSize ety ∧
      g.dimCols.toNat ≤ g.pixPitch.toNat ∧ g.pkRows = g.dimRows ∧ g.pkLen.toNat ≤ g.pkPitch.toNat ∧
      (packedRegion g).inRange p = true ∧ (pixelRegion g ety).inRange p = true ∧
      (packedRegion g).overlaps (pixelRegion g ety) = false := by
  have hw : 1 ≤ pixelWidth ety cnt := by
    have := elemSize_pos ety
    unfold pixelWidth
    split <;> omega
  simp only [codecFault, codecChecks, Option.map_eq_none_iff, List.find?_eq_none, List.forall_mem_cons] at h
  obtain ⟨h1, -, h3, h4, -, h6, -, h8, h9, h10, h11, -, h13, -, h15, -⟩ := h
  simp only [decide_eq_true_eq, not_not, Bool.and_eq_true, Bool.not_eq_true', true_and, Bool.not_eq_false] at *
  refine ⟨h1, hw, by omega, by omega, by rw [← h6]; omega, h8, by omega, h11, h13, by simpa using h15⟩

/-- What passing the checks gives PACK (43_packed_codec.md R604). -/
theorem codecFault_pack_none {p : Config.Params} {o : BitOrder} {ety : ElemType} {cnt : Nat} {g : CfgRegs}
    (h : codecFault p .pack o ety cnt g = none) :
    o ≠ .jpeg ∧ 1 ≤ pixelWidth ety cnt ∧ pixelWidth ety cnt = cnt ∧ pixelWidth ety cnt ≤ 32 ∧
      pixelWidth ety cnt ≤ 8 * elemSize ety ∧ g.padMode.toNat ≤ 1 ∧ g.dimCols.toNat ≤ g.pixPitch.toNat ∧
      (snkWindow g).inRange p = true ∧ (pixelRegion g ety).inRange p = true ∧ (padRegion g).inRange p = true ∧
      (pixelRegion g ety).overlaps (snkWindow g) = false ∧ (padRegion g).overlaps (snkWindow g) = false := by
  simp only [codecFault, codecChecks, Option.map_eq_none_iff, List.find?_eq_none, List.forall_mem_cons] at h
  obtain ⟨h1, h2, h3, h4, h5, h6, -, -, h9, -, -, h12, h13, h14, -, h16, h17, -⟩ := h
  simp only [decide_eq_true_eq, not_not, Bool.and_eq_true, Bool.not_eq_true', true_and, Bool.not_eq_false] at *
  have hw : pixelWidth ety cnt = cnt := by
    unfold pixelWidth
    rw [if_neg h2]
  refine ⟨h1, by omega, hw, by omega, by omega, by omega, by rw [← h6]; omega, h12, h13, h14, by simpa using h16,
    by simpa using h17⟩

/-- Packed row r lies inside the packed region (10_state.md R112; 43_packed_codec.md R604). -/
theorem packedRow_inRange {p : Config.Params} {g : CfgRegs} (h : (packedRegion g).inRange p = true) {r : Nat}
    (hr : r < g.dimRows.toNat) : (packedRow g r).inRange p = true := by
  rw [Window.inRange_iff] at *
  have hl : (packedRegion g).len = (g.dimRows.toNat - 1) * g.pkPitch.toNat + g.pkLen.toNat := by
    unfold packedRegion
    rw [if_pos (by omega)]
  have hb : (packedRegion g).base = g.srcBase.toNat := rfl
  have h1 : r * g.pkPitch.toNat ≤ (g.dimRows.toNat - 1) * g.pkPitch.toNat := Nat.mul_le_mul_right _ (by omega)
  simp only [packedRow]
  rcases h with h | h
  · left; omega
  · right; omega

/-! ## One pixel, one padding -/

/-- One pixel of UNPACK that completes: GetBits read it, and its element holds it (43_packed_codec.md R610). -/
theorem unpackPixel_ok {p : Config.Params} {o : BitOrder} {ety : ElemType} {w : Nat} {g : CfgRegs} {r c : Nat}
    {x y : Cursor × Memory} (h : unpackPixel p o ety w g r x c = .ok y) :
    ∃ v, getBits p o w x.2 (packedRow g r) x.1 = .ok (v, y.1) ∧ pixWrite p g ety x.2 r c v = .ok y.2 := by
  unfold unpackPixel at h
  split at h
  · cases h
  · rename_i v k hg
    simp only [bind, Except.bind] at h
    split at h
    · cases h
    · cases h
      exact ⟨v, hg, ‹_›⟩

/-- One pixel of UNPACK that fails: GetBits failed and the raise is tagged, or its element lies outside MEM
(43_packed_codec.md R620). -/
theorem unpackPixel_error {p : Config.Params} {o : BitOrder} {ety : ElemType} {w : Nat} {g : CfgRegs} {r c : Nat}
    {x : Cursor × Memory} {e : Raise} (h : unpackPixel p o ety w g r x c = .error e) :
    (∃ e', getBits p o w x.2 (packedRow g r) x.1 = .error e' ∧ e = e'.atPixel r c) ∨ ∃ b, e = .stop (.outsideMemory b) := by
  unfold unpackPixel at h
  split at h
  · rename_i e' hg
    cases h
    exact .inl ⟨e', hg, rfl⟩
  · simp only [bind, Except.bind] at h
    split at h
    · cases h
      exact .inr (memWriteBytes_error ‹_›)
    · cases h

theorem Sink.attempt_ok {k k' : Sink} {r : Except Raise Sink} (h : k.attempt r = .ok k') : r = .ok k' := by
  cases r with
  | ok a => cases h; rfl
  | error e => cases h

theorem Sink.attempt_error {k : Sink} {r : Except Raise Sink} {x : Raise × Sink} (h : k.attempt r = .error x) :
    r = .error x.1 ∧ x.2 = k := by
  cases r with
  | ok a => cases h
  | error e => cases h; exact ⟨rfl, rfl⟩

/-- One pixel of PACK: its element, put (43_packed_codec.md R640). -/
theorem packPixel_eq {p : Config.Params} {o : BitOrder} {ety : ElemType} {w : Nat} {g : CfgRegs} {r c : Nat} {k : Sink}
    (h : pixelAddr g ety r c + elemSize ety ≤ p.memSize) :
    packPixel p o ety w g r k c = k.attempt (putBits p o
      (chunkValue p.pixEndian ((List.range (elemSize ety)).map fun i => Memory.read k.mem (pixelAddr g ety r c + i))) w
      (snkWindow g) k) := by
  unfold packPixel
  rw [pixRead_eq h]
  rfl

/-- The padding after a row: PAD(r) zero bytes (43_packed_codec.md R640, R641). -/
theorem packPadding_eq {p : Config.Params} {g : CfgRegs} {r : Nat} {k : Sink}
    (h : g.padMode ≠ 0 → padEntryAddr g r + 4 ≤ p.memSize) :
    packPadding p g r k = k.attempt (emitBytes p (snkWindow g) (List.replicate (padAt k.mem g r) 0x00) k) := by
  unfold packPadding
  rw [padCount_eq h]
  rfl

end Sys2Proof.Machine
end

