-- ==== Sys2Proof/Laws/PerInstr.lean ====
section
/-! SUPPORT. The per-instruction family SelectsRow: what each instruction's encoding looks like to the decoder's table
(30_encoding.md R301, R316). One lemma per constructor. -/

namespace Sys2Proof.Laws

/-- The encoding of a row keeps the bits outside the row's fields at their fixed values (30_encoding.md R316). -/
theorem commandWord_matches (o : Opcode) (cnt : Nat) (ord : BitVec 3) (ety : BitVec 2)
    (hc : o.mask.extractLsb' 8 7 = 0 ∨ cnt = 0) (ho : ord &&& o.mask.extractLsb' 16 3 = 0)
    (he : ety &&& o.mask.extractLsb' 20 2 = 0) : commandWord o cnt ord ety &&& o.mask = o.matchWord := by
  have cut : ∀ w : Word, w = w.extractLsb' 22 10 ++ w.extractLsb' 20 2 ++ w.extractLsb' 19 1 ++ w.extractLsb' 16 3 ++
      w.extractLsb' 15 1 ++ w.extractLsb' 8 7 ++ w.extractLsb' 0 8 := by
    intro w
    apply BitVec.eq_of_getLsbD_eq
    intro i hi
    simp only [BitVec.getLsbD_append, BitVec.getLsbD_extractLsb']
    rcases (by omega : i < 8 ∨ 8 ≤ i ∧ i < 15 ∨ i = 15 ∨ 16 ≤ i ∧ i < 19 ∨ i = 19 ∨ 20 ≤ i ∧ i < 22 ∨ 22 ≤ i) with
      h | h | h | h | h | h | h
    · simp [h]
    · simp [show ¬ i < 8 by omega, show i - 8 < 7 by omega, show 8 + (i - 8) = i by omega]
    · subst h; simp
    · simp [show ¬ i < 8 by omega, show ¬ i - 8 < 7 by omega, show ¬ i - 8 - 7 = 0 by omega,
        show i - 8 - 7 - 1 < 3 by omega, show 16 + (i - 8 - 7 - 1) = i by omega]
    · subst h; simp
    · simp [show ¬ i < 8 by omega, show ¬ i - 8 < 7 by omega, show ¬ i - 8 - 7 = 0 by omega,
        show ¬ i - 8 - 7 - 1 < 3 by omega, show ¬ i - 8 - 7 - 1 - 3 = 0 by omega,
        show i - 8 - 7 - 1 - 3 - 1 < 2 by omega, show 20 + (i - 8 - 7 - 1 - 3 - 1) = i by omega]
    · simp [show ¬ i < 8 by omega, show ¬ i - 8 < 7 by omega, show ¬ i - 8 - 7 = 0 by omega,
        show ¬ i - 8 - 7 - 1 < 3 by omega, show ¬ i - 8 - 7 - 1 - 3 = 0 by omega,
        show ¬ i - 8 - 7 - 1 - 3 - 1 < 2 by omega, show i - 8 - 7 - 1 - 3 - 1 - 2 < 10 by omega,
        show 22 + (i - 8 - 7 - 1 - 3 - 1 - 2) = i by omega]
  have hcnt : BitVec.ofNat 7 cnt &&& o.mask.extractLsb' 8 7 = 0 := by
    rcases hc with h | h
    · rw [h]; simp
    · subst h; simp
  rw [cut o.mask]
  unfold commandWord
  have joined : ∀ (a a' : BitVec 10) (b b' : BitVec 2) (c c' : BitVec 1) (d d' : BitVec 3) (e e' : BitVec 1)
      (f f' : BitVec 7) (g g' : BitVec 8), (a ++ b ++ c ++ d ++ e ++ f ++ g) &&& (a' ++ b' ++ c' ++ d' ++ e' ++ f' ++ g') =
        (a &&& a') ++ (b &&& b') ++ (c &&& c') ++ (d &&& d') ++ (e &&& e') ++ (f &&& f') ++ (g &&& g') := by
    intros
    simp only [BitVec.and_append]
  refine (joined ..).trans ?_
  rw [hcnt, ho, he]
  cases o <;> rfl

/-- The word selects the row: its OPC is the row's, and it matches under the row's mask (30_encoding.md R316). -/
abbrev Selects (o : Opcode) (w : Word) : Prop := w.extractLsb' 0 8 = o.code ∧ w &&& o.mask = o.matchWord

/-- The header is that of a transaction of the kind, with the reserved bits 13:8 zero (30_encoding.md R301). -/
abbrev Announces (k : BitVec 2) (h : BitVec 16) : Prop := kindField h = k ∧ h.extractLsb' 8 6 = 0

/-- What an instruction's encoding shows the decoder: a command word selects the command's own row, a header announces
the transaction's own kind. -/
def SelectsRow.Statement (i : Instr) : Prop :=
  match i with
  | .nop => Selects .nop (encode i).word
  | .cinit _ => Selects .cinit (encode i).word
  | .cpush _ => Selects .cpush (encode i).word
  | .cpeek _ => Selects .cpeek (encode i).word
  | .cskip _ => Selects .cskip (encode i).word
  | .xhi _ _ => Selects .xhi (encode i).word
  | .xlo _ _ => Selects .xlo (encode i).word
  | .endSession => Selects .endSession (encode i).word
  | .dstart _ => Selects .dstart (encode i).word
  | .getbits _ => Selects .getbits (encode i).word
  | .estart _ => Selects .estart (encode i).word
  | .put _ => Selects .put (encode i).word
  | .flush => Selects .flush (encode i).word
  | .unpack _ _ _ => Selects .unpack (encode i).word
  | .pack _ _ _ => Selects .pack (encode i).word
  | .regrd idx => ∃ h, encode i = .transaction h 0 ∧ Announces 0 h ∧ indexField h = idx
  | .regwr idx data => ∃ h, encode i = .transaction h data ∧ Announces 1 h ∧ indexField h = idx
  | .reset => ∃ h, encode i = .transaction h 0 ∧ Announces 3 h ∧ indexField h = 0

theorem SelectsRow.nop : SelectsRow.Statement .nop := ⟨rfl, rfl⟩
theorem SelectsRow.cinit (fl : Flow) : SelectsRow.Statement (.cinit fl) := ⟨by cases fl <;> rfl, by cases fl <;> rfl⟩
theorem SelectsRow.cpush (cnt : Nat) : SelectsRow.Statement (.cpush cnt) :=
  ⟨commandWord_opc .., commandWord_matches _ _ _ _ (.inl rfl) rfl rfl⟩
theorem SelectsRow.cpeek (cnt : Nat) : SelectsRow.Statement (.cpeek cnt) :=
  ⟨commandWord_opc .., commandWord_matches _ _ _ _ (.inl rfl) rfl rfl⟩
theorem SelectsRow.cskip (cnt : Nat) : SelectsRow.Statement (.cskip cnt) :=
  ⟨commandWord_opc .., commandWord_matches _ _ _ _ (.inl rfl) rfl rfl⟩
theorem SelectsRow.xhi (width : ExtractWidth) (cnt : Nat) : SelectsRow.Statement (.xhi width cnt) :=
  ⟨commandWord_opc .., commandWord_matches _ _ _ _ (.inl rfl) (by cases width <;> rfl) rfl⟩
theorem SelectsRow.xlo (width : ExtractWidth) (cnt : Nat) : SelectsRow.Statement (.xlo width cnt) :=
  ⟨commandWord_opc .., commandWord_matches _ _ _ _ (.inl rfl) (by cases width <;> rfl) rfl⟩
theorem SelectsRow.endSession : SelectsRow.Statement .endSession := ⟨rfl, rfl⟩
theorem SelectsRow.dstart (ord : BitOrder) : SelectsRow.Statement (.dstart ord) :=
  ⟨commandWord_opc .., by cases ord <;> rfl⟩
theorem SelectsRow.getbits (cnt : Nat) : SelectsRow.Statement (.getbits cnt) :=
  ⟨commandWord_opc .., commandWord_matches _ _ _ _ (.inl rfl) rfl rfl⟩
theorem SelectsRow.estart (ord : BitOrder) : SelectsRow.Statement (.estart ord) :=
  ⟨commandWord_opc .., by cases ord <;> rfl⟩
theorem SelectsRow.put (cnt : Nat) : SelectsRow.Statement (.put cnt) :=
  ⟨commandWord_opc .., commandWord_matches _ _ _ _ (.inl rfl) rfl rfl⟩
theorem SelectsRow.flush : SelectsRow.Statement .flush := ⟨rfl, rfl⟩
theorem SelectsRow.unpack (ord : BitOrder) (ety : ElemType) (cnt : Nat) : SelectsRow.Statement (.unpack ord ety cnt) :=
  ⟨commandWord_opc .., commandWord_matches _ _ _ _ (.inl rfl) (by cases ord <;> rfl) (by cases ety <;> rfl)⟩
theorem SelectsRow.pack (ord : BitOrder) (ety : ElemType) (cnt : Nat) : SelectsRow.Statement (.pack ord ety cnt) :=
  ⟨commandWord_opc .., commandWord_matches _ _ _ _ (.inl rfl) (by cases ord <;> rfl) (by cases ety <;> rfl)⟩
theorem SelectsRow.regrd (idx : BitVec 8) : SelectsRow.Statement (.regrd idx) :=
  ⟨_, rfl, by revert idx; decide, by revert idx; decide⟩
theorem SelectsRow.regwr (idx : BitVec 8) (data : DWord) : SelectsRow.Statement (.regwr idx data) :=
  ⟨_, rfl, by revert idx; decide, by revert idx; decide⟩
theorem SelectsRow.reset : SelectsRow.Statement .reset := ⟨_, rfl, by decide, by decide⟩

end Sys2Proof.Laws
end

