-- ==== Sys2Proof/Laws/State.lean ====
section
/-! SUPPORT. What each named update of the state does to each field: one lemma per field per update. -/

namespace Sys2Proof.Machine

/-! ## setResult -/

@[simp] theorem State.setResult_result (s : State) (v : DWord) : (s.setResult v).result = v := rfl
@[simp] theorem State.setResult_data (s : State) (v : DWord) : (s.setResult v).data = s.data := rfl
@[simp] theorem State.setResult_faultCmd (s : State) (v : DWord) : (s.setResult v).faultCmd = s.faultCmd := rfl
@[simp] theorem State.setResult_faultInfo (s : State) (v : DWord) : (s.setResult v).faultInfo = s.faultInfo := rfl
@[simp] theorem State.setResult_faultRow (s : State) (v : DWord) : (s.setResult v).faultRow = s.faultRow := rfl
@[simp] theorem State.setResult_faultCol (s : State) (v : DWord) : (s.setResult v).faultCol = s.faultCol := rfl
@[simp] theorem State.setResult_srcPos (s : State) (v : DWord) : (s.setResult v).srcPos = s.srcPos := rfl
@[simp] theorem State.setResult_snkPos (s : State) (v : DWord) : (s.setResult v).snkPos = s.snkPos := rfl
@[simp] theorem State.setResult_cfg (s : State) (v : DWord) : (s.setResult v).cfg = s.cfg := rfl
@[simp] theorem State.setResult_cache (s : State) (v : DWord) : (s.setResult v).cache = s.cache := rfl
@[simp] theorem State.setResult_mode (s : State) (v : DWord) : (s.setResult v).mode = s.mode := rfl
@[simp] theorem State.setResult_order (s : State) (v : DWord) : (s.setResult v).order = s.order := rfl
@[simp] theorem State.setResult_faulted (s : State) (v : DWord) : (s.setResult v).faulted = s.faulted := rfl
@[simp] theorem State.setResult_cause (s : State) (v : DWord) : (s.setResult v).cause = s.cause := rfl
@[simp] theorem State.setResult_ioerr (s : State) (v : DWord) : (s.setResult v).ioerr = s.ioerr := rfl
@[simp] theorem State.setResult_mem (s : State) (v : DWord) : (s.setResult v).mem = s.mem := rfl
@[simp] theorem State.setResult_pending (s : State) (v : DWord) : (s.setResult v).pending = s.pending := rfl
@[simp] theorem State.setResult_response (s : State) (v : DWord) : (s.setResult v).response = s.response := rfl
@[simp] theorem State.setResult_draws (s : State) (v : DWord) : (s.setResult v).draws = s.draws := rfl

/-! ## setData -/

@[simp] theorem State.setData_result (s : State) (v : DWord) : (s.setData v).result = s.result := rfl
@[simp] theorem State.setData_data (s : State) (v : DWord) : (s.setData v).data = v := rfl
@[simp] theorem State.setData_faultCmd (s : State) (v : DWord) : (s.setData v).faultCmd = s.faultCmd := rfl
@[simp] theorem State.setData_faultInfo (s : State) (v : DWord) : (s.setData v).faultInfo = s.faultInfo := rfl
@[simp] theorem State.setData_faultRow (s : State) (v : DWord) : (s.setData v).faultRow = s.faultRow := rfl
@[simp] theorem State.setData_faultCol (s : State) (v : DWord) : (s.setData v).faultCol = s.faultCol := rfl
@[simp] theorem State.setData_srcPos (s : State) (v : DWord) : (s.setData v).srcPos = s.srcPos := rfl
@[simp] theorem State.setData_snkPos (s : State) (v : DWord) : (s.setData v).snkPos = s.snkPos := rfl
@[simp] theorem State.setData_cfg (s : State) (v : DWord) : (s.setData v).cfg = s.cfg := rfl
@[simp] theorem State.setData_cache (s : State) (v : DWord) : (s.setData v).cache = s.cache := rfl
@[simp] theorem State.setData_mode (s : State) (v : DWord) : (s.setData v).mode = s.mode := rfl
@[simp] theorem State.setData_order (s : State) (v : DWord) : (s.setData v).order = s.order := rfl
@[simp] theorem State.setData_faulted (s : State) (v : DWord) : (s.setData v).faulted = s.faulted := rfl
@[simp] theorem State.setData_cause (s : State) (v : DWord) : (s.setData v).cause = s.cause := rfl
@[simp] theorem State.setData_ioerr (s : State) (v : DWord) : (s.setData v).ioerr = s.ioerr := rfl
@[simp] theorem State.setData_mem (s : State) (v : DWord) : (s.setData v).mem = s.mem := rfl
@[simp] theorem State.setData_pending (s : State) (v : DWord) : (s.setData v).pending = s.pending := rfl
@[simp] theorem State.setData_response (s : State) (v : DWord) : (s.setData v).response = s.response := rfl
@[simp] theorem State.setData_draws (s : State) (v : DWord) : (s.setData v).draws = s.draws := rfl

/-! ## setCache -/

@[simp] theorem State.setCache_result (s : State) (c : BitCache) : (s.setCache c).result = s.result := rfl
@[simp] theorem State.setCache_data (s : State) (c : BitCache) : (s.setCache c).data = s.data := rfl
@[simp] theorem State.setCache_faultCmd (s : State) (c : BitCache) : (s.setCache c).faultCmd = s.faultCmd := rfl
@[simp] theorem State.setCache_faultInfo (s : State) (c : BitCache) : (s.setCache c).faultInfo = s.faultInfo := rfl
@[simp] theorem State.setCache_faultRow (s : State) (c : BitCache) : (s.setCache c).faultRow = s.faultRow := rfl
@[simp] theorem State.setCache_faultCol (s : State) (c : BitCache) : (s.setCache c).faultCol = s.faultCol := rfl
@[simp] theorem State.setCache_srcPos (s : State) (c : BitCache) : (s.setCache c).srcPos = s.srcPos := rfl
@[simp] theorem State.setCache_snkPos (s : State) (c : BitCache) : (s.setCache c).snkPos = s.snkPos := rfl
@[simp] theorem State.setCache_cfg (s : State) (c : BitCache) : (s.setCache c).cfg = s.cfg := rfl
@[simp] theorem State.setCache_cache (s : State) (c : BitCache) : (s.setCache c).cache = c := rfl
@[simp] theorem State.setCache_mode (s : State) (c : BitCache) : (s.setCache c).mode = s.mode := rfl
@[simp] theorem State.setCache_order (s : State) (c : BitCache) : (s.setCache c).order = s.order := rfl
@[simp] theorem State.setCache_faulted (s : State) (c : BitCache) : (s.setCache c).faulted = s.faulted := rfl
@[simp] theorem State.setCache_cause (s : State) (c : BitCache) : (s.setCache c).cause = s.cause := rfl
@[simp] theorem State.setCache_ioerr (s : State) (c : BitCache) : (s.setCache c).ioerr = s.ioerr := rfl
@[simp] theorem State.setCache_mem (s : State) (c : BitCache) : (s.setCache c).mem = s.mem := rfl
@[simp] theorem State.setCache_pending (s : State) (c : BitCache) : (s.setCache c).pending = s.pending := rfl
@[simp] theorem State.setCache_response (s : State) (c : BitCache) : (s.setCache c).response = s.response := rfl
@[simp] theorem State.setCache_draws (s : State) (c : BitCache) : (s.setCache c).draws = s.draws := rfl

/-! ## setSrcPos -/

@[simp] theorem State.setSrcPos_result (s : State) (n : Nat) : (s.setSrcPos n).result = s.result := rfl
@[simp] theorem State.setSrcPos_data (s : State) (n : Nat) : (s.setSrcPos n).data = s.data := rfl
@[simp] theorem State.setSrcPos_faultCmd (s : State) (n : Nat) : (s.setSrcPos n).faultCmd = s.faultCmd := rfl
@[simp] theorem State.setSrcPos_faultInfo (s : State) (n : Nat) : (s.setSrcPos n).faultInfo = s.faultInfo := rfl
@[simp] theorem State.setSrcPos_faultRow (s : State) (n : Nat) : (s.setSrcPos n).faultRow = s.faultRow := rfl
@[simp] theorem State.setSrcPos_faultCol (s : State) (n : Nat) : (s.setSrcPos n).faultCol = s.faultCol := rfl
@[simp] theorem State.setSrcPos_srcPos (s : State) (n : Nat) : (s.setSrcPos n).srcPos = BitVec.ofNat 32 n := rfl
@[simp] theorem State.setSrcPos_snkPos (s : State) (n : Nat) : (s.setSrcPos n).snkPos = s.snkPos := rfl
@[simp] theorem State.setSrcPos_cfg (s : State) (n : Nat) : (s.setSrcPos n).cfg = s.cfg := rfl
@[simp] theorem State.setSrcPos_cache (s : State) (n : Nat) : (s.setSrcPos n).cache = s.cache := rfl
@[simp] theorem State.setSrcPos_mode (s : State) (n : Nat) : (s.setSrcPos n).mode = s.mode := rfl
@[simp] theorem State.setSrcPos_order (s : State) (n : Nat) : (s.setSrcPos n).order = s.order := rfl
@[simp] theorem State.setSrcPos_faulted (s : State) (n : Nat) : (s.setSrcPos n).faulted = s.faulted := rfl
@[simp] theorem State.setSrcPos_cause (s : State) (n : Nat) : (s.setSrcPos n).cause = s.cause := rfl
@[simp] theorem State.setSrcPos_ioerr (s : State) (n : Nat) : (s.setSrcPos n).ioerr = s.ioerr := rfl
@[simp] theorem State.setSrcPos_mem (s : State) (n : Nat) : (s.setSrcPos n).mem = s.mem := rfl
@[simp] theorem State.setSrcPos_pending (s : State) (n : Nat) : (s.setSrcPos n).pending = s.pending := rfl
@[simp] theorem State.setSrcPos_response (s : State) (n : Nat) : (s.setSrcPos n).response = s.response := rfl
@[simp] theorem State.setSrcPos_draws (s : State) (n : Nat) : (s.setSrcPos n).draws = s.draws := rfl

/-! ## setSnkPos -/

@[simp] theorem State.setSnkPos_result (s : State) (n : Nat) : (s.setSnkPos n).result = s.result := rfl
@[simp] theorem State.setSnkPos_data (s : State) (n : Nat) : (s.setSnkPos n).data = s.data := rfl
@[simp] theorem State.setSnkPos_faultCmd (s : State) (n : Nat) : (s.setSnkPos n).faultCmd = s.faultCmd := rfl
@[simp] theorem State.setSnkPos_faultInfo (s : State) (n : Nat) : (s.setSnkPos n).faultInfo = s.faultInfo := rfl
@[simp] theorem State.setSnkPos_faultRow (s : State) (n : Nat) : (s.setSnkPos n).faultRow = s.faultRow := rfl
@[simp] theorem State.setSnkPos_faultCol (s : State) (n : Nat) : (s.setSnkPos n).faultCol = s.faultCol := rfl
@[simp] theorem State.setSnkPos_srcPos (s : State) (n : Nat) : (s.setSnkPos n).srcPos = s.srcPos := rfl
@[simp] theorem State.setSnkPos_snkPos (s : State) (n : Nat) : (s.setSnkPos n).snkPos = BitVec.ofNat 32 n := rfl
@[simp] theorem State.setSnkPos_cfg (s : State) (n : Nat) : (s.setSnkPos n).cfg = s.cfg := rfl
@[simp] theorem State.setSnkPos_cache (s : State) (n : Nat) : (s.setSnkPos n).cache = s.cache := rfl
@[simp] theorem State.setSnkPos_mode (s : State) (n : Nat) : (s.setSnkPos n).mode = s.mode := rfl
@[simp] theorem State.setSnkPos_order (s : State) (n : Nat) : (s.setSnkPos n).order = s.order := rfl
@[simp] theorem State.setSnkPos_faulted (s : State) (n : Nat) : (s.setSnkPos n).faulted = s.faulted := rfl
@[simp] theorem State.setSnkPos_cause (s : State) (n : Nat) : (s.setSnkPos n).cause = s.cause := rfl
@[simp] theorem State.setSnkPos_ioerr (s : State) (n : Nat) : (s.setSnkPos n).ioerr = s.ioerr := rfl
@[simp] theorem State.setSnkPos_mem (s : State) (n : Nat) : (s.setSnkPos n).mem = s.mem := rfl
@[simp] theorem State.setSnkPos_pending (s : State) (n : Nat) : (s.setSnkPos n).pending = s.pending := rfl
@[simp] theorem State.setSnkPos_response (s : State) (n : Nat) : (s.setSnkPos n).response = s.response := rfl
@[simp] theorem State.setSnkPos_draws (s : State) (n : Nat) : (s.setSnkPos n).draws = s.draws := rfl

/-! ## setMem -/

@[simp] theorem State.setMem_result (s : State) (m : Memory) : (s.setMem m).result = s.result := rfl
@[simp] theorem State.setMem_data (s : State) (m : Memory) : (s.setMem m).data = s.data := rfl
@[simp] theorem State.setMem_faultCmd (s : State) (m : Memory) : (s.setMem m).faultCmd = s.faultCmd := rfl
@[simp] theorem State.setMem_faultInfo (s : State) (m : Memory) : (s.setMem m).faultInfo = s.faultInfo := rfl
@[simp] theorem State.setMem_faultRow (s : State) (m : Memory) : (s.setMem m).faultRow = s.faultRow := rfl
@[simp] theorem State.setMem_faultCol (s : State) (m : Memory) : (s.setMem m).faultCol = s.faultCol := rfl
@[simp] theorem State.setMem_srcPos (s : State) (m : Memory) : (s.setMem m).srcPos = s.srcPos := rfl
@[simp] theorem State.setMem_snkPos (s : State) (m : Memory) : (s.setMem m).snkPos = s.snkPos := rfl
@[simp] theorem State.setMem_cfg (s : State) (m : Memory) : (s.setMem m).cfg = s.cfg := rfl
@[simp] theorem State.setMem_cache (s : State) (m : Memory) : (s.setMem m).cache = s.cache := rfl
@[simp] theorem State.setMem_mode (s : State) (m : Memory) : (s.setMem m).mode = s.mode := rfl
@[simp] theorem State.setMem_order (s : State) (m : Memory) : (s.setMem m).order = s.order := rfl
@[simp] theorem State.setMem_faulted (s : State) (m : Memory) : (s.setMem m).faulted = s.faulted := rfl
@[simp] theorem State.setMem_cause (s : State) (m : Memory) : (s.setMem m).cause = s.cause := rfl
@[simp] theorem State.setMem_ioerr (s : State) (m : Memory) : (s.setMem m).ioerr = s.ioerr := rfl
@[simp] theorem State.setMem_mem (s : State) (m : Memory) : (s.setMem m).mem = m := rfl
@[simp] theorem State.setMem_pending (s : State) (m : Memory) : (s.setMem m).pending = s.pending := rfl
@[simp] theorem State.setMem_response (s : State) (m : Memory) : (s.setMem m).response = s.response := rfl
@[simp] theorem State.setMem_draws (s : State) (m : Memory) : (s.setMem m).draws = s.draws := rfl

/-! ## setCfg -/

@[simp] theorem State.setCfg_result (s : State) (c : CfgRegs) : (s.setCfg c).result = s.result := rfl
@[simp] theorem State.setCfg_data (s : State) (c : CfgRegs) : (s.setCfg c).data = s.data := rfl
@[simp] theorem State.setCfg_faultCmd (s : State) (c : CfgRegs) : (s.setCfg c).faultCmd = s.faultCmd := rfl
@[simp] theorem State.setCfg_faultInfo (s : State) (c : CfgRegs) : (s.setCfg c).faultInfo = s.faultInfo := rfl
@[simp] theorem State.setCfg_faultRow (s : State) (c : CfgRegs) : (s.setCfg c).faultRow = s.faultRow := rfl
@[simp] theorem State.setCfg_faultCol (s : State) (c : CfgRegs) : (s.setCfg c).faultCol = s.faultCol := rfl
@[simp] theorem State.setCfg_srcPos (s : State) (c : CfgRegs) : (s.setCfg c).srcPos = s.srcPos := rfl
@[simp] theorem State.setCfg_snkPos (s : State) (c : CfgRegs) : (s.setCfg c).snkPos = s.snkPos := rfl
@[simp] theorem State.setCfg_cfg (s : State) (c : CfgRegs) : (s.setCfg c).cfg = c := rfl
@[simp] theorem State.setCfg_cache (s : State) (c : CfgRegs) : (s.setCfg c).cache = s.cache := rfl
@[simp] theorem State.setCfg_mode (s : State) (c : CfgRegs) : (s.setCfg c).mode = s.mode := rfl
@[simp] theorem State.setCfg_order (s : State) (c : CfgRegs) : (s.setCfg c).order = s.order := rfl
@[simp] theorem State.setCfg_faulted (s : State) (c : CfgRegs) : (s.setCfg c).faulted = s.faulted := rfl
@[simp] theorem State.setCfg_cause (s : State) (c : CfgRegs) : (s.setCfg c).cause = s.cause := rfl
@[simp] theorem State.setCfg_ioerr (s : State) (c : CfgRegs) : (s.setCfg c).ioerr = s.ioerr := rfl
@[simp] theorem State.setCfg_mem (s : State) (c : CfgRegs) : (s.setCfg c).mem = s.mem := rfl
@[simp] theorem State.setCfg_pending (s : State) (c : CfgRegs) : (s.setCfg c).pending = s.pending := rfl
@[simp] theorem State.setCfg_response (s : State) (c : CfgRegs) : (s.setCfg c).response = s.response := rfl
@[simp] theorem State.setCfg_draws (s : State) (c : CfgRegs) : (s.setCfg c).draws = s.draws := rfl

/-! ## setIoerr -/

@[simp] theorem State.setIoerr_result (s : State) (b : Bool) : (s.setIoerr b).result = s.result := rfl
@[simp] theorem State.setIoerr_data (s : State) (b : Bool) : (s.setIoerr b).data = s.data := rfl
@[simp] theorem State.setIoerr_faultCmd (s : State) (b : Bool) : (s.setIoerr b).faultCmd = s.faultCmd := rfl
@[simp] theorem State.setIoerr_faultInfo (s : State) (b : Bool) : (s.setIoerr b).faultInfo = s.faultInfo := rfl
@[simp] theorem State.setIoerr_faultRow (s : State) (b : Bool) : (s.setIoerr b).faultRow = s.faultRow := rfl
@[simp] theorem State.setIoerr_faultCol (s : State) (b : Bool) : (s.setIoerr b).faultCol = s.faultCol := rfl
@[simp] theorem State.setIoerr_srcPos (s : State) (b : Bool) : (s.setIoerr b).srcPos = s.srcPos := rfl
@[simp] theorem State.setIoerr_snkPos (s : State) (b : Bool) : (s.setIoerr b).snkPos = s.snkPos := rfl
@[simp] theorem State.setIoerr_cfg (s : State) (b : Bool) : (s.setIoerr b).cfg = s.cfg := rfl
@[simp] theorem State.setIoerr_cache (s : State) (b : Bool) : (s.setIoerr b).cache = s.cache := rfl
@[simp] theorem State.setIoerr_mode (s : State) (b : Bool) : (s.setIoerr b).mode = s.mode := rfl
@[simp] theorem State.setIoerr_order (s : State) (b : Bool) : (s.setIoerr b).order = s.order := rfl
@[simp] theorem State.setIoerr_faulted (s : State) (b : Bool) : (s.setIoerr b).faulted = s.faulted := rfl
@[simp] theorem State.setIoerr_cause (s : State) (b : Bool) : (s.setIoerr b).cause = s.cause := rfl
@[simp] theorem State.setIoerr_ioerr (s : State) (b : Bool) : (s.setIoerr b).ioerr = b := rfl
@[simp] theorem State.setIoerr_mem (s : State) (b : Bool) : (s.setIoerr b).mem = s.mem := rfl
@[simp] theorem State.setIoerr_pending (s : State) (b : Bool) : (s.setIoerr b).pending = s.pending := rfl
@[simp] theorem State.setIoerr_response (s : State) (b : Bool) : (s.setIoerr b).response = s.response := rfl
@[simp] theorem State.setIoerr_draws (s : State) (b : Bool) : (s.setIoerr b).draws = s.draws := rfl

/-! ## setResponse -/

@[simp] theorem State.setResponse_result (s : State) (r : Option DWord) : (s.setResponse r).result = s.result := rfl
@[simp] theorem State.setResponse_data (s : State) (r : Option DWord) : (s.setResponse r).data = s.data := rfl
@[simp] theorem State.setResponse_faultCmd (s : State) (r : Option DWord) : (s.setResponse r).faultCmd = s.faultCmd := rfl
@[simp] theorem State.setResponse_faultInfo (s : State) (r : Option DWord) : (s.setResponse r).faultInfo = s.faultInfo := rfl
@[simp] theorem State.setResponse_faultRow (s : State) (r : Option DWord) : (s.setResponse r).faultRow = s.faultRow := rfl
@[simp] theorem State.setResponse_faultCol (s : State) (r : Option DWord) : (s.setResponse r).faultCol = s.faultCol := rfl
@[simp] theorem State.setResponse_srcPos (s : State) (r : Option DWord) : (s.setResponse r).srcPos = s.srcPos := rfl
@[simp] theorem State.setResponse_snkPos (s : State) (r : Option DWord) : (s.setResponse r).snkPos = s.snkPos := rfl
@[simp] theorem State.setResponse_cfg (s : State) (r : Option DWord) : (s.setResponse r).cfg = s.cfg := rfl
@[simp] theorem State.setResponse_cache (s : State) (r : Option DWord) : (s.setResponse r).cache = s.cache := rfl
@[simp] theorem State.setResponse_mode (s : State) (r : Option DWord) : (s.setResponse r).mode = s.mode := rfl
@[simp] theorem State.setResponse_order (s : State) (r : Option DWord) : (s.setResponse r).order = s.order := rfl
@[simp] theorem State.setResponse_faulted (s : State) (r : Option DWord) : (s.setResponse r).faulted = s.faulted := rfl
@[simp] theorem State.setResponse_cause (s : State) (r : Option DWord) : (s.setResponse r).cause = s.cause := rfl
@[simp] theorem State.setResponse_ioerr (s : State) (r : Option DWord) : (s.setResponse r).ioerr = s.ioerr := rfl
@[simp] theorem State.setResponse_mem (s : State) (r : Option DWord) : (s.setResponse r).mem = s.mem := rfl
@[simp] theorem State.setResponse_pending (s : State) (r : Option DWord) : (s.setResponse r).pending = s.pending := rfl
@[simp] theorem State.setResponse_response (s : State) (r : Option DWord) : (s.setResponse r).response = r := rfl
@[simp] theorem State.setResponse_draws (s : State) (r : Option DWord) : (s.setResponse r).draws = s.draws := rfl

/-! ## openSession -/

@[simp] theorem State.openSession_result (s : State) (m : Mode) (f : Flow) (o : BitOrder) : (s.openSession m f o).result = s.result := rfl
@[simp] theorem State.openSession_data (s : State) (m : Mode) (f : Flow) (o : BitOrder) : (s.openSession m f o).data = s.data := rfl
@[simp] theorem State.openSession_faultCmd (s : State) (m : Mode) (f : Flow) (o : BitOrder) : (s.openSession m f o).faultCmd = s.faultCmd := rfl
@[simp] theorem State.openSession_faultInfo (s : State) (m : Mode) (f : Flow) (o : BitOrder) : (s.openSession m f o).faultInfo = s.faultInfo := rfl
@[simp] theorem State.openSession_faultRow (s : State) (m : Mode) (f : Flow) (o : BitOrder) : (s.openSession m f o).faultRow = s.faultRow := rfl
@[simp] theorem State.openSession_faultCol (s : State) (m : Mode) (f : Flow) (o : BitOrder) : (s.openSession m f o).faultCol = s.faultCol := rfl
@[simp] theorem State.openSession_srcPos (s : State) (m : Mode) (f : Flow) (o : BitOrder) : (s.openSession m f o).srcPos = s.srcPos := rfl
@[simp] theorem State.openSession_snkPos (s : State) (m : Mode) (f : Flow) (o : BitOrder) : (s.openSession m f o).snkPos = s.snkPos := rfl
@[simp] theorem State.openSession_cfg (s : State) (m : Mode) (f : Flow) (o : BitOrder) : (s.openSession m f o).cfg = s.cfg := rfl
@[simp] theorem State.openSession_cache (s : State) (m : Mode) (f : Flow) (o : BitOrder) : (s.openSession m f o).cache = BitCache.empty f := rfl
@[simp] theorem State.openSession_mode (s : State) (m : Mode) (f : Flow) (o : BitOrder) : (s.openSession m f o).mode = m := rfl
@[simp] theorem State.openSession_order (s : State) (m : Mode) (f : Flow) (o : BitOrder) : (s.openSession m f o).order = o := rfl
@[simp] theorem State.openSession_faulted (s : State) (m : Mode) (f : Flow) (o : BitOrder) : (s.openSession m f o).faulted = s.faulted := rfl
@[simp] theorem State.openSession_cause (s : State) (m : Mode) (f : Flow) (o : BitOrder) : (s.openSession m f o).cause = s.cause := rfl
@[simp] theorem State.openSession_ioerr (s : State) (m : Mode) (f : Flow) (o : BitOrder) : (s.openSession m f o).ioerr = s.ioerr := rfl
@[simp] theorem State.openSession_mem (s : State) (m : Mode) (f : Flow) (o : BitOrder) : (s.openSession m f o).mem = s.mem := rfl
@[simp] theorem State.openSession_pending (s : State) (m : Mode) (f : Flow) (o : BitOrder) : (s.openSession m f o).pending = s.pending := rfl
@[simp] theorem State.openSession_response (s : State) (m : Mode) (f : Flow) (o : BitOrder) : (s.openSession m f o).response = s.response := rfl
@[simp] theorem State.openSession_draws (s : State) (m : Mode) (f : Flow) (o : BitOrder) : (s.openSession m f o).draws = s.draws := rfl

/-! ## closeSession -/

@[simp] theorem State.closeSession_result (s : State) : s.closeSession.result = s.result := rfl
@[simp] theorem State.closeSession_data (s : State) : s.closeSession.data = s.data := rfl
@[simp] theorem State.closeSession_faultCmd (s : State) : s.closeSession.faultCmd = s.faultCmd := rfl
@[simp] theorem State.closeSession_faultInfo (s : State) : s.closeSession.faultInfo = s.faultInfo := rfl
@[simp] theorem State.closeSession_faultRow (s : State) : s.closeSession.faultRow = s.faultRow := rfl
@[simp] theorem State.closeSession_faultCol (s : State) : s.closeSession.faultCol = s.faultCol := rfl
@[simp] theorem State.closeSession_srcPos (s : State) : s.closeSession.srcPos = s.srcPos := rfl
@[simp] theorem State.closeSession_snkPos (s : State) : s.closeSession.snkPos = s.snkPos := rfl
@[simp] theorem State.closeSession_cfg (s : State) : s.closeSession.cfg = s.cfg := rfl
@[simp] theorem State.closeSession_cache (s : State) : s.closeSession.cache = BitCache.empty .lsbFirst := rfl
@[simp] theorem State.closeSession_mode (s : State) : s.closeSession.mode = .idle := rfl
@[simp] theorem State.closeSession_order (s : State) : s.closeSession.order = .lsb := rfl
@[simp] theorem State.closeSession_faulted (s : State) : s.closeSession.faulted = s.faulted := rfl
@[simp] theorem State.closeSession_cause (s : State) : s.closeSession.cause = s.cause := rfl
@[simp] theorem State.closeSession_ioerr (s : State) : s.closeSession.ioerr = s.ioerr := rfl
@[simp] theorem State.closeSession_mem (s : State) : s.closeSession.mem = s.mem := rfl
@[simp] theorem State.closeSession_pending (s : State) : s.closeSession.pending = s.pending := rfl
@[simp] theorem State.closeSession_response (s : State) : s.closeSession.response = s.response := rfl
@[simp] theorem State.closeSession_draws (s : State) : s.closeSession.draws = s.draws := rfl

/-! ## freeRectangle -/

@[simp] theorem State.freeRectangle_result (s : State) (e : ElemType) : (s.freeRectangle e).result = s.result := rfl
@[simp] theorem State.freeRectangle_data (s : State) (e : ElemType) : (s.freeRectangle e).data = s.data := rfl
@[simp] theorem State.freeRectangle_faultCmd (s : State) (e : ElemType) : (s.freeRectangle e).faultCmd = s.faultCmd := rfl
@[simp] theorem State.freeRectangle_faultInfo (s : State) (e : ElemType) : (s.freeRectangle e).faultInfo = s.faultInfo := rfl
@[simp] theorem State.freeRectangle_faultRow (s : State) (e : ElemType) : (s.freeRectangle e).faultRow = s.faultRow := rfl
@[simp] theorem State.freeRectangle_faultCol (s : State) (e : ElemType) : (s.freeRectangle e).faultCol = s.faultCol := rfl
@[simp] theorem State.freeRectangle_srcPos (s : State) (e : ElemType) : (s.freeRectangle e).srcPos = s.srcPos := rfl
@[simp] theorem State.freeRectangle_snkPos (s : State) (e : ElemType) : (s.freeRectangle e).snkPos = s.snkPos := rfl
@[simp] theorem State.freeRectangle_cfg (s : State) (e : ElemType) : (s.freeRectangle e).cfg = s.cfg := rfl
@[simp] theorem State.freeRectangle_cache (s : State) (e : ElemType) : (s.freeRectangle e).cache = s.cache := rfl
@[simp] theorem State.freeRectangle_mode (s : State) (e : ElemType) : (s.freeRectangle e).mode = s.mode := rfl
@[simp] theorem State.freeRectangle_order (s : State) (e : ElemType) : (s.freeRectangle e).order = s.order := rfl
@[simp] theorem State.freeRectangle_faulted (s : State) (e : ElemType) : (s.freeRectangle e).faulted = s.faulted := rfl
@[simp] theorem State.freeRectangle_cause (s : State) (e : ElemType) : (s.freeRectangle e).cause = s.cause := rfl
@[simp] theorem State.freeRectangle_ioerr (s : State) (e : ElemType) : (s.freeRectangle e).ioerr = s.ioerr := rfl
@[simp] theorem State.freeRectangle_mem (s : State) (e : ElemType) : (s.freeRectangle e).mem = (rectangleAddrs s.cfg e).foldl (fun m a => Memory.write m a (Config.freeByte s.draws a)) s.mem := rfl
@[simp] theorem State.freeRectangle_pending (s : State) (e : ElemType) : (s.freeRectangle e).pending = s.pending := rfl
@[simp] theorem State.freeRectangle_response (s : State) (e : ElemType) : (s.freeRectangle e).response = s.response := rfl
@[simp] theorem State.freeRectangle_draws (s : State) (e : ElemType) : (s.freeRectangle e).draws = s.draws + 1 := rfl

/-! ## faultEntry -/

@[simp] theorem State.faultEntry_result (s : State) (w : Word) (f : FaultRecord) : (s.faultEntry w f).result = s.result := rfl
@[simp] theorem State.faultEntry_data (s : State) (w : Word) (f : FaultRecord) : (s.faultEntry w f).data = s.data := rfl
@[simp] theorem State.faultEntry_faultCmd (s : State) (w : Word) (f : FaultRecord) : (s.faultEntry w f).faultCmd = w := rfl
@[simp] theorem State.faultEntry_faultInfo (s : State) (w : Word) (f : FaultRecord) : (s.faultEntry w f).faultInfo = BitVec.ofNat 32 f.info := rfl
@[simp] theorem State.faultEntry_faultRow (s : State) (w : Word) (f : FaultRecord) : (s.faultEntry w f).faultRow = BitVec.ofNat 32 f.row := rfl
@[simp] theorem State.faultEntry_faultCol (s : State) (w : Word) (f : FaultRecord) : (s.faultEntry w f).faultCol = BitVec.ofNat 32 f.col := rfl
@[simp] theorem State.faultEntry_srcPos (s : State) (w : Word) (f : FaultRecord) : (s.faultEntry w f).srcPos = s.srcPos := rfl
@[simp] theorem State.faultEntry_snkPos (s : State) (w : Word) (f : FaultRecord) : (s.faultEntry w f).snkPos = s.snkPos := rfl
@[simp] theorem State.faultEntry_cfg (s : State) (w : Word) (f : FaultRecord) : (s.faultEntry w f).cfg = s.cfg := rfl
@[simp] theorem State.faultEntry_cache (s : State) (w : Word) (f : FaultRecord) : (s.faultEntry w f).cache = s.cache := rfl
@[simp] theorem State.faultEntry_mode (s : State) (w : Word) (f : FaultRecord) : (s.faultEntry w f).mode = s.mode := rfl
@[simp] theorem State.faultEntry_order (s : State) (w : Word) (f : FaultRecord) : (s.faultEntry w f).order = s.order := rfl
@[simp] theorem State.faultEntry_faulted (s : State) (w : Word) (f : FaultRecord) : (s.faultEntry w f).faulted = true := rfl
@[simp] theorem State.faultEntry_cause (s : State) (w : Word) (f : FaultRecord) : (s.faultEntry w f).cause = f.cause := rfl
@[simp] theorem State.faultEntry_ioerr (s : State) (w : Word) (f : FaultRecord) : (s.faultEntry w f).ioerr = s.ioerr := rfl
@[simp] theorem State.faultEntry_mem (s : State) (w : Word) (f : FaultRecord) : (s.faultEntry w f).mem = s.mem := rfl
@[simp] theorem State.faultEntry_pending (s : State) (w : Word) (f : FaultRecord) : (s.faultEntry w f).pending = s.pending := rfl
@[simp] theorem State.faultEntry_response (s : State) (w : Word) (f : FaultRecord) : (s.faultEntry w f).response = s.response := rfl
@[simp] theorem State.faultEntry_draws (s : State) (w : Word) (f : FaultRecord) : (s.faultEntry w f).draws = s.draws := rfl

/-! ## resetBlock -/

@[simp] theorem State.resetBlock_result (s : State) : s.resetBlock.result = 0 := rfl
@[simp] theorem State.resetBlock_data (s : State) : s.resetBlock.data = 0 := rfl
@[simp] theorem State.resetBlock_faultCmd (s : State) : s.resetBlock.faultCmd = 0 := rfl
@[simp] theorem State.resetBlock_faultInfo (s : State) : s.resetBlock.faultInfo = 0 := rfl
@[simp] theorem State.resetBlock_faultRow (s : State) : s.resetBlock.faultRow = 0 := rfl
@[simp] theorem State.resetBlock_faultCol (s : State) : s.resetBlock.faultCol = 0 := rfl
@[simp] theorem State.resetBlock_srcPos (s : State) : s.resetBlock.srcPos = 0 := rfl
@[simp] theorem State.resetBlock_snkPos (s : State) : s.resetBlock.snkPos = 0 := rfl
@[simp] theorem State.resetBlock_cfg (s : State) : s.resetBlock.cfg = CfgRegs.zero := rfl
@[simp] theorem State.resetBlock_cache (s : State) : s.resetBlock.cache = BitCache.empty .lsbFirst := rfl
@[simp] theorem State.resetBlock_mode (s : State) : s.resetBlock.mode = .idle := rfl
@[simp] theorem State.resetBlock_order (s : State) : s.resetBlock.order = .lsb := rfl
@[simp] theorem State.resetBlock_faulted (s : State) : s.resetBlock.faulted = false := rfl
@[simp] theorem State.resetBlock_cause (s : State) : s.resetBlock.cause = .noFault := rfl
@[simp] theorem State.resetBlock_ioerr (s : State) : s.resetBlock.ioerr = false := rfl
@[simp] theorem State.resetBlock_mem (s : State) : s.resetBlock.mem = s.mem := rfl
@[simp] theorem State.resetBlock_pending (s : State) : s.resetBlock.pending = s.pending := rfl
@[simp] theorem State.resetBlock_response (s : State) : s.resetBlock.response = s.response := rfl
@[simp] theorem State.resetBlock_draws (s : State) : s.resetBlock.draws = s.draws := rfl

/-! ## setSink -/

@[simp] theorem State.setSink_result (s : State) (k : Sink) : (s.setSink k).result = s.result := rfl
@[simp] theorem State.setSink_data (s : State) (k : Sink) : (s.setSink k).data = s.data := rfl
@[simp] theorem State.setSink_faultCmd (s : State) (k : Sink) : (s.setSink k).faultCmd = s.faultCmd := rfl
@[simp] theorem State.setSink_faultInfo (s : State) (k : Sink) : (s.setSink k).faultInfo = s.faultInfo := rfl
@[simp] theorem State.setSink_faultRow (s : State) (k : Sink) : (s.setSink k).faultRow = s.faultRow := rfl
@[simp] theorem State.setSink_faultCol (s : State) (k : Sink) : (s.setSink k).faultCol = s.faultCol := rfl
@[simp] theorem State.setSink_srcPos (s : State) (k : Sink) : (s.setSink k).srcPos = s.srcPos := rfl
@[simp] theorem State.setSink_snkPos (s : State) (k : Sink) : (s.setSink k).snkPos = BitVec.ofNat 32 k.pos := rfl
@[simp] theorem State.setSink_cfg (s : State) (k : Sink) : (s.setSink k).cfg = s.cfg := rfl
@[simp] theorem State.setSink_cache (s : State) (k : Sink) : (s.setSink k).cache = k.cache := rfl
@[simp] theorem State.setSink_mode (s : State) (k : Sink) : (s.setSink k).mode = s.mode := rfl
@[simp] theorem State.setSink_order (s : State) (k : Sink) : (s.setSink k).order = s.order := rfl
@[simp] theorem State.setSink_faulted (s : State) (k : Sink) : (s.setSink k).faulted = s.faulted := rfl
@[simp] theorem State.setSink_cause (s : State) (k : Sink) : (s.setSink k).cause = s.cause := rfl
@[simp] theorem State.setSink_ioerr (s : State) (k : Sink) : (s.setSink k).ioerr = s.ioerr := rfl
@[simp] theorem State.setSink_mem (s : State) (k : Sink) : (s.setSink k).mem = k.mem := rfl
@[simp] theorem State.setSink_pending (s : State) (k : Sink) : (s.setSink k).pending = s.pending := rfl
@[simp] theorem State.setSink_response (s : State) (k : Sink) : (s.setSink k).response = s.response := rfl
@[simp] theorem State.setSink_draws (s : State) (k : Sink) : (s.setSink k).draws = s.draws := rfl

/-! ## taken -/

@[simp] theorem State.taken_result (s : State) (r : List HostAction) : (s.taken r).result = s.result := rfl
@[simp] theorem State.taken_data (s : State) (r : List HostAction) : (s.taken r).data = s.data := rfl
@[simp] theorem State.taken_faultCmd (s : State) (r : List HostAction) : (s.taken r).faultCmd = s.faultCmd := rfl
@[simp] theorem State.taken_faultInfo (s : State) (r : List HostAction) : (s.taken r).faultInfo = s.faultInfo := rfl
@[simp] theorem State.taken_faultRow (s : State) (r : List HostAction) : (s.taken r).faultRow = s.faultRow := rfl
@[simp] theorem State.taken_faultCol (s : State) (r : List HostAction) : (s.taken r).faultCol = s.faultCol := rfl
@[simp] theorem State.taken_srcPos (s : State) (r : List HostAction) : (s.taken r).srcPos = s.srcPos := rfl
@[simp] theorem State.taken_snkPos (s : State) (r : List HostAction) : (s.taken r).snkPos = s.snkPos := rfl
@[simp] theorem State.taken_cfg (s : State) (r : List HostAction) : (s.taken r).cfg = s.cfg := rfl
@[simp] theorem State.taken_cache (s : State) (r : List HostAction) : (s.taken r).cache = s.cache := rfl
@[simp] theorem State.taken_mode (s : State) (r : List HostAction) : (s.taken r).mode = s.mode := rfl
@[simp] theorem State.taken_order (s : State) (r : List HostAction) : (s.taken r).order = s.order := rfl
@[simp] theorem State.taken_faulted (s : State) (r : List HostAction) : (s.taken r).faulted = s.faulted := rfl
@[simp] theorem State.taken_cause (s : State) (r : List HostAction) : (s.taken r).cause = s.cause := rfl
@[simp] theorem State.taken_ioerr (s : State) (r : List HostAction) : (s.taken r).ioerr = s.ioerr := rfl
@[simp] theorem State.taken_mem (s : State) (r : List HostAction) : (s.taken r).mem = s.mem := rfl
@[simp] theorem State.taken_pending (s : State) (r : List HostAction) : (s.taken r).pending = r := rfl
@[simp] theorem State.taken_response (s : State) (r : List HostAction) : (s.taken r).response = none := rfl
@[simp] theorem State.taken_draws (s : State) (r : List HostAction) : (s.taken r).draws = s.draws := rfl

/-! ## withFetchWord -/

@[simp] theorem State.withFetchWord_result (s : State) (n w : Nat) : (s.withFetchWord n w).result = s.result := rfl
@[simp] theorem State.withFetchWord_data (s : State) (n w : Nat) : (s.withFetchWord n w).data = s.data := rfl
@[simp] theorem State.withFetchWord_faultCmd (s : State) (n w : Nat) : (s.withFetchWord n w).faultCmd = s.faultCmd := rfl
@[simp] theorem State.withFetchWord_faultInfo (s : State) (n w : Nat) : (s.withFetchWord n w).faultInfo = s.faultInfo := rfl
@[simp] theorem State.withFetchWord_faultRow (s : State) (n w : Nat) : (s.withFetchWord n w).faultRow = s.faultRow := rfl
@[simp] theorem State.withFetchWord_faultCol (s : State) (n w : Nat) : (s.withFetchWord n w).faultCol = s.faultCol := rfl
@[simp] theorem State.withFetchWord_srcPos (s : State) (n w : Nat) : (s.withFetchWord n w).srcPos = s.srcPos := rfl
@[simp] theorem State.withFetchWord_snkPos (s : State) (n w : Nat) : (s.withFetchWord n w).snkPos = s.snkPos := rfl
@[simp] theorem State.withFetchWord_cfg (s : State) (n w : Nat) : (s.withFetchWord n w).cfg = s.cfg := rfl
@[simp] theorem State.withFetchWord_cache (s : State) (n w : Nat) : (s.withFetchWord n w).cache = s.cache := rfl
@[simp] theorem State.withFetchWord_mode (s : State) (n w : Nat) : (s.withFetchWord n w).mode = s.mode := rfl
@[simp] theorem State.withFetchWord_order (s : State) (n w : Nat) : (s.withFetchWord n w).order = s.order := rfl
@[simp] theorem State.withFetchWord_faulted (s : State) (n w : Nat) : (s.withFetchWord n w).faulted = s.faulted := rfl
@[simp] theorem State.withFetchWord_cause (s : State) (n w : Nat) : (s.withFetchWord n w).cause = s.cause := rfl
@[simp] theorem State.withFetchWord_ioerr (s : State) (n w : Nat) : (s.withFetchWord n w).ioerr = s.ioerr := rfl
@[simp] theorem State.withFetchWord_mem (s : State) (n w : Nat) : (s.withFetchWord n w).mem = s.mem := rfl
@[simp] theorem State.withFetchWord_pending (s : State) (n w : Nat) : (s.withFetchWord n w).pending = tableWordAction n w :: s.pending := rfl
@[simp] theorem State.withFetchWord_response (s : State) (n w : Nat) : (s.withFetchWord n w).response = s.response := rfl
@[simp] theorem State.withFetchWord_draws (s : State) (n w : Nat) : (s.withFetchWord n w).draws = s.draws := rfl

end Sys2Proof.Machine
end

