-- ==== Sys2Proof/Tests/Slice0.lean ====
section
/-! SUPPORT. Tests: the well-formedness smoke test, decoding of words written out from the tables of 30_encoding.md, one-step
tests whose expected values are the worked examples of the rules, and a witness for the hypotheses of each statement. -/

namespace Sys2Proof.Tests

open Sys2Proof.Machine

/-! ## Well-formedness: a count of 128 fits no CNT field (30_encoding.md R310) -/

theorem smoke_cpush : (Instr.cpush 128).wellFormed = false := by decide
theorem smoke_cpeek : (Instr.cpeek 128).wellFormed = false := by decide
theorem smoke_cskip : (Instr.cskip 128).wellFormed = false := by decide
theorem smoke_xhi : (Instr.xhi .w64 128).wellFormed = false := by decide
theorem smoke_xlo : (Instr.xlo .w8 128).wellFormed = false := by decide
theorem smoke_getbits : (Instr.getbits 128).wellFormed = false := by decide
theorem smoke_put : (Instr.put 128).wellFormed = false := by decide
theorem smoke_unpack : (Instr.unpack .lsb .u8 128).wellFormed = false := by decide
theorem smoke_pack : (Instr.pack .lsb .u8 128).wellFormed = false := by decide
theorem smoke_fits : (Instr.cpush 127).wellFormed = true := by decide

/-! ## Decoding: the bits are written from 31 down as reserved_ETY_reserved_ORD_reserved_CNT_OPC (30_encoding.md R310,
R316), a header as KIND_reserved_IDX (R301) -/

theorem decode_nop : decodeCommand 0b0000000000_00_0_000_0_0000000_00000000 = .ok .nop := by decide
theorem decode_cinit : decodeCommand 0b0000000000_00_0_001_0_0000000_00000001 = .ok (.cinit .msbFirst) := by decide
theorem decode_cpush : decodeCommand 0b0000000000_00_0_000_0_1000000_00000010 = .ok (.cpush 64) := by decide
theorem decode_cpeek : decodeCommand 0b0000000000_00_0_000_0_0100000_00000011 = .ok (.cpeek 32) := by decide
theorem decode_cskip : decodeCommand 0b0000000000_00_0_000_0_1111111_00000100 = .ok (.cskip 127) := by decide
theorem decode_xhi : decodeCommand 0b0000000000_00_0_011_0_0000011_00000101 = .ok (.xhi .w64 3) := by decide
theorem decode_xlo : decodeCommand 0b0000000000_00_0_001_0_0001001_00000110 = .ok (.xlo .w16 9) := by decide
theorem decode_end : decodeCommand 0b0000000000_00_0_000_0_0000000_00001111 = .ok .endSession := by decide
theorem decode_dstart : decodeCommand 0b0000000000_00_0_010_0_0000000_00010000 = .ok (.dstart .msb16) := by decide
theorem decode_getbits : decodeCommand 0b0000000000_00_0_000_0_0001100_00010001 = .ok (.getbits 12) := by decide
theorem decode_estart : decodeCommand 0b0000000000_00_0_100_0_0000000_00011000 = .ok (.estart .jpeg) := by decide
theorem decode_put : decodeCommand 0b0000000000_00_0_000_0_0010100_00011001 = .ok (.put 20) := by decide
theorem decode_flush : decodeCommand 0b0000000000_00_0_000_0_0000000_00011010 = .ok .flush := by decide
theorem decode_unpack : decodeCommand 0b0000000000_01_0_011_0_0001100_00100000 = .ok (.unpack .msb32 .u16 12) := by decide
theorem decode_pack : decodeCommand 0b0000000000_10_0_001_0_0100000_00100001 = .ok (.pack .msb .u32 32) := by decide
theorem decode_regrd : decodeTransaction 0b00_000000_00011011 0 = .ok (.regrd 0x1B) := by decide
theorem decode_regwr : decodeTransaction 0b01_000000_00000010 0xA = .ok (.regwr 0x02 0xA) := by decide
theorem decode_reset : decodeTransaction 0b11_000000_00000000 0 = .ok .reset := by decide
theorem decode_tableWord : decodeTableWord 32 0x00000C11 = some (.getbits 12) := by decide
theorem decode_tableHeader : decodeTableWord 16 0x4002 = some (.regwr 0x02 0) := by decide

/-! ## One step -/

/-- The instruction answers a next state of which the test holds. -/
def runs (i : Instr) (s : State) (test : State → Bool) : Bool :=
  match exec i s with
  | .next t => test t
  | .fault _ => false
  | .refused _ => false

/-- MEM with these bytes at an address. -/
def bytesAt (a : Nat) : List Byte → Memory
  | [] => []
  | b :: bs => Memory.write (bytesAt (a + 1) bs) a b

/-- MEM reads these bytes at an address. -/
def reads (m : Memory) (a : Nat) : List Byte → Bool
  | [] => true
  | b :: bs => Memory.read m a == b && reads m (a + 1) bs

/-- STATUS as the host reads it. -/
def status (s : State) : DWord := regRead s 0x00

/-- A raw session holding the 12 bits of the examples of 41_bit_cache.md R420 and R430. -/
def raw12 : State :=
  { State.reset with cache := { bits := 0xA3C0000000000000, fill := 12, flow := .msbFirst }, mode := .raw }

/-- A raw session whose cache is empty, with DATA = 0xA (41_bit_cache.md R410). -/
def rawEmpty (f : Flow) : State := { State.reset with cache := BitCache.empty f, mode := .raw, data := 0xA }

/-- A decode session at the start of a window over these bytes at 0x100. -/
def decoding (o : BitOrder) (bytes : List Byte) : State :=
  { State.reset with
    mem := bytesAt 0x100 bytes
    cfg := { CfgRegs.zero with srcBase := 0x100, srcLen := BitVec.ofNat 32 bytes.length }
    cache := BitCache.empty (policy Config.rsbc o).flow
    mode := .dec
    order := o }

/-- An encode session over a window of `cap` bytes at 0x200, with this cache and this DATA. -/
def encoding (o : BitOrder) (cap : Word) (c : BitCache) (d : DWord) : State :=
  { State.reset with
    cfg := { CfgRegs.zero with snkBase := 0x200, snkCap := cap }
    cache := c
    mode := .enc
    order := o
    data := d }

/-- The configuration of the packed example: one row of 7 pixels at 0x300, 4 packed bytes at 0x100, a sink at 0x200
(43_packed_codec.md R610, R640). -/
def packedCfg : CfgRegs :=
  { CfgRegs.zero with
    srcBase := 0x100, snkBase := 0x200, snkCap := 8, dimCols := 7, dimRows := 1, pixBase := 0x300, pixLen := 7
    pixPitch := 7, pixRows := 1, pkLen := 4, pkPitch := 4, pkRows := 1 }

/-- IDLE, with the packed bytes and the pixels of the example. -/
def packedState : State :=
  { State.reset with
    cfg := packedCfg
    mem := bytesAt 0x100 [0x21, 0x43, 0x65, 0x07] ++ bytesAt 0x300 [1, 2, 3, 4, 5, 6, 7] }

theorem test_nop_clears_ioerr : runs .nop { State.reset with ioerr := true } (fun t => t == State.reset) = true := by decide
theorem test_cinit_status : runs (.cinit .msbFirst) State.reset (fun t => status t == 0x14) = true := by decide
theorem test_cpush_msb :
    runs (.cpush 4) (rawEmpty .msbFirst) (fun t => t.cache.bits == 0xA000000000000000 && t.cache.fill == 4) = true := by decide
theorem test_cpush_lsb :
    runs (.cpush 4) (rawEmpty .lsbFirst) (fun t => t.cache.bits == 0xA && t.cache.fill == 4) = true := by decide
theorem test_cpeek_4 : runs (.cpeek 4) raw12 (fun t => t.result == 0xA) = true := by decide
theorem test_cpeek_12 : runs (.cpeek 12) raw12 (fun t => t.result == 0xA3C && t.cache == raw12.cache) = true := by decide
theorem test_cskip_4 :
    runs (.cskip 4) raw12 (fun t => t.cache.bits == 0x3C00000000000000 && t.cache.fill == 8) = true := by decide
theorem test_cskip_over_fill :
    runs (.cskip 13) raw12 (fun t => t.cause == .skipOverFill && t.faultInfo == 12 && t.cache == raw12.cache) = true := by
  decide
theorem test_xhi : runs (.xhi .w8 3) { State.reset with data := 0xFF } (fun t => t.result == 0xE0) = true := by decide
theorem test_xlo : runs (.xlo .w8 3) { State.reset with data := 0xFF } (fun t => t.result == 0x07) = true := by decide
theorem test_xhi_over_width :
    runs (.xhi .w8 9) State.reset (fun t => t.cause == .extractOverWidth && t.faultInfo == 8) = true := by decide
theorem test_end_unflushed :
    runs .endSession (encoding .lsb 4 { bits := 5, fill := 3, flow := .lsbFirst } 0)
      (fun t => status t == 0x000D030D && t.faultInfo == 3) = true := by decide
theorem test_end_flushed : runs .endSession (encoding .lsb 4 (BitCache.empty .lsbFirst) 0) (fun t => status t == 0) = true := by
  decide
theorem test_dstart_status :
    runs (.dstart .msb16) { State.reset with cfg := { CfgRegs.zero with srcBase := 0x100, srcLen := 4 } }
      (fun t => status t == 0x58) = true := by decide
theorem test_estart_status : runs (.estart .lsb) State.reset (fun t => status t == 0x0C) = true := by decide
theorem test_getbits_msb16 :
    runs (.getbits 12) (decoding .msb16 [0x12, 0x34, 0x56, 0x78])
      (fun t => t.result == 0x341 && t.cache.fill == 4 && t.srcPos == 2) = true := by decide
theorem test_getbits_escaped_pair :
    runs (.getbits 8) (decoding .jpeg [0xFF, 0x00, 0x12, 0x34, 0x56])
      (fun t => t.result == 0xFF && t.srcPos == 5 && status t == 0x00001898) = true := by decide
theorem test_put_straddling_sentinel :
    runs (.put 20) (encoding .jpeg 16 { bits := 0xFFF0000000000000, fill := 12, flow := .msbFirst } 0xF0FF0)
      (fun t => reads t.mem 0x200 [0xFF, 0x00, 0xFF, 0x00, 0x0F, 0xF0] && t.snkPos == 6 && t.cache.fill == 0) = true := by
  decide
theorem test_put_full_sink :
    runs (.put 32) (encoding .msb 3 (BitCache.empty .msbFirst) 0xFFFFFFFF)
      (fun t => t.ioerr && t.cache.fill == 0 && t.snkPos == 0 && t.mem == []) = true := by decide
theorem test_flush_seven_nibbles :
    runs .flush (encoding .lsb 4 { bits := 0x7654321, fill := 28, flow := .lsbFirst } 0)
      (fun t => reads t.mem 0x200 [0x21, 0x43, 0x65, 0x07] && t.snkPos == 4 && t.cache.fill == 0) = true := by decide
theorem test_unpack_nibbles :
    runs (.unpack .lsb .u8 4) packedState (fun t => reads t.mem 0x300 [1, 2, 3, 4, 5, 6, 7, 0] && status t == 0) = true := by
  decide
theorem test_pack_nibbles :
    runs (.pack .lsb .u8 4) packedState (fun t => reads t.mem 0x200 [0x21, 0x43, 0x65, 0x07] && t.snkPos == 4) = true := by
  decide
theorem test_pack_pad_mode :
    runs (.pack .lsb .u8 4) { packedState with cfg := { packedCfg with padMode := 2 } }
      (fun t => t.cause == .cfgInvalid && t.faultInfo == 5) = true := by decide
theorem test_regrd_data : runs (.regrd 0x02) (rawEmpty .lsbFirst) (fun t => t.response == some 0xA) = true := by decide
theorem test_regwr_cfg_in_session : runs (.regwr 0x08 7) raw12 (fun t => t == raw12) = true := by decide
theorem test_regwr_illegal :
    runs (.regwr 0x1F 0x8000) State.reset (fun t => status t == 0x00010001 && t.faultCmd == 0x8000) = true := by decide
theorem test_reset_leaves_fault :
    runs .reset { State.reset with faulted := true, cause := .badMode } (fun t => t == State.reset) = true := by decide
/-- 20_memory.md R212. -/
theorem test_chunk_value : chunkValue .little [0x2A, 0x00] = 42 ∧ chunkValue .big [0x2A, 0x00] = 10752 := by decide
/-- A step takes the host's next action: here `WR CMD, CINIT.MSBF`. -/
theorem test_step_withFetchWord :
    (match step (State.reset.withFetchWord 32 0x00010001) with
     | .next t => t.mode == .raw && t.pending == []
     | .fault _ => false
     | .refused _ => false) = true := by decide

/-! ## Witnesses: a concrete state and operands that meet the hypotheses of each statement, at the boundaries of its
clauses. The names are those of the statements. -/

/-- `s` with one host action pending. -/
def asked (s : State) (a : HostAction) : State := { s with pending := [a] }

/-- FAULTED after a BAD_MODE. -/
def stuck : State := { State.reset with faulted := true, cause := .badMode, faultCmd := 0x1A }

/-- An encode session with 31 bits cached and `cap` bytes of sink. -/
def encoding31 (cap : Word) : State := encoding .msb16 cap { bits := 0x123456789ABCDEFE >>> 1 <<< 33, fill := 31, flow := .msbFirst } 1

theorem witness_DecodeOfEncode :
    (Instr.pack .msb32 .u32 127).wellFormed = true ∧ (Instr.cpush 0).wellFormed = true ∧ Instr.reset.wellFormed = true := by
  decide
theorem witness_EncodeOfDecode :
    decodeCommand 0x00237F20 = .ok (.unpack .msb32 .u32 127) ∧ decodeTransaction 0x40FF 5 = .ok (.regwr 0xFF 5) ∧
      decodeTransaction 0x00FF 5 = .ok (.regrd 0xFF) ∧ decodeTransaction 0xC000 5 = .ok .reset := by decide
theorem witness_IllegalWordsFault_opcode : illegalWord 0x00000007 := by decide
theorem witness_IllegalWordsFault_bit15 : illegalWord 0x00008000 := by decide
theorem witness_IllegalWordsFault_bit19 : illegalWord 0x00080010 := by decide
theorem witness_IllegalWordsFault_bit22 : illegalWord 0x00400020 := by decide
theorem witness_IllegalWordsFault_unusedCount : illegalWord 0x0000010F := by decide
theorem witness_IllegalWordsFault_unusedOrder : illegalWord 0x00010002 := by decide
theorem witness_IllegalWordsFault_unusedFlow : illegalWord 0x00020001 := by decide
theorem witness_IllegalWordsFault_unusedWidth : illegalWord 0x00040005 := by decide
theorem witness_IllegalWordsFault_unusedElement : illegalWord 0x00100010 := by decide
theorem witness_IllegalWordsFault_order : illegalWord 0x00050010 := by decide
theorem witness_IllegalWordsFault_orderLegal : ¬ illegalWord 0x00040010 := by decide
theorem witness_IllegalWordsFault_element : illegalWord 0x00300020 := by decide
theorem witness_IllegalWordsFault_elementLegal : ¬ illegalWord 0x00200020 := by decide
theorem witness_IllegalWordsFault :
    illegalWord 0x00008000 ∧ (0x0000000100008000 : DWord).setWidth 32 = (0x00008000 : Word) ∧ State.reset.faulted = false := by
  decide
theorem witness_OpcodeRowsSelect_masks :
    (0x00010001 : Word) &&& 0xFFFEFFFF = 0x00000001 ∧ (0x00007F02 : Word) &&& 0xFFFF80FF = 0x00000002 ∧
      (0x00007F03 : Word) &&& 0xFFFF80FF = 0x00000003 ∧ (0x00007F04 : Word) &&& 0xFFFF80FF = 0x00000004 ∧
      (0x00007F11 : Word) &&& 0xFFFF80FF = 0x00000011 ∧ (0x00007F19 : Word) &&& 0xFFFF80FF = 0x00000019 := by decide
theorem witness_OpcodeRowsSelect_fields :
    (0x00037F05 : Word).toNat / 2 ^ 16 % 2 ^ 2 = 3 ∧ (0x00037F05 : Word) &&& 0xFFFC80FF = 0x00000005 ∧
      (0x00007F06 : Word).toNat / 2 ^ 16 % 2 ^ 2 = 0 ∧ (0x00007F06 : Word) &&& 0xFFFC80FF = 0x00000006 ∧
      (0x00040010 : Word).toNat / 2 ^ 16 % 2 ^ 3 = 4 ∧ (0x00040010 : Word) &&& 0xFFF8FFFF = 0x00000010 ∧
      (0x00000018 : Word).toNat / 2 ^ 16 % 2 ^ 3 = 0 ∧ (0x00000018 : Word) &&& 0xFFF8FFFF = 0x00000018 ∧
      (0x00247F20 : Word).toNat / 2 ^ 16 % 2 ^ 3 = 4 ∧ (0x00247F20 : Word).toNat / 2 ^ 20 % 2 ^ 2 = 2 ∧
      (0x00247F20 : Word) &&& 0xFFC880FF = 0x00000020 ∧ (0x00247F21 : Word) &&& 0xFFC880FF = 0x00000021 := by decide
theorem witness_ReservedTransactionsDoNothing :
    (asked raw12 (.transaction 0x8000 0)).pending = [.transaction 0x8000 0] ∧ (0x8000 : BitVec 16).toNat / 2 ^ 14 = 2 ∧
      (0x0100 : BitVec 16).toNat / 2 ^ 8 % 2 ^ 6 ≠ 0 ∧ (0x0100 : BitVec 16).toNat / 2 ^ 14 = 0 ∧
      (0xC001 : BitVec 16).toNat / 2 ^ 14 = 3 ∧ (0xC001 : BitVec 16).toNat % 2 ^ 8 ≠ 0 := by decide
theorem witness_StepRunsDecoded :
    (asked raw12 (.transaction 0x401F 0x403)).pending = [.transaction 0x401F 0x403] ∧
      decodeTransaction 0x401F 0x403 = .ok (.regwr 0x1F 0x403) := by decide
theorem witness_CommandsRunThroughCmd :
    isCommand (.cpush 127) = true ∧ (Instr.cpush 127).wellFormed = true ∧
      encode (.cpush 127) = .command ((0xFFFFFFFF00007F02 : DWord).setWidth 32) ∧
      (asked raw12 (.transaction 0x401F 0xFFFFFFFF00007F02)).pending = [.transaction 0x401F 0xFFFFFFFF00007F02] := by decide
theorem witness_HostMemoryAccess :
    raw12.pending = [] ∧ (asked raw12 (.memWrite 0xFFFFFFFF 1)).pending = [.memWrite 0xFFFFFFFF 1] ∧
      0xFFFFFFFF < 2 ^ 32 ∧ ¬ 0x100000000 < 2 ^ 32 ∧ Memory.wf packedState.mem ∧
      (asked raw12 (.memRead 0x100000000)).pending = [.memRead 0x100000000] := by decide
theorem witness_StepKeepsInvariant :
    (asked (decoding .jpeg [0xFF, 0x00, 0x12, 0x34, 0x56]) (.transaction 0x401F 0x811)).Inv ∧
      ∃ t, step (asked (decoding .jpeg [0xFF, 0x00, 0x12, 0x34, 0x56]) (.transaction 0x401F 0x811)) = .next t :=
  ⟨by decide, _, rfl⟩
theorem witness_StepNeverStops : (asked (encoding31 4) (.transaction 0x401F 0x0119)).Inv := by decide
theorem witness_AfterResetNothingIsConfigured :
    1 ≤ 32 ∧ 31 ≤ 31 ∧ 32 ≤ 31 + 1 ∧ BitOrder.msb ≠ .jpeg ∧ 32 ≤ 8 * elemSize .u32 ∧ (31 : Nat) ≠ 0 := by decide
theorem witness_FaultedIsSticky :
    stuck.faulted = true ∧ stuck.Inv ∧
      (match step (asked stuck (.transaction 0xC000 0)) with
       | .next t => !t.faulted
       | .fault _ => false
       | .refused _ => false) = true := by decide
theorem witness_FaultsArePrecise :
    isCommand (.cskip 13) = true ∧ Memory.wf raw12.mem ∧ raw12.faulted = false ∧
      runs (.cskip 13) raw12 (fun t => t.faulted) = true := by decide
theorem witness_FaultsArePrecise_unpack :
    isCommand (.unpack .jpeg .u8 4) = true ∧ Memory.wf packedState.mem ∧ packedState.faulted = false ∧
      runs (.unpack .jpeg .u8 4) packedState (fun t => t.faulted) = true := by decide
theorem witness_BadModeIsRaised :
    isCommand .flush = true ∧ raw12.faulted = false ∧ neededMode .flush = some .enc ∧ raw12.mode ≠ .enc ∧
      isCommand (.xlo .w8 9) = true ∧ neededMode (.xlo .w8 9) = none ∧
      runs (.xlo .w8 9) raw12 (fun t => t.faulted) = true := by decide
theorem witness_CausesHaveTheirOrigin :
    isCommand (.getbits 8) = true ∧ (decoding .jpeg [0xFF, 0xD9, 0x00, 0x00, 0x00]).Inv ∧
      (decoding .jpeg [0xFF, 0xD9, 0x00, 0x00, 0x00]).faulted = false ∧
      runs (.getbits 8) (decoding .jpeg [0xFF, 0xD9, 0x00, 0x00, 0x00]) (fun t => t.faulted) = true := by decide
theorem witness_OnlyNamedCommandsWrite :
    isCommand (.cpeek 12) = true ∧ raw12.Inv ∧ runs (.cpeek 12) raw12 (fun t => !t.faulted) = true := by decide
theorem witness_ReadsAnswerRegisters_reserved :
    (0x1E : BitVec 8).toNat ∈ [0x07, 0x0B, 0x0F, 0x1C, 0x1D, 0x1E] ∧ 0x20 ≤ (0x20 : BitVec 8).toNat := by decide
theorem witness_StatusShowsTheState :
    ({ raw12 with cache := { bits := 1, fill := 64, flow := .lsbFirst } } : State).cache.fill ≤ 64 := by decide
theorem witness_WritesReachRegisters :
    stuck.faulted = true ∧ raw12.faulted = false ∧ decodeCommand ((0x403 : DWord).setWidth 32) = .ok (.cpeek 4) ∧
      decodeCommand ((0x8000 : DWord).setWidth 32) = .error .reservedBit ∧
      (0x0E : BitVec 8).toNat ∈ [0x00, 0x01, 0x03, 0x04, 0x05, 0x06, 0x07, 0x0A, 0x0B, 0x0E, 0x0F, 0x1C, 0x1D, 0x1E] ∧
      0x20 ≤ (0x20 : BitVec 8).toNat := by decide
theorem witness_NopClearsIoerr : raw12.faulted = false := by decide
theorem witness_CinitOpensRawSession : packedState.faulted = false ∧ packedState.mode = .idle := by decide
theorem witness_CpushAppendsBits :
    raw12.faulted = false ∧ raw12.mode = .raw ∧ 52 + raw12.cache.fill ≤ 64 ∧ 64 < 53 + raw12.cache.fill := by decide
theorem witness_CpeekReadsOldestBits : raw12.faulted = false ∧ raw12.mode = .raw ∧ ¬ raw12.cache.fill < 12 := by decide
theorem witness_CskipDropsOldestBits : raw12.faulted = false ∧ raw12.mode = .raw ∧ raw12.cache.fill < 13 := by decide
theorem witness_ExtractionKeepsBits : raw12.faulted = false ∧ 64 ≤ 64 ∧ 8 < 9 := by decide
theorem witness_CacheIsQueue :
    (runCache [.push 0xA 4, .peek 4, .skip 1, .push 1 61, .peek 32, .skip 64] (BitCache.empty .msbFirst)).isSome = true := by
  decide
theorem witness_PeekIsExtraction : 1 ≤ 12 ∧ 12 ≤ 32 ∧ 12 ≤ raw12.cache.fill := by decide
theorem witness_ChunkSplitInverse :
    (0xFFFF : Word).toNat < 2 ^ (8 * 2) ∧ ([0x12, 0xFF] : List Byte).length = 2 := by decide
theorem witness_DstartOpensDecodeSession :
    packedState.faulted = false ∧ packedState.mode = .idle ∧
      2 ^ 32 < (0xFFFFFFFE : Word).toNat + (3 : Word).toNat ∧ ¬ 2 ^ 32 < (0xFFFFFFFE : Word).toNat + (2 : Word).toNat := by
  decide
theorem witness_EstartOpensEncodeSession : packedState.faulted = false ∧ packedState.mode = .idle := by decide

/-- A decode session with 31 bits cached: a GETBITS 32 needs one more chunk. -/
def decoding31 : State :=
  { decoding .msb [0x12, 0x34, 0x56, 0x78] with cache := { bits := 0xFFFFFFFE00000000, fill := 31, flow := .msbFirst } }

theorem witness_GetbitsReadsStream_refill :
    decoding31.Inv ∧ decoding31.faulted = false ∧ decoding31.mode = .dec ∧
      ([0x12, 0x34, 0x56, 0x78] : List Byte).length = 4 * chunksNeeded 4 32 decoding31.cache.fill ∧
      decoding31.srcPos.toNat + 4 ≤ decoding31.cfg.srcLen.toNat ∧ HoldsAt decoding31.mem 0x100 [0x12, 0x34, 0x56, 0x78] := by
  unfold HoldsAt
  decide
theorem witness_GetbitsReadsStream_cached :
    decoding31.Inv ∧ ([] : List Byte).length = 4 * chunksNeeded 4 31 decoding31.cache.fill := by decide
theorem witness_GetbitsReadsStream_jpeg :
    (decoding .jpeg [0xFF, 0, 0xFF, 0, 0xFF, 0, 0xFF, 0]).Inv ∧
      ([0xFF, 0xFF, 0xFF, 0xFF] : List Byte).length = 4 * chunksNeeded 4 1 0 ∧
      stuff [0xFF, 0xFF, 0xFF, 0xFF] = [0xFF, 0, 0xFF, 0, 0xFF, 0, 0xFF, 0] ∧
      HoldsAt (decoding .jpeg [0xFF, 0, 0xFF, 0, 0xFF, 0, 0xFF, 0]).mem 0x100 [0xFF, 0, 0xFF, 0, 0xFF, 0, 0xFF, 0] := by
  unfold HoldsAt
  decide
theorem witness_GetbitsFaults :
    (decoding .msb [0x12, 0x34, 0x56]).Inv ∧ (decoding .msb [0x12, 0x34, 0x56]).mode = .dec ∧
      (decoding .msb [0x12, 0x34, 0x56]).faulted = false ∧ (decoding .msb [0x12, 0x34, 0x56]).order ≠ .jpeg ∧
      (decoding .msb [0x12, 0x34, 0x56]).cfg.srcLen.toNat < 0 + 4 * chunksNeeded 4 1 0 := by decide
theorem witness_JpegReadFaults_window_ends :
    (decoding .jpeg [0x12]).Inv ∧ ([0x12] : List Byte).length < 4 * chunksNeeded 4 32 0 ∧
      (decoding .jpeg [0x12]).cfg.srcLen.toNat = 0 + (stuff [0x12]).length ∧
      HoldsAt (decoding .jpeg [0x12]).mem 0x100 (stuff [0x12]) := by
  unfold HoldsAt
  decide
theorem witness_JpegReadFaults_last_sentinel :
    (decoding .jpeg [0x12, 0xFF]).Inv ∧ (decoding .jpeg [0x12, 0xFF]).cfg.srcLen.toNat = 0 + (stuff [0x12]).length + 1 ∧
      HoldsAt (decoding .jpeg [0x12, 0xFF]).mem 0x100 (stuff [0x12]) ∧
      Memory.read (decoding .jpeg [0x12, 0xFF]).mem 0x101 = 0xFF := by
  unfold HoldsAt
  decide
theorem witness_JpegReadFaults_bad_escape :
    (decoding .jpeg [0xFF, 0, 0xFF, 0xD9]).Inv ∧
      0 + (stuff [0xFF]).length + 1 < (decoding .jpeg [0xFF, 0, 0xFF, 0xD9]).cfg.srcLen.toNat ∧
      HoldsAt (decoding .jpeg [0xFF, 0, 0xFF, 0xD9]).mem 0x100 (stuff [0xFF]) ∧
      Memory.read (decoding .jpeg [0xFF, 0, 0xFF, 0xD9]).mem 0x102 = 0xFF ∧
      Memory.read (decoding .jpeg [0xFF, 0, 0xFF, 0xD9]).mem 0x103 ≠ 0x00 := by
  unfold HoldsAt
  decide
theorem witness_PutAppendsAndDrains :
    (encoding31 4).Inv ∧ (encoding31 4).faulted = false ∧ (encoding31 4).mode = .enc ∧ (encoding31 4).cache.fill + 0 < 32 ∧
      32 ≤ (encoding31 4).cache.fill + 1 ∧
      (encoding31 4).snkPos.toNat + 4 ≤ (encoding31 4).cfg.snkCap.toNat ∧
      (encoding31 3).cfg.snkCap.toNat < (encoding31 3).snkPos.toNat + 4 := by decide
theorem witness_FlushPadsAndDrains :
    (encoding31 4).Inv ∧ (encoding31 4).faulted = false ∧ (encoding31 4).mode = .enc ∧ (encoding31 4).cache.fill ≠ 0 := by
  decide
theorem witness_FlushPadsAndDrains_empty : (encoding .jpeg 0 (BitCache.empty .msbFirst) 0).Inv := by decide
theorem witness_EndClosesSession : (encoding31 4).faulted = false ∧ (encoding31 4).cache.fill ≠ 0 := by decide
theorem witness_IoErrorPersists :
    (encoding31 3).Inv ∧ (encoding31 3).faulted = false ∧ (encoding31 3).mode = .enc ∧
      runs .flush (encoding31 3) (fun t => !t.faulted && t.ioerr) = true ∧
      runs (.put 1) (encoding31 3) (fun t => !t.faulted && t.ioerr) = true := by decide

/-- The parameters with chunks of one byte. -/
def byteChunks : Config.Params := { Config.rsbc with chunkLsb := .one, chunkMsb := .one, chunkJpeg := .one }

theorem witness_ChunkWidthKeepsValues :
    (readAll Config.rsbc .msb (bytesAt 0 [0x12, 0x34, 0x56, 0x78]) ⟨0, 4⟩ [12, 20] ⟨BitCache.empty .msbFirst, 0⟩).toOption =
        some [0x123, 0x45678] ∧
      (readAll byteChunks .msb (bytesAt 0 [0x12, 0x34, 0x56, 0x78]) ⟨0, 4⟩ [12, 20] ⟨BitCache.empty .msbFirst, 0⟩).toOption =
        some [0x123, 0x45678] := by decide
theorem witness_StreamRoundTrip :
    packedState.Inv ∧ packedState.faulted = false ∧ packedState.mode = .idle ∧
      (runClean (.estart .jpeg :: (putProgram [(0xFFF, 12), (0xF0FF0, 20)] ++ [.flush, .endSession]))
        packedState).isSome = true := by decide
theorem witness_CodecChecksRefuse :
    packedState.faulted = false ∧ packedState.mode = .idle ∧
      codecRefusal false .jpeg 1 4 packedCfg = some (.cfgInvalid, 1) ∧
      codecRefusal true .lsb 1 0 packedCfg = some (.cfgInvalid, 2) ∧
      codecRefusal false .lsb 1 8 { packedCfg with pixBase := 0x103 } = some (.cfgOverlap, 1) := by decide
theorem witness_UnpackFillsPixels :
    packedState.Inv ∧ packedState.faulted = false ∧ packedState.mode = .idle ∧
      codecRefusal false .lsb 1 4 packedState.cfg = none ∧ 4 * rowChunks 4 7 4 ≤ packedState.cfg.pkLen.toNat := by decide

/-- The packed example with packed rows of 3 bytes. -/
def shortState : State := { packedState with cfg := { packedCfg with pkLen := 3 } }

theorem witness_UnpackShortRowFaults :
    shortState.Inv ∧ shortState.faulted = false ∧ shortState.mode = .idle ∧
      codecRefusal false .msb16 1 4 shortState.cfg = none ∧ 0 < shortState.cfg.dimRows.toNat ∧
      shortState.cfg.pkLen.toNat < 2 * rowChunks 2 7 4 := by decide

/-- The packed example with this sink capacity and this constant padding. -/
def sinkState (cap pad : Word) : State := { packedState with cfg := { packedCfg with snkCap := cap, padConst := pad } }

theorem witness_PackFillsSink :
    (sinkState 5 1).Inv ∧ (sinkState 5 1).faulted = false ∧ (sinkState 5 1).mode = .idle ∧
      codecRefusal true .lsb 1 4 (sinkState 5 1).cfg = none ∧
      rowOffset (sinkState 5 1).mem (sinkState 5 1).cfg 4 1 ≤ (sinkState 5 1).cfg.snkCap.toNat := by decide
theorem witness_PackStopsAtFullSink :
    (sinkState 4 1).Inv ∧ (sinkState 4 1).faulted = false ∧ (sinkState 4 1).mode = .idle ∧
      codecRefusal true .lsb 1 4 (sinkState 4 1).cfg = none ∧
      (sinkState 4 1).cfg.snkCap.toNat < rowOffset (sinkState 4 1).mem (sinkState 4 1).cfg 4 1 ∧
      (sinkState 3 0).cfg.snkCap.toNat < rowOffset (sinkState 3 0).mem (sinkState 3 0).cfg 4 1 := by decide
theorem witness_PixelReadAfterWrite :
    Memory.wf packedState.mem ∧ (0xFFFF : Word).toNat < 2 ^ (8 * elemSize .u16) ∧
      packedCfg.pixBase.toNat + elemSize .u16 * (1 * packedCfg.pixPitch.toNat + 3) + elemSize .u16 ≤ Config.rsbc.memSize := by
  decide
/-- A view of the row that PACK leaves in the sink of `sinkState 5 1`, with its pixels past that sink. -/
def repackedView : CfgRegs :=
  { packedCfg with srcBase := packedCfg.snkBase, pkLen := 5, pkPitch := 5, pkRows := 1, pixBase := 0x400 }

theorem witness_PackUnpackRoundTrip :
    (sinkState 5 1).Inv ∧ (sinkState 5 1).faulted = false ∧ (sinkState 5 1).mode = .idle ∧
      (sinkState 5 1).cfg.padMode = 0 ∧ codecRefusal true .lsb 1 4 (sinkState 5 1).cfg = none ∧
      rowOffset (sinkState 5 1).mem (sinkState 5 1).cfg 4 1 ≤ (sinkState 5 1).cfg.snkCap.toNat ∧
      (∀ r < 1, ∀ c < 7, elementAt (sinkState 5 1).mem (sinkState 5 1).cfg 1 r c < 2 ^ 4) ∧
      repackedView.srcBase = (sinkState 5 1).cfg.snkBase ∧
      repackedView.pkLen.toNat = 4 * rowWords 7 4 + (sinkState 5 1).cfg.padConst.toNat ∧
      repackedView.pkPitch = repackedView.pkLen ∧ repackedView.dimRows = 1 ∧ repackedView.dimCols = 7 ∧
      (sinkState 5 1).cfg.dimRows = 1 ∧ (sinkState 5 1).cfg.dimCols = 7 ∧
      codecRefusal false .lsb 1 4 repackedView = none :=
  ⟨by decide, by decide, by decide, by decide, by decide, by decide, by decide, by decide, by decide, by decide, by decide,
    by decide, by decide, by decide, by decide⟩

end Sys2Proof.Tests
end

section
/-! PROOF. Sessions between two operations: a decode session's cursor and an encode session's sink, the invariant that
GetBits, PutBits, Flush and the padding keep, and the only ways in which they raise under it (42_stream_engine.md R511,
R513, R532, R534). -/

namespace Sys2Proof.Machine

/-! ## Decode sessions -/

/-- A decode session between two GetBits: its flow is its order's, fewer than 32 bits are cached, and its position lies
inside its window (42_stream_engine.md R511, R513). -/
structure Cursor.Ready (p : Config.Params) (o : BitOrder) (w : Window) (k : Cursor) : Prop where
  wf : k.cache.wf
  flow : k.cache.flow = (policy p o).flow
  fill : k.cache.fill ≤ 31
  inside : k.pos ≤ w.len

/-- A fresh session over any window (43_packed_codec.md R602). -/
theorem Cursor.ready_fresh (p : Config.Params) (o : BitOrder) (w : Window) :
    Cursor.Ready p o w ⟨BitCache.empty (policy p o).flow, 0⟩ where
  wf := BitCache.wf_empty _
  flow := rfl
  fill := by simp
  inside := Nat.zero_le _

/-- GetBits leaves less than one chunk over, which is at most 31 bits (42_stream_engine.md R513, R521). -/
theorem getBits_keeps_ready {p : Config.Params} {o : BitOrder} {n : Nat} {mem : Memory} {w : Window} {k k' : Cursor}
    {v : Word} (hr : w.inRange p = true) (hk : k.Ready p o w) (h : getBits p o n mem w k = .ok (v, k')) :
    k'.Ready p o w := by
  obtain ⟨-, -, m, data, k₁, loaded, hn, hleft, hwf, hflow, hfill, -, hpos, -⟩ := getBits_ok hr hk.wf hk.flow h
  have hchunk := policy_chunk_le p o
  have hloaded := loaded.fill
  have hinside := loaded.inside
  have hkfill := hk.fill
  have hkpos := hk.inside
  refine ⟨hwf, hflow.trans hk.flow, ?_, ?_⟩
  · by_cases hm : m = 0
    · subst hm
      omega
    · have := hleft hm
      omega
  · by_cases hm : m = 0
    · subst hm
      obtain rfl := List.length_eq_zero_iff.1 (loaded.length.trans (Nat.mul_zero _))
      have := loaded.pos
      simp only [wireBytes_nil, List.length_nil] at this
      omega
    · have := hinside hm
      omega

/-- A byte reader over a window that lies in MEM forms no address outside it (20_memory.md R201, R233). -/
theorem ReadFailure.ne_stop {p : Config.Params} {o : BitOrder} {w : Window} {pos : Nat} {e : Raise}
    (hr : w.inRange p = true) (h : ReadFailure p o w pos e) (r : Fault) : e ≠ .stop r := by
  cases h with
  | endOfInput => exact Raise.noConfusion
  | badEscape => exact Raise.noConfusion
  | outside a hout => exact absurd hr (by simp [hout])

theorem countFault_ne_stop {n fill : Nat} {e : Raise} (h : countFault n fill = some e) (r : Fault) : e ≠ .stop r := by
  obtain ⟨c, rfl, -⟩ := countFault_some h
  exact Raise.noConfusion

/-- GetBits of a session over a window that lies in MEM forms no address outside it. -/
theorem getBits_ne_stop {p : Config.Params} {o : BitOrder} {n : Nat} {mem : Memory} {w : Window} {k : Cursor}
    (hr : w.inRange p = true) (hk : k.Ready p o w) (r : Fault) : getBits p o n mem w k ≠ .error (.stop r) := by
  intro h
  rcases getBits_error hr hk.wf hk.flow hk.inside h with hcount | ⟨-, -, pos, -, -, hread⟩
  · exact countFault_ne_stop hcount r rfl
  · exact hread.ne_stop hr r rfl

/-! ## Encode sessions -/

/-- An encode session between two operations: its flow is its order's, F <= 31, its position lies inside its window, and
its MEM is in canonical form with no byte past the end (42_stream_engine.md R532, R534). -/
structure Sink.Ready (p : Config.Params) (o : BitOrder) (w : Window) (k : Sink) : Prop where
  wf : k.cache.wf
  flow : k.cache.flow = (policy p o).flow
  fill : k.cache.fill ≤ 31
  inside : k.pos ≤ w.len
  memWf : Memory.wf k.mem
  memWithin : Memory.within k.mem p.memSize

/-- A fresh session that goes on writing where another one stopped (43_packed_codec.md R602, R640). -/
theorem Sink.Ready.fresh {p : Config.Params} {o : BitOrder} {w : Window} {k : Sink} (hk : k.Ready p o w) :
    Sink.Ready p o w { k with cache := BitCache.empty (policy p o).flow } :=
  { hk with wf := BitCache.wf_empty _, flow := rfl, fill := by simp }

theorem emitBytes_keeps_ready {p : Config.Params} {o : BitOrder} {w : Window} {bytes : List Byte} {k k' : Sink}
    (hk : k.Ready p o w) (h : emitBytes p w bytes k = .ok k') : k'.Ready p o w := by
  obtain ⟨hfits, hpos, hcache, hwf, hwithin, -⟩ := emitBytes_ok hk.memWf h
  exact
    { wf := hcache ▸ hk.wf, flow := hcache ▸ hk.flow, fill := hcache ▸ hk.fill, inside := by omega, memWf := hwf,
      memWithin := hwithin hk.memWithin }

/-- A drain after a push onto a session between two operations ends in such a session again: one word is enough
(42_stream_engine.md R534). -/
theorem drainIfFull_keeps_ready {p : Config.Params} {o : BitOrder} {w : Window} {k k' : Sink} {c : BitCache}
    (hk : k.Ready p o w) (hc : c.wf) (hflow : c.flow = k.cache.flow) (hfill : c.fill ≤ 63)
    (h : drainIfFull p o w { k with cache := c } = .ok k') : k'.Ready p o w := by
  rcases drainIfFull_ok (k := { k with cache := c }) hc hk.memWf h with
    ⟨hless, rfl⟩ | ⟨-, hwf', hflow', hfill', -, v, -, hfits, hpos, hmem, hwithin, -⟩
  · exact { hk with wf := hc, flow := hflow.trans hk.flow, fill := Nat.le_of_lt_succ hless }
  · exact
      { wf := hwf', flow := hflow'.trans (hflow.trans hk.flow), fill := by simp only at hfill'; omega,
        inside := by omega, memWf := hmem, memWithin := hwithin hk.memWithin }

theorem putBits_keeps_ready {p : Config.Params} {o : BitOrder} {v : DWord} {n : Nat} {w : Window} {k k' : Sink}
    (hk : k.Ready p o w) (h : putBits p o v n w k = .ok k') : k'.Ready p o w := by
  obtain ⟨hn, c, hc, hflow, hfill, -, hdrain⟩ := putBits_ok hk.wf h
  have := hk.fill
  exact drainIfFull_keeps_ready hk hc hflow (by omega) hdrain

theorem flushBits_keeps_ready {p : Config.Params} {o : BitOrder} {w : Window} {k k' : Sink}
    (hk : k.Ready p o w) (h : flushBits p o w k = .ok k') : k'.Ready p o w := by
  rcases flushBits_ok hk.wf h with ⟨-, rfl⟩ | ⟨-, c, hc, hflow, hfill, -, hdrain⟩
  · exact hk
  · have := hk.fill
    exact drainIfFull_keeps_ready hk hc hflow (by omega) hdrain

/-- PutBits of at most 32 bits raises nothing but an I/O error (42_stream_engine.md R532, R533). -/
theorem putBits_eq_ioError {p : Config.Params} {o : BitOrder} {v : DWord} {n : Nat} {w : Window} {k : Sink} {e : Raise}
    (hr : w.inRange p = true) (hk : k.Ready p o w) (hn : n ≤ 32) (h : putBits p o v n w k = .error e) : e = .ioError := by
  rcases putBits_error hr hk.memWf (Nat.le_succ_of_le hk.fill) h with ⟨hbig, -⟩ | ⟨-, -, he⟩
  · omega
  · exact he

/-- PutBits into a window that lies in MEM forms no address outside it. -/
theorem putBits_ne_stop {p : Config.Params} {o : BitOrder} {v : DWord} {n : Nat} {w : Window} {k : Sink}
    (hr : w.inRange p = true) (hk : k.Ready p o w) (r : Fault) : putBits p o v n w k ≠ .error (.stop r) := by
  intro h
  rcases putBits_error hr hk.memWf (Nat.le_succ_of_le hk.fill) h with ⟨-, he⟩ | ⟨-, -, he⟩
  · exact Raise.noConfusion he
  · exact Raise.noConfusion he

/-- Flush raises nothing but an I/O error (42_stream_engine.md R540). -/
theorem flushBits_eq_ioError {p : Config.Params} {o : BitOrder} {w : Window} {k : Sink} {e : Raise}
    (hr : w.inRange p = true) (hk : k.Ready p o w) (h : flushBits p o w k = .error e) : e = .ioError :=
  (flushBits_error hr hk.memWf (Nat.le_succ_of_le hk.fill) h).2

/-! ## The sessions of the machine -/

theorem State.Inv.cursor_ready {s : State} (hs : s.Inv) (hm : s.mode = .dec) :
    s.cursor.Ready Config.rsbc s.order (srcWindow s.cfg) ∧ (srcWindow s.cfg).inRange Config.rsbc = true := by
  obtain ⟨hcache, -, -, -, -, hdec, -⟩ := hs
  obtain ⟨hflow, hfill, hpos, hrange⟩ := hdec hm
  exact ⟨⟨hcache, hflow, hfill, hpos⟩, hrange⟩

theorem State.Inv.sink_ready {s : State} (hs : s.Inv) (hm : s.mode = .enc) :
    s.sink.Ready Config.rsbc s.order (snkWindow s.cfg) ∧ (snkWindow s.cfg).inRange Config.rsbc = true := by
  obtain ⟨hcache, hmem, hwithin, -, -, -, henc, -⟩ := hs
  obtain ⟨hflow, hfill, hpos, hrange⟩ := henc hm
  exact ⟨⟨hcache, hflow, hfill, hpos, hmem, hwithin⟩, hrange⟩

end Sys2Proof.Machine
end

section
/-! PROOF. The row loops of UNPACK and PACK after their checks passed: what each row keeps, and the only raises that are
left (43_packed_codec.md R604, R610, R620, R640, R642). -/

namespace Sys2Proof.Machine

/-! ## UNPACK -/

section
variable {p : Config.Params} {o : BitOrder} {ety : ElemType} {w : Nat} {g : CfgRegs} {r : Nat}

/-- What holds between two pixels of row r of UNPACK: its session goes on, and MEM is in canonical form. -/
def UnpackReady (p : Config.Params) (o : BitOrder) (g : CfgRegs) (r : Nat) (x : Cursor × Memory) : Prop :=
  x.1.Ready p o (packedRow g r) ∧ Memory.wf x.2 ∧ Memory.within x.2 p.memSize

theorem unpackPixel_keeps_ready (hpk : (packedRow g r).inRange p = true) (hpix : (pixelRegion g ety).inRange p = true)
    (hr : r < g.dimRows.toNat) {c : Nat} (hc : c < g.dimCols.toNat) {x y : Cursor × Memory}
    (hx : UnpackReady p o g r x) (h : unpackPixel p o ety w g r x c = .ok y) : UnpackReady p o g r y := by
  obtain ⟨hcursor, hwf, hwithin⟩ := hx
  obtain ⟨v, hget, hwrite⟩ := unpackPixel_ok h
  obtain ⟨-, -, haddr⟩ := pixelAddr_lt hpix hr hc
  obtain ⟨m', hm', hwf', hwithin', -⟩ := pixWrite_eq (v := v) hwf haddr
  obtain rfl : y.2 = m' := Except.ok.inj (hwrite.symm.trans hm')
  exact ⟨getBits_keeps_ready hpk hcursor hget, hwf', hwithin' hwithin⟩

/-- A pixel of UNPACK forms no address outside MEM: neither its reads nor its write (43_packed_codec.md R604). -/
theorem unpackPixel_ne_stop (hpk : (packedRow g r).inRange p = true) (hpix : (pixelRegion g ety).inRange p = true)
    (hr : r < g.dimRows.toNat) {c : Nat} (hc : c < g.dimCols.toNat) {x : Cursor × Memory}
    (hx : UnpackReady p o g r x) (e : Fault) : unpackPixel p o ety w g r x c ≠ .error (.stop e) := by
  obtain ⟨hcursor, hwf, -⟩ := hx
  obtain ⟨-, -, haddr⟩ := pixelAddr_lt hpix hr hc
  unfold unpackPixel
  cases hget : getBits p o w x.2 (packedRow g r) x.1 with
  | error e' =>
    cases e' with
    | fault f => simp [Raise.atPixel]
    | ioError => simp [Raise.atPixel]
    | stop e' => exact absurd hget (getBits_ne_stop hpk hcursor e')
  | ok y =>
    obtain ⟨m', hm', -⟩ := pixWrite_eq (v := y.1) hwf haddr
    simp [hm', bind, Except.bind, pure, Except.pure]

/-- A row starts a fresh session, and its pixel loop keeps MEM in canonical form (43_packed_codec.md R602, R610). -/
theorem unpackRow_keeps_mem (hpk : (packedRow g r).inRange p = true) (hpix : (pixelRegion g ety).inRange p = true)
    (hr : r < g.dimRows.toNat) {m m' : Memory} (hm : Memory.wf m ∧ Memory.within m p.memSize)
    (h : unpackRow p o ety w g m r = .ok m') : Memory.wf m' ∧ Memory.within m' p.memSize := by
  simp only [unpackRow, bind, Except.bind] at h
  split at h
  · cases h
  · rename_i x hx
    cases h
    exact (foldlM_range_ok (P := fun _ => UnpackReady p o g r) ⟨Cursor.ready_fresh p o _, hm⟩
      (fun c hc _ _ => unpackPixel_keeps_ready hpk hpix hr hc) hx).2

theorem unpackRow_ne_stop (hpk : (packedRow g r).inRange p = true) (hpix : (pixelRegion g ety).inRange p = true)
    (hr : r < g.dimRows.toNat) {m : Memory} (hm : Memory.wf m ∧ Memory.within m p.memSize) (e : Fault) :
    unpackRow p o ety w g m r ≠ .error (.stop e) := by
  intro h
  simp only [unpackRow, bind, Except.bind] at h
  split at h
  · rename_i hx
    cases h
    obtain ⟨c, hc, x, hready, hpixel⟩ :=
      foldlM_range_error (P := fun _ => UnpackReady p o g r) ⟨Cursor.ready_fresh p o _, hm⟩
        (fun c hc _ _ => unpackPixel_keeps_ready hpk hpix hr hc) hx
    exact unpackPixel_ne_stop hpk hpix hr hc hready e hpixel
  · cases h

/-- The row loop of UNPACK forms no address outside MEM (43_packed_codec.md R604, R610). -/
theorem unpackRows_ne_stop (hpk : (packedRegion g).inRange p = true) (hpix : (pixelRegion g ety).inRange p = true)
    {m : Memory} (hm : Memory.wf m ∧ Memory.within m p.memSize) (e : Fault) :
    unpackRows p o ety w g m ≠ .error (.stop e) := by
  intro h
  obtain ⟨r, hr, u, hu, hrow⟩ :=
    foldlM_range_error (P := fun _ m => Memory.wf m ∧ Memory.within m p.memSize) hm
      (fun r hr _ _ => unpackRow_keeps_mem (packedRow_inRange hpk hr) hpix hr) h
  exact unpackRow_ne_stop (packedRow_inRange hpk hr) hpix hr hu e hrow

end

/-! ## PACK -/

/-- The entry of each row lies in MEM when the padding table is in range (10_state.md R113; 43_packed_codec.md R604). -/
theorem padEntryAddr_lt {p : Config.Params} {g : CfgRegs} (hmode : g.padMode.toNat ≤ 1)
    (h : (padRegion g).inRange p = true) {r : Nat} (hr : r < g.dimRows.toNat) (hne : g.padMode ≠ 0) :
    padEntryAddr g r + 4 ≤ p.memSize := by
  have hone : g.padMode = 1 := by bv_omega
  rw [Window.inRange_iff] at h
  simp only [padRegion, hone, if_true] at h
  unfold padEntryAddr
  omega

/-- What the checks of PACK leave true, as its row loop uses it (43_packed_codec.md R604). -/
structure PackChecked (p : Config.Params) (ety : ElemType) (w : Nat) (g : CfgRegs) : Prop where
  width : w ≤ 32
  padMode : g.padMode.toNat ≤ 1
  sink : (snkWindow g).inRange p = true
  pixels : (pixelRegion g ety).inRange p = true
  table : (padRegion g).inRange p = true

theorem packChecked_of_codecFault {p : Config.Params} {o : BitOrder} {ety : ElemType} {cnt : Nat} {g : CfgRegs}
    (h : codecFault p .pack o ety cnt g = none) : PackChecked p ety (pixelWidth ety cnt) g := by
  obtain ⟨-, -, -, hwidth, -, hmode, -, hsink, hpixels, htable, -⟩ := codecFault_pack_none h
  exact ⟨hwidth, hmode, hsink, hpixels, htable⟩

section
variable {p : Config.Params} {o : BitOrder} {ety : ElemType} {w : Nat} {g : CfgRegs} {r : Nat}

/-- An operation of PACK on a sink between two operations: it ends in such a sink, or in an I/O error
(43_packed_codec.md R640, R642). -/
def PackOutcome (p : Config.Params) (o : BitOrder) (g : CfgRegs) : Except (Raise × Sink) Sink → Prop
  | .ok k => k.Ready p o (snkWindow g)
  | .error x => x.1 = .ioError

/-- An attempt has such an outcome when its operation does. -/
theorem packOutcome_attempt {k : Sink} {x : Except Raise Sink}
    (hok : ∀ k', x = .ok k' → k'.Ready p o (snkWindow g)) (herr : ∀ e, x = .error e → e = .ioError) :
    PackOutcome p o g (k.attempt x) := by
  cases x with
  | ok k' => exact hok k' rfl
  | error e => exact herr e rfl

theorem packOutcome_bind {x : Except (Raise × Sink) Sink} {f : Sink → Except (Raise × Sink) Sink}
    (hx : PackOutcome p o g x) (hf : ∀ k, k.Ready p o (snkWindow g) → PackOutcome p o g (f k)) :
    PackOutcome p o g (x >>= f) := by
  cases x with
  | ok k => exact hf k hx
  | error e => exact hx

/-- A loop has such an outcome when each of its turns does. -/
theorem packOutcome_foldlM {f : Sink → Nat → Except (Raise × Sink) Sink} {n : Nat} {k : Sink}
    (hk : k.Ready p o (snkWindow g))
    (hf : ∀ i < n, ∀ k, k.Ready p o (snkWindow g) → PackOutcome p o g (f k i)) :
    PackOutcome p o g ((List.range n).foldlM f k) := by
  have next : ∀ i < n, ∀ u v, u.Ready p o (snkWindow g) → f u i = .ok v → v.Ready p o (snkWindow g) := by
    intro i hi u v hu hv
    have := hf i hi u hu
    rwa [hv] at this
  cases h : (List.range n).foldlM f k with
  | ok k' => exact foldlM_range_ok (P := fun _ k => k.Ready p o (snkWindow g)) hk next h
  | error x =>
    obtain ⟨i, hi, u, hu, hfail⟩ := foldlM_range_error (P := fun _ k => k.Ready p o (snkWindow g)) hk next h
    have := hf i hi u hu
    rwa [hfail] at this

theorem packPixel_outcome (hg : PackChecked p ety w g) (hr : r < g.dimRows.toNat) {c : Nat} (hc : c < g.dimCols.toNat)
    {k : Sink} (hk : k.Ready p o (snkWindow g)) : PackOutcome p o g (packPixel p o ety w g r k c) := by
  obtain ⟨-, -, haddr⟩ := pixelAddr_lt hg.pixels hr hc
  rw [packPixel_eq haddr]
  exact packOutcome_attempt (fun _ => putBits_keeps_ready hk) (fun _ => putBits_eq_ioError hg.sink hk hg.width)

theorem packPadding_outcome (hg : PackChecked p ety w g) (hr : r < g.dimRows.toNat) {k : Sink}
    (hk : k.Ready p o (snkWindow g)) : PackOutcome p o g (packPadding p g r k) := by
  rw [packPadding_eq (padEntryAddr_lt hg.padMode hg.table hr)]
  exact packOutcome_attempt (fun _ => emitBytes_keeps_ready hk) fun _ h => (emitBytes_error hg.sink hk.memWf h).2

theorem packRow_outcome (hg : PackChecked p ety w g) (hr : r < g.dimRows.toNat) {k : Sink}
    (hk : k.Ready p o (snkWindow g)) : PackOutcome p o g (packRow p o ety w g k r) := by
  unfold packRow
  refine packOutcome_bind (packOutcome_foldlM hk.fresh fun c hc _ => packPixel_outcome hg hr hc) fun k₁ hk₁ => ?_
  refine packOutcome_bind ?_ fun k₂ => packPadding_outcome hg hr
  exact packOutcome_attempt (fun _ => flushBits_keeps_ready hk₁) fun _ => flushBits_eq_ioError hg.sink hk₁

/-- The row loop of PACK completes or ends with an I/O error: no fault and no address outside MEM arises in it
(43_packed_codec.md R640, R642). -/
theorem packRows_outcome (hg : PackChecked p ety w g) {m : Memory} (hwf : Memory.wf m)
    (hwithin : Memory.within m p.memSize) : PackOutcome p o g (packRows p o ety w g m) :=
  packOutcome_foldlM ⟨BitCache.wf_empty _, rfl, by simp, Nat.zero_le _, hwf, hwithin⟩ fun _ hr _ =>
    packRow_outcome hg hr

end

end Sys2Proof.Machine
end

section
/-! PROOF. In a state that satisfies the invariant every command, every transaction and every step answers a next state
(00_scope.md R9; 20_memory.md R201; 60_exceptions.md R900, R914). -/

namespace Sys2Proof.Machine

/-! ## Endings that answer a next state -/

/-- The command completes, ends with an I/O error or faults (45_control.md R813): it reaches no address outside MEM. -/
def CommandEnd.Answers (e : CommandEnd) : Prop := ∀ r, e ≠ .stops r

theorem CommandEnd.answers_completes (s : State) : (CommandEnd.completes s).Answers := fun _ => CommandEnd.noConfusion

theorem CommandEnd.answers_ioError (s : State) : (CommandEnd.ioError s).Answers := fun _ => CommandEnd.noConfusion

theorem CommandEnd.answers_faults (f : FaultRecord) (s : State) : (CommandEnd.faults f s).Answers :=
  fun _ => CommandEnd.noConfusion

theorem CommandEnd.answers_requireMode {m : Mode} {s : State} {rest : CommandEnd} (h : s.mode = m → rest.Answers) :
    (requireMode m s rest).Answers := by
  rcases requireMode_cases m s rest with ⟨hm, heq⟩ | ⟨-, heq⟩
  · rw [heq]
    exact h hm
  · rw [heq]
    exact answers_faults _ s

theorem CommandEnd.answers_openOver (p : Config.Params) (w : Window) (sub : Nat) (s opened : State) :
    (openOver p w sub s opened).Answers := by
  unfold openOver
  split
  · exact answers_completes opened
  · exact answers_faults _ s

/-- Pseudocode that raises no access outside MEM, followed by the update of the state. -/
theorem CommandEnd.answers_ofExcept_map {α : Type} {s : State} {x : Except Raise α} (h : ∀ r, x ≠ .error (.stop r))
    (f : α → State) : (CommandEnd.ofExcept s (x.map f)).Answers := by
  cases x with
  | ok a => exact answers_completes (f a)
  | error e =>
    cases e with
    | fault g => exact answers_faults g s
    | ioError => exact answers_ioError s
    | stop r => exact absurd rfl (h r)

/-- A command whose pseudocode ends in one of the three ways of 45_control.md R813 answers a next state. -/
theorem runCommand_answers {i : Instr} {s : State} {body : State → CommandEnd} (h : (body s).Answers) :
    ∃ t, runCommand i s body = .next t := by
  cases hrun : runCommand i s body with
  | next t => exact ⟨t, rfl⟩
  | fault r => exact absurd (runCommand_fault hrun).2 (h r)
  | refused r => exact absurd hrun runCommand_refused

/-! ## The raises of the cache operations -/

theorem BitCache.push_ne_stop {c : BitCache} {v : DWord} {n : Nat} (r : Fault) : c.push v n ≠ .error (.stop r) :=
  fun h => Raise.noConfusion (BitCache.push_error.1 h).2

/-- Peek raises a count fault or PEEK_OVER_FILL (41_bit_cache.md R406). -/
theorem BitCache.peek_error {c : BitCache} {n : Nat} {e : Raise} (h : c.peek n = .error e) :
    countFault n c.fill = some e ∨ c.fill < n ∧ e = raiseFault .peekOverFill c.fill := by
  unfold BitCache.peek at h
  split at h
  · rename_i hcount
    cases h
    exact .inl hcount
  · split at h
    · cases h
      exact .inr ⟨‹_›, rfl⟩
    · cases h

theorem BitCache.peek_ne_stop {c : BitCache} {n : Nat} (r : Fault) : c.peek n ≠ .error (.stop r) := by
  intro h
  rcases BitCache.peek_error h with hcount | ⟨-, he⟩
  · exact countFault_ne_stop hcount r rfl
  · exact Raise.noConfusion he

theorem BitCache.skip_ne_stop {c : BitCache} {n : Nat} (r : Fault) : c.skip n ≠ .error (.stop r) :=
  fun h => Raise.noConfusion (BitCache.skip_error.1 h).2

theorem extractHigh_ne_stop {w n : Nat} {x : BitVec w} (r : Fault) : extractHigh w x n ≠ .error (.stop r) :=
  fun h => Raise.noConfusion (extractHigh_error.1 h).2

theorem extractLow_ne_stop {w n : Nat} {x : BitVec w} (r : Fault) : extractLow w x n ≠ .error (.stop r) :=
  fun h => Raise.noConfusion (extractLow_error.1 h).2

/-! ## The pseudocode of each command -/

open CommandEnd

theorem endBody_answers (s : State) : (endBody s).Answers := by
  unfold endBody
  split
  · exact answers_completes s
  · exact answers_completes _
  · exact answers_completes _
  · split
    · exact answers_faults _ s
    · exact answers_completes _

theorem getbitsBody_answers {s : State} (hs : s.Inv) (n : Nat) : (getbitsBody Config.rsbc n s).Answers :=
  answers_requireMode fun hm =>
    have ⟨hready, hrange⟩ := hs.cursor_ready hm
    answers_ofExcept_map (getBits_ne_stop hrange hready) _

theorem putBody_answers {s : State} (hs : s.Inv) (n : Nat) : (putBody Config.rsbc n s).Answers :=
  answers_requireMode fun hm =>
    have ⟨hready, hrange⟩ := hs.sink_ready hm
    answers_ofExcept_map (putBits_ne_stop hrange hready) _

theorem flushBody_answers {s : State} (hs : s.Inv) : (flushBody Config.rsbc s).Answers :=
  answers_requireMode fun hm =>
    have ⟨hready, hrange⟩ := hs.sink_ready hm
    answers_ofExcept_map (fun _ h => Raise.noConfusion (flushBits_eq_ioError hrange hready h)) _

theorem unpackEnd_answers {ety : ElemType} {s : State} {x : Except Raise Memory} (h : ∀ r, x ≠ .error (.stop r)) :
    (unpackEnd ety s x).Answers := by
  cases x with
  | ok m => exact answers_completes _
  | error e =>
    cases e with
    | fault f => exact answers_faults f _
    | ioError => exact answers_ioError s
    | stop r => exact absurd rfl (h r)

theorem unpackBody_answers {s : State} (hwf : Memory.wf s.mem) (hwithin : Memory.within s.mem Config.rsbc.memSize)
    (o : BitOrder) (ety : ElemType) (cnt : Nat) : (unpackBody Config.rsbc o ety cnt s).Answers := by
  refine answers_requireMode fun _ => ?_
  cases hcheck : codecFault Config.rsbc .unpack o ety cnt s.cfg with
  | some f => exact answers_faults f s
  | none =>
    obtain ⟨-, -, -, -, -, -, -, hpk, hpix, -⟩ := codecFault_unpack_none hcheck
    exact unpackEnd_answers (unpackRows_ne_stop hpk hpix ⟨hwf, hwithin⟩)

theorem packEnd_answers {o : BitOrder} {s : State} {x : Except (Raise × Sink) Sink}
    (h : PackOutcome Config.rsbc o s.cfg x) : (packEnd s x).Answers := by
  cases x with
  | ok k => exact answers_completes _
  | error x =>
    obtain ⟨e, k⟩ := x
    obtain rfl : e = .ioError := h
    exact answers_ioError _

theorem packBody_answers {s : State} (hwf : Memory.wf s.mem) (hwithin : Memory.within s.mem Config.rsbc.memSize)
    (o : BitOrder) (ety : ElemType) (cnt : Nat) : (packBody Config.rsbc o ety cnt s).Answers := by
  refine answers_requireMode fun _ => ?_
  cases hcheck : codecFault Config.rsbc .pack o ety cnt s.cfg with
  | some f => exact answers_faults f s
  | none => exact packEnd_answers (packRows_outcome (packChecked_of_codecFault hcheck) hwf hwithin)

/-! ## Instructions -/

theorem execNop_answers (s : State) : ∃ t, execNop s = .next t := runCommand_answers (answers_completes s)

theorem execCinit_answers (fl : Flow) (s : State) : ∃ t, execCinit fl s = .next t := by
  unfold execCinit
  exact runCommand_answers (answers_requireMode fun _ => answers_completes _)

theorem execCpush_answers (n : Nat) (s : State) : ∃ t, execCpush n s = .next t := by
  unfold execCpush
  exact runCommand_answers (answers_requireMode fun _ => answers_ofExcept_map BitCache.push_ne_stop _)

theorem execCpeek_answers (n : Nat) (s : State) : ∃ t, execCpeek n s = .next t := by
  unfold execCpeek
  exact runCommand_answers (answers_requireMode fun _ => answers_ofExcept_map BitCache.peek_ne_stop _)

theorem execCskip_answers (n : Nat) (s : State) : ∃ t, execCskip n s = .next t := by
  unfold execCskip
  exact runCommand_answers (answers_requireMode fun _ => answers_ofExcept_map BitCache.skip_ne_stop _)

theorem execXhi_answers (width : ExtractWidth) (n : Nat) (s : State) : ∃ t, execXhi width n s = .next t := by
  unfold execXhi
  exact runCommand_answers (answers_ofExcept_map extractHigh_ne_stop _)

theorem execXlo_answers (width : ExtractWidth) (n : Nat) (s : State) : ∃ t, execXlo width n s = .next t := by
  unfold execXlo
  exact runCommand_answers (answers_ofExcept_map extractLow_ne_stop _)

theorem execDstart_answers (o : BitOrder) (s : State) : ∃ t, execDstart o s = .next t :=
  runCommand_answers (answers_requireMode fun _ => answers_openOver _ _ _ _ _)

theorem execEstart_answers (o : BitOrder) (s : State) : ∃ t, execEstart o s = .next t :=
  runCommand_answers (answers_requireMode fun _ => answers_openOver _ _ _ _ _)

/-- Every command answers a next state: no address it forms lies outside MEM (60_exceptions.md R900, R914). -/
theorem exec_command_answers {i : Instr} (hi : isCommand i = true) {s : State} (hs : s.Inv) :
    ∃ t, exec i s = .next t := by
  have ⟨_, hwf, hwithin, _⟩ := hs
  cases i with
  | nop => exact execNop_answers s
  | cinit fl => exact execCinit_answers fl s
  | cpush n => exact execCpush_answers n s
  | cpeek n => exact execCpeek_answers n s
  | cskip n => exact execCskip_answers n s
  | xhi width n => exact execXhi_answers width n s
  | xlo width n => exact execXlo_answers width n s
  | endSession => exact runCommand_answers (endBody_answers s)
  | dstart o => exact execDstart_answers o s
  | getbits n => exact runCommand_answers (getbitsBody_answers hs n)
  | estart o => exact execEstart_answers o s
  | put n => exact runCommand_answers (putBody_answers hs n)
  | flush => exact runCommand_answers (flushBody_answers hs)
  | unpack o ety cnt => exact runCommand_answers (unpackBody_answers hwf hwithin o ety cnt)
  | pack o ety cnt => exact runCommand_answers (packBody_answers hwf hwithin o ety cnt)
  | regrd idx => cases hi
  | regwr idx v => cases hi
  | reset => cases hi

/-- A word written to CMD, legal or not, answers a next state (45_control.md R813). -/
theorem execute_answers (w : Word) {s : State} (hs : s.Inv) : ∃ t, execute w s = .next t := by
  cases hd : decodeCommand w with
  | ok i =>
    have hi := decodeCommand_isCommand hd
    rw [execute_ok hd, runDecoded_eq_exec hi]
    exact exec_command_answers hi hs
  | error e => exact ⟨_, execute_error hd s⟩

theorem execRegwr_answers (idx : BitVec 8) (v : DWord) {s : State} (hs : s.Inv) : ∃ t, execRegwr idx v s = .next t := by
  unfold execRegwr
  split
  · exact ⟨s, rfl⟩
  · split
    · exact execute_answers _ hs
    · exact ⟨_, rfl⟩
    · exact ⟨s, rfl⟩

theorem exec_answers (i : Instr) {s : State} (hs : s.Inv) : ∃ t, exec i s = .next t := by
  by_cases hi : isCommand i = true
  · exact exec_command_answers hi hs
  · cases i with
    | regrd idx => exact ⟨_, rfl⟩
    | regwr idx v => exact execRegwr_answers idx v hs
    | reset => exact ⟨_, rfl⟩
    | _ => exact absurd rfl hi

/-! ## The host's next action -/

theorem step_idle {s : State} (h : s.pending = []) : step s = .next s := by
  simp [step, fetch, h]

theorem step_transaction {s : State} {hd : BitVec 16} {d : DWord} {rest : List HostAction} {i : Instr}
    (h : s.pending = .transaction hd d :: rest) (hi : decodeTransaction hd d = .ok i) :
    step s = exec i (s.taken rest) := by
  simp [step, fetch, h, hi]

theorem step_reserved {s : State} {hd : BitVec 16} {d : DWord} {rest : List HostAction} {e : DecodeError}
    (h : s.pending = .transaction hd d :: rest) (he : decodeTransaction hd d = .error e) :
    step s = .next (reservedTransaction hd (s.taken rest)) := by
  simp [step, fetch, h, he]

theorem step_memWrite {s : State} {a : Nat} {v : Byte} {rest : List HostAction} (h : s.pending = .memWrite a v :: rest) :
    step s = hostWrite a v (s.taken rest) := by
  simp [step, fetch, h]

theorem step_memRead {s : State} {a : Nat} {rest : List HostAction} (h : s.pending = .memRead a :: rest) :
    step s = hostRead a (s.taken rest) := by
  simp [step, fetch, h]

/-- Taking the next action keeps the invariant: the actions that are left are still inside MEM (log 2). -/
theorem State.Inv.taken {s : State} {a : HostAction} {rest : List HostAction} (hs : s.Inv) (h : s.pending = a :: rest) :
    (s.taken rest).Inv := by
  obtain ⟨hcache, hmem, hwithin, hidle, hraw, hdec, henc, hfault, hhost⟩ := hs
  refine ⟨hcache, hmem, hwithin, hidle, hraw, hdec, henc, hfault, fun b hb => hhost b ?_⟩
  rw [h]
  exact List.mem_cons_of_mem a hb

/-- The address of the host's next action lies inside MEM (20_memory.md R200; log 9). -/
theorem State.Inv.next_address_lt {s : State} {a : HostAction} {rest : List HostAction} (hs : s.Inv)
    (h : s.pending = a :: rest) {addr : Nat} (ha : a.address = some addr) : addr < Config.rsbc.memSize := by
  obtain ⟨-, -, -, -, -, -, -, -, hhost⟩ := hs
  exact hhost a (by simp [h]) addr ha

theorem hostWrite_answers {a : Nat} (ha : a < Config.rsbc.memSize) (v : Byte) (s : State) :
    hostWrite a v s = .next (s.setMem (Memory.write s.mem a v)) := if_pos ha

theorem hostRead_answers {a : Nat} (ha : a < Config.rsbc.memSize) (s : State) :
    hostRead a s = .next (s.setResponse (some ((Memory.read s.mem a).setWidth 64))) := if_pos ha

/-- Settles O12, by cases on the host's next action: an instruction runs in a state that keeps the invariant, and an
access of the host to MEM is one that the invariant holds inside it. -/
theorem stepNeverStops : Obligations.StepNeverStops := by
  intro s hs
  cases hp : s.pending with
  | nil => exact ⟨s, step_idle hp⟩
  | cons a rest =>
    cases a with
    | transaction hd d =>
      cases hdec : decodeTransaction hd d with
      | ok i =>
        rw [step_transaction hp hdec]
        exact exec_answers i (hs.taken hp)
      | error e => exact ⟨_, step_reserved hp hdec⟩
    | memWrite a v => exact ⟨_, (step_memWrite hp).trans (hostWrite_answers (hs.next_address_lt hp rfl) v _)⟩
    | memRead a => exact ⟨_, (step_memRead hp).trans (hostRead_answers (hs.next_address_lt hp rfl) _)⟩

end Sys2Proof.Machine
end

section
/-! PROOF. How each command ends in a state that satisfies the invariant: the states in which it completes, those in which
it ends with an I/O error, and those to which fault entry applies (45_control.md R813; 60_exceptions.md R906, R921). -/

namespace Sys2Proof.Machine

/-! ## The three endings -/

/-- The states in which a command completes, before IOERR is cleared, with what the pseudocode leaves true of them. -/
inductive Completes : Instr → State → State → Prop where
  | nop {s : State} : Completes .nop s s
  | cinit {fl : Flow} {s : State} (hm : s.mode = .idle) : Completes (.cinit fl) s (s.openSession .raw fl .lsb)
  | cpush {n : Nat} {s : State} {c : BitCache} (hm : s.mode = .raw) (hc : c.wf) (hflow : c.flow = s.cache.flow) :
      Completes (.cpush n) s (s.setCache c)
  | cpeek {n : Nat} {s : State} (v : DWord) : Completes (.cpeek n) s (s.setResult v)
  | cskip {n : Nat} {s : State} {c : BitCache} (hm : s.mode = .raw) (hc : c.wf) (hflow : c.flow = s.cache.flow) :
      Completes (.cskip n) s (s.setCache c)
  | xhi {width : ExtractWidth} {n : Nat} {s : State} (v : DWord) : Completes (.xhi width n) s (s.setResult v)
  | xlo {width : ExtractWidth} {n : Nat} {s : State} (v : DWord) : Completes (.xlo width n) s (s.setResult v)
  | endIdle {s : State} (hm : s.mode = .idle) : Completes .endSession s s
  | endOpen {s : State} : Completes .endSession s s.closeSession
  | dstart {o : BitOrder} {s : State} (hm : s.mode = .idle) (hr : (srcWindow s.cfg).inRange Config.rsbc = true) :
      Completes (.dstart o) s ((s.openSession .dec (policy Config.rsbc o).flow o).setSrcPos 0)
  | getbits {n : Nat} {s : State} {k : Cursor} (hm : s.mode = .dec)
      (hk : k.Ready Config.rsbc s.order (srcWindow s.cfg)) (v : DWord) :
      Completes (.getbits n) s (((s.setCache k.cache).setSrcPos k.pos).setResult v)
  | estart {o : BitOrder} {s : State} (hm : s.mode = .idle) (hr : (snkWindow s.cfg).inRange Config.rsbc = true) :
      Completes (.estart o) s ((s.openSession .enc (policy Config.rsbc o).flow o).setSnkPos 0)
  | put {n : Nat} {s : State} {k : Sink} (hm : s.mode = .enc) (hk : k.Ready Config.rsbc s.order (snkWindow s.cfg)) :
      Completes (.put n) s (s.setSink k)
  | flush {s : State} {k : Sink} (hm : s.mode = .enc) (hk : k.Ready Config.rsbc s.order (snkWindow s.cfg)) :
      Completes .flush s (s.setSink k)
  | unpack {o : BitOrder} {ety : ElemType} {n : Nat} {s : State} {m : Memory} (hm : s.mode = .idle)
      (hmem : Memory.wf m ∧ Memory.within m Config.rsbc.memSize) :
      Completes (.unpack o ety n) s (s.setMem m).closeSession
  | pack {o : BitOrder} {ety : ElemType} {n : Nat} {s : State} {k : Sink} (hm : s.mode = .idle)
      (hk : k.Ready Config.rsbc o (snkWindow s.cfg)) : Completes (.pack o ety n) s (packedState s k)

/-- The states in which a command ends with an I/O error: PUT and FLUSH leave nothing of their effects, PACK leaves what it
wrote (60_exceptions.md R921; 43_packed_codec.md R642). -/
inductive EndsInIoError : Instr → State → State → Prop where
  | put {n : Nat} {s : State} : EndsInIoError (.put n) s s
  | flush {s : State} : EndsInIoError .flush s s
  | pack {o : BitOrder} {ety : ElemType} {n : Nat} {s : State} {k : Sink} (hm : s.mode = .idle)
      (hk : k.Ready Config.rsbc o (snkWindow s.cfg)) : EndsInIoError (.pack o ety n) s (packedState s k)

/-- The states to which the fault entry of a command applies: the one before it, or that with the pixel rectangle drawn
freely (60_exceptions.md R906; 43_packed_codec.md R620). -/
inductive FaultsFrom : Instr → State → State → Prop where
  | restored {i : Instr} {s : State} : FaultsFrom i s s
  | unpack {o : BitOrder} {ety : ElemType} {n : Nat} {s : State} (hm : s.mode = .idle)
      (hpix : (pixelRegion s.cfg ety).inRange Config.rsbc = true) :
      FaultsFrom (.unpack o ety n) s (s.freeRectangle ety)

/-- The ending is one of the command's own. -/
def CommandEnd.EndingOf (i : Instr) (s : State) : CommandEnd → Prop
  | .completes u => Completes i s u
  | .ioError u => EndsInIoError i s u
  | .faults f u => f.cause ≠ .noFault ∧ FaultsFrom i s u
  | .stops _ => False

/-- A raise is a fatal fault with a cause of the table of 60_exceptions.md R901. -/
def Raise.IsFault (e : Raise) : Prop := ∃ f : FaultRecord, f.cause ≠ .noFault ∧ e = .fault f

theorem isFault_raiseFault {c : Cause} (hc : c ≠ .noFault) (info : Nat) : (raiseFault c info).IsFault := ⟨_, hc, rfl⟩

theorem Raise.IsFault.atPixel {e : Raise} (h : e.IsFault) (r c : Nat) : (e.atPixel r c).IsFault := by
  obtain ⟨f, hf, rfl⟩ := h
  exact ⟨⟨f.cause, f.info, r, c⟩, hf, rfl⟩

section
variable {i : Instr} {s : State}

/-- A fault that leaves the state from before the command is an ending of every command. -/
theorem CommandEnd.endingOf_faults {f : FaultRecord} (hf : f.cause ≠ .noFault) :
    (CommandEnd.faults f s).EndingOf i s := ⟨hf, .restored⟩

theorem CommandEnd.endingOf_requireMode {m : Mode} {rest : CommandEnd} (h : s.mode = m → rest.EndingOf i s) :
    (requireMode m s rest).EndingOf i s := by
  rcases requireMode_cases m s rest with ⟨hm, heq⟩ | ⟨-, heq⟩
  · rw [heq]
    exact h hm
  · rw [heq]
    exact endingOf_faults Cause.noConfusion

theorem CommandEnd.endingOf_openOver {p : Config.Params} {w : Window} {sub : Nat} {opened : State}
    (h : w.inRange p = true → Completes i s opened) : (openOver p w sub s opened).EndingOf i s := by
  unfold openOver
  split
  · exact h ‹_›
  · exact endingOf_faults Cause.noConfusion

/-- Pseudocode that gives a state in which the command completes, or raises a fault or an I/O error that it may raise. -/
theorem CommandEnd.endingOf_ofExcept_map {α : Type} {x : Except Raise α} {f : α → State}
    (hok : ∀ a, x = .ok a → Completes i s (f a))
    (herr : ∀ e, x = .error e → e.IsFault ∨ e = .ioError ∧ EndsInIoError i s s) :
    (CommandEnd.ofExcept s (x.map f)).EndingOf i s := by
  cases x with
  | ok a => exact hok a rfl
  | error e =>
    rcases herr e rfl with ⟨g, hg, rfl⟩ | ⟨rfl, hio⟩
    · exact endingOf_faults hg
    · exact hio

/-- What a command whose ending is one of its own answers (45_control.md R813). -/
theorem runCommand_next_cases {t : State} {body : State → CommandEnd} (h : runCommand i s body = .next t)
    (hbody : (body s).EndingOf i s) :
    s.faulted = true ∧ t = s ∨
      s.faulted = false ∧
        ((∃ u, Completes i s u ∧ t = u.setIoerr false) ∨ (∃ u, EndsInIoError i s u ∧ t = u.setIoerr true) ∨
          ∃ f u, f.cause ≠ .noFault ∧ FaultsFrom i s u ∧ t = u.faultEntry (encode i).word f) := by
  rcases runCommand_next h with hskip | ⟨hf, ⟨u, hu, ht⟩ | ⟨u, hu, ht⟩ | ⟨f, u, hu, ht⟩⟩
  · exact .inl hskip
  · rw [hu] at hbody
    exact .inr ⟨hf, .inl ⟨u, hbody, ht⟩⟩
  · rw [hu] at hbody
    exact .inr ⟨hf, .inr (.inl ⟨u, hbody, ht⟩)⟩
  · rw [hu] at hbody
    exact .inr ⟨hf, .inr (.inr ⟨f, u, hbody.1, hbody.2, ht⟩)⟩

end

/-! ## The raises of the shared operations -/

theorem BitCache.push_error_isFault {c : BitCache} {v : DWord} {n : Nat} {e : Raise} (h : c.push v n = .error e) :
    e.IsFault := by
  obtain ⟨-, rfl⟩ := BitCache.push_error.1 h
  exact isFault_raiseFault Cause.noConfusion _

theorem countFault_isFault {n fill : Nat} {e : Raise} (h : countFault n fill = some e) : e.IsFault := by
  obtain ⟨c, rfl, hc, -⟩ := countFault_some h
  exact isFault_raiseFault hc _

theorem BitCache.peek_error_isFault {c : BitCache} {n : Nat} {e : Raise} (h : c.peek n = .error e) : e.IsFault := by
  rcases BitCache.peek_error h with hcount | ⟨-, rfl⟩
  · exact countFault_isFault hcount
  · exact isFault_raiseFault Cause.noConfusion _

theorem BitCache.skip_error_isFault {c : BitCache} {n : Nat} {e : Raise} (h : c.skip n = .error e) : e.IsFault := by
  obtain ⟨-, rfl⟩ := BitCache.skip_error.1 h
  exact isFault_raiseFault Cause.noConfusion _

theorem extractHigh_error_isFault {w n : Nat} {x : BitVec w} {e : Raise} (h : extractHigh w x n = .error e) :
    e.IsFault := by
  obtain ⟨-, rfl⟩ := extractHigh_error.1 h
  exact isFault_raiseFault Cause.noConfusion _

theorem extractLow_error_isFault {w n : Nat} {x : BitVec w} {e : Raise} (h : extractLow w x n = .error e) :
    e.IsFault := by
  obtain ⟨-, rfl⟩ := extractLow_error.1 h
  exact isFault_raiseFault Cause.noConfusion _

theorem ReadFailure.isFault {p : Config.Params} {o : BitOrder} {w : Window} {pos : Nat} {e : Raise}
    (hr : w.inRange p = true) (h : ReadFailure p o w pos e) : e.IsFault := by
  cases h with
  | endOfInput => exact isFault_raiseFault Cause.noConfusion _
  | badEscape => exact isFault_raiseFault Cause.noConfusion _
  | outside a hout => exact absurd hr (by simp [hout])

/-- GetBits over a window that lies in MEM raises fatal faults only (42_stream_engine.md R521). -/
theorem getBits_error_isFault {p : Config.Params} {o : BitOrder} {n : Nat} {mem : Memory} {w : Window} {k : Cursor}
    {e : Raise} (hr : w.inRange p = true) (hk : k.Ready p o w) (h : getBits p o n mem w k = .error e) : e.IsFault := by
  rcases getBits_error hr hk.wf hk.flow hk.inside h with hcount | ⟨-, -, pos, -, -, hread⟩
  · exact countFault_isFault hcount
  · exact hread.isFault hr

/-- Every check of the codec has a cause of its own (43_packed_codec.md R604). -/
theorem codecFault_cause_ne {p : Config.Params} {op : CodecOp} {o : BitOrder} {ety : ElemType} {cnt : Nat} {g : CfgRegs}
    {f : FaultRecord} (h : codecFault p op o ety cnt g = some f) : f.cause ≠ .noFault := by
  have causes : ∀ k ∈ codecChecks p op o ety cnt g, k.2.1 ≠ .noFault := by simp [codecChecks]
  obtain ⟨k, hk, rfl⟩ := Option.map_eq_some_iff.1 h
  exact causes k (List.mem_of_find?_eq_some hk)

/-! ## The row loops -/

section
variable {p : Config.Params} {o : BitOrder} {ety : ElemType} {w : Nat} {g : CfgRegs}

/-- The row loop of UNPACK raises fatal faults only (43_packed_codec.md R610, R620). -/
theorem unpackRow_error_isFault {r : Nat} (hpk : (packedRow g r).inRange p = true)
    (hpix : (pixelRegion g ety).inRange p = true) (hr : r < g.dimRows.toNat) {m : Memory}
    (hm : Memory.wf m ∧ Memory.within m p.memSize) {e : Raise} (h : unpackRow p o ety w g m r = .error e) : e.IsFault := by
  simp only [unpackRow, bind, Except.bind] at h
  split at h
  · rename_i hx
    cases h
    obtain ⟨c, hc, x, hready, hpixel⟩ :=
      foldlM_range_error (P := fun _ => UnpackReady p o g r) ⟨Cursor.ready_fresh p o _, hm⟩
        (fun c hc _ _ => unpackPixel_keeps_ready hpk hpix hr hc) hx
    rcases unpackPixel_error hpixel with ⟨e', hget, rfl⟩ | ⟨b, rfl⟩
    · exact (getBits_error_isFault hpk hready.1 hget).atPixel r c
    · exact absurd hpixel (unpackPixel_ne_stop hpk hpix hr hc hready _)
  · cases h

theorem unpackRows_error_isFault (hpk : (packedRegion g).inRange p = true)
    (hpix : (pixelRegion g ety).inRange p = true) {m : Memory} (hm : Memory.wf m ∧ Memory.within m p.memSize) {e : Raise}
    (h : unpackRows p o ety w g m = .error e) : e.IsFault := by
  obtain ⟨r, hr, u, hu, hrow⟩ :=
    foldlM_range_error (P := fun _ m => Memory.wf m ∧ Memory.within m p.memSize) hm
      (fun r hr _ _ => unpackRow_keeps_mem (packedRow_inRange hpk hr) hpix hr) h
  exact unpackRow_error_isFault (packedRow_inRange hpk hr) hpix hr hu hrow

theorem unpackRows_keeps_mem (hpk : (packedRegion g).inRange p = true)
    (hpix : (pixelRegion g ety).inRange p = true) {m m' : Memory} (hm : Memory.wf m ∧ Memory.within m p.memSize)
    (h : unpackRows p o ety w g m = .ok m') : Memory.wf m' ∧ Memory.within m' p.memSize :=
  foldlM_range_ok (P := fun _ m => Memory.wf m ∧ Memory.within m p.memSize) hm
    (fun _ hr _ _ => unpackRow_keeps_mem (packedRow_inRange hpk hr) hpix hr) h

theorem PackOutcome.ready {x : Except (Raise × Sink) Sink} (hx : PackOutcome p o g x) {k : Sink} (h : x = .ok k) :
    k.Ready p o (snkWindow g) := by
  subst h
  exact hx

/-- Where a row of PACK raises, the sink it keeps is one between two operations (43_packed_codec.md R642). -/
theorem packRow_error_ready (hg : PackChecked p ety w g) {r : Nat} (hr : r < g.dimRows.toNat) {k : Sink}
    (hk : k.Ready p o (snkWindow g)) {x : Raise × Sink} (h : packRow p o ety w g k r = .error x) :
    x.2.Ready p o (snkWindow g) := by
  have pixel : ∀ c < g.dimCols.toNat, ∀ u v, u.Ready p o (snkWindow g) →
      packPixel p o ety w g r u c = .ok v → v.Ready p o (snkWindow g) :=
    fun c hc _ _ hu => (packPixel_outcome hg hr hc hu).ready
  simp only [packRow, bind, Except.bind] at h
  split at h
  · rename_i hpixels
    cases h
    obtain ⟨c, -, u, hu, hpixel⟩ :=
      foldlM_range_error (P := fun _ k => k.Ready p o (snkWindow g)) hk.fresh pixel hpixels
    exact (Sink.attempt_error hpixel).2 ▸ hu
  · rename_i k₁ hpixels
    have hk₁ := foldlM_range_ok (P := fun _ k => k.Ready p o (snkWindow g)) hk.fresh pixel hpixels
    split at h
    · rename_i hflush
      cases h
      exact (Sink.attempt_error hflush).2 ▸ hk₁
    · rename_i k₂ hflush
      exact (Sink.attempt_error h).2 ▸ flushBits_keeps_ready hk₁ (Sink.attempt_ok hflush)

theorem packRows_error_ready (hg : PackChecked p ety w g) {m : Memory} (hwf : Memory.wf m)
    (hwithin : Memory.within m p.memSize) {x : Raise × Sink} (h : packRows p o ety w g m = .error x) :
    x.2.Ready p o (snkWindow g) := by
  obtain ⟨r, hr, u, hu, hrow⟩ :=
    foldlM_range_error (P := fun _ k => k.Ready p o (snkWindow g))
      ⟨BitCache.wf_empty _, rfl, by simp, Nat.zero_le _, hwf, hwithin⟩
      (fun _ hr _ _ hk => (packRow_outcome hg hr hk).ready) h
  exact packRow_error_ready hg hr hu hrow

end

/-! ## The ending of each command -/

open CommandEnd

theorem endBody_endingOf (s : State) : (endBody s).EndingOf .endSession s := by
  unfold endBody
  split
  case h_1 hm => exact Completes.endIdle hm
  case h_2 => exact Completes.endOpen
  case h_3 => exact Completes.endOpen
  case h_4 =>
    split
    · exact endingOf_faults Cause.noConfusion
    · exact Completes.endOpen

theorem getbitsBody_endingOf {s : State} (hs : s.Inv) (n : Nat) :
    (getbitsBody Config.rsbc n s).EndingOf (.getbits n) s := by
  refine endingOf_requireMode fun hm => ?_
  obtain ⟨hready, hrange⟩ := hs.cursor_ready hm
  exact endingOf_ofExcept_map (fun _ h => .getbits hm (getBits_keeps_ready hrange hready h) _) fun _ h =>
    .inl (getBits_error_isFault hrange hready h)

theorem putBody_endingOf {s : State} (hs : s.Inv) (n : Nat) : (putBody Config.rsbc n s).EndingOf (.put n) s := by
  refine endingOf_requireMode fun hm => ?_
  obtain ⟨hready, hrange⟩ := hs.sink_ready hm
  refine endingOf_ofExcept_map (fun _ h => .put hm (putBits_keeps_ready hready h)) fun e h => ?_
  rcases putBits_error hrange hready.memWf (Nat.le_succ_of_le hready.fill) h with ⟨-, rfl⟩ | ⟨-, -, rfl⟩
  · exact .inl (isFault_raiseFault Cause.noConfusion _)
  · exact .inr ⟨rfl, .put⟩

theorem flushBody_endingOf {s : State} (hs : s.Inv) : (flushBody Config.rsbc s).EndingOf .flush s := by
  refine endingOf_requireMode fun hm => ?_
  obtain ⟨hready, hrange⟩ := hs.sink_ready hm
  exact endingOf_ofExcept_map (fun _ h => .flush hm (flushBits_keeps_ready hready h)) fun _ h =>
    .inr ⟨flushBits_eq_ioError hrange hready h, .flush⟩

theorem unpackBody_endingOf {s : State} (hs : s.Inv) (o : BitOrder) (ety : ElemType) (cnt : Nat) :
    (unpackBody Config.rsbc o ety cnt s).EndingOf (.unpack o ety cnt) s := by
  obtain ⟨-, hwf, hwithin, -⟩ := hs
  refine endingOf_requireMode fun hm => ?_
  cases hcheck : codecFault Config.rsbc .unpack o ety cnt s.cfg with
  | some f => exact endingOf_faults (codecFault_cause_ne hcheck)
  | none =>
    obtain ⟨-, -, -, -, -, -, -, hpk, hpix, -⟩ := codecFault_unpack_none hcheck
    cases hrows : unpackRows Config.rsbc o ety (pixelWidth ety cnt) s.cfg s.mem with
    | ok m => exact Completes.unpack hm (unpackRows_keeps_mem hpk hpix ⟨hwf, hwithin⟩ hrows)
    | error e =>
      obtain ⟨f, hf, rfl⟩ := unpackRows_error_isFault hpk hpix ⟨hwf, hwithin⟩ hrows
      exact ⟨hf, .unpack hm hpix⟩

theorem packBody_endingOf {s : State} (hs : s.Inv) (o : BitOrder) (ety : ElemType) (cnt : Nat) :
    (packBody Config.rsbc o ety cnt s).EndingOf (.pack o ety cnt) s := by
  obtain ⟨-, hwf, hwithin, -⟩ := hs
  refine endingOf_requireMode fun hm => ?_
  cases hcheck : codecFault Config.rsbc .pack o ety cnt s.cfg with
  | some f => exact endingOf_faults (codecFault_cause_ne hcheck)
  | none =>
    have hg := packChecked_of_codecFault hcheck
    have houtcome := packRows_outcome (o := o) hg hwf hwithin
    cases hrows : packRows Config.rsbc o ety (pixelWidth ety cnt) s.cfg s.mem with
    | ok k => exact Completes.pack hm (houtcome.ready hrows)
    | error x =>
      rw [hrows] at houtcome
      obtain ⟨e, k⟩ := x
      obtain rfl : e = .ioError := houtcome
      exact EndsInIoError.pack hm (packRows_error_ready hg hwf hwithin hrows)

/-- What every command answers in a state that satisfies the invariant (45_control.md R813; 60_exceptions.md R930). -/
theorem exec_command_cases {i : Instr} (hi : isCommand i = true) {s t : State} (hs : s.Inv) (h : exec i s = .next t) :
    s.faulted = true ∧ t = s ∨
      s.faulted = false ∧
        ((∃ u, Completes i s u ∧ t = u.setIoerr false) ∨ (∃ u, EndsInIoError i s u ∧ t = u.setIoerr true) ∨
          ∃ f u, f.cause ≠ .noFault ∧ FaultsFrom i s u ∧ t = u.faultEntry (encode i).word f) := by
  have hwf := hs.1
  cases i with
  | nop => exact runCommand_next_cases h Completes.nop
  | cinit fl =>
    unfold exec execCinit at h
    exact runCommand_next_cases h (endingOf_requireMode fun hm => Completes.cinit hm)
  | cpush n =>
    unfold exec execCpush at h
    refine runCommand_next_cases h (endingOf_requireMode fun hm => endingOf_ofExcept_map (fun c hc => ?_) fun _ he => ?_)
    · obtain ⟨-, hc', hflow, -⟩ := BitCache.push_ok hwf hc
      exact .cpush hm hc' hflow
    · exact .inl (BitCache.push_error_isFault he)
  | cpeek n =>
    unfold exec execCpeek at h
    exact runCommand_next_cases h (endingOf_requireMode fun _ =>
      endingOf_ofExcept_map (fun _ _ => .cpeek _) fun _ he => .inl (BitCache.peek_error_isFault he))
  | cskip n =>
    unfold exec execCskip at h
    refine runCommand_next_cases h (endingOf_requireMode fun hm => endingOf_ofExcept_map (fun c hc => ?_) fun _ he => ?_)
    · obtain ⟨-, hc', hflow, -⟩ := BitCache.skip_ok hwf hc
      exact .cskip hm hc' hflow
    · exact .inl (BitCache.skip_error_isFault he)
  | xhi width n =>
    unfold exec execXhi at h
    exact runCommand_next_cases h
      (endingOf_ofExcept_map (fun _ _ => .xhi _) fun _ he => .inl (extractHigh_error_isFault he))
  | xlo width n =>
    unfold exec execXlo at h
    exact runCommand_next_cases h
      (endingOf_ofExcept_map (fun _ _ => .xlo _) fun _ he => .inl (extractLow_error_isFault he))
  | endSession => exact runCommand_next_cases h (endBody_endingOf s)
  | dstart o =>
    exact runCommand_next_cases h (endingOf_requireMode fun hm => endingOf_openOver fun hr => .dstart hm hr)
  | getbits n => exact runCommand_next_cases h (getbitsBody_endingOf hs n)
  | estart o =>
    exact runCommand_next_cases h (endingOf_requireMode fun hm => endingOf_openOver fun hr => .estart hm hr)
  | put n => exact runCommand_next_cases h (putBody_endingOf hs n)
  | flush => exact runCommand_next_cases h (flushBody_endingOf hs)
  | unpack o ety cnt => exact runCommand_next_cases h (unpackBody_endingOf hs o ety cnt)
  | pack o ety cnt => exact runCommand_next_cases h (packBody_endingOf hs o ety cnt)
  | regrd idx => cases hi
  | regwr idx v => cases hi
  | reset => cases hi

end Sys2Proof.Machine
end

section
/-! PROOF. The invariant holds after power-on and every step keeps it (10_state.md R121, R122, R125; 42_stream_engine.md
R534; 60_exceptions.md R901; 70_reset_and_hazards.md R1001). -/

namespace Sys2Proof.Machine

/-! ## The invariant by mode -/

/-- The part of the invariant that does not speak of the session: MEM, the fault record, and the host's next actions. -/
def State.SoundOutside (s : State) : Prop :=
  Memory.wf s.mem ∧ Memory.within s.mem Config.rsbc.memSize ∧ s.FaultOk ∧ s.HostOk

theorem State.Inv.soundOutside {s : State} (hs : s.Inv) : s.SoundOutside := by
  obtain ⟨-, hwf, hwithin, -, -, -, -, hfault, hhost⟩ := hs
  exact ⟨hwf, hwithin, hfault, hhost⟩

theorem State.SoundOutside.setMem {s : State} (h : s.SoundOutside) {m : Memory}
    (hm : Memory.wf m ∧ Memory.within m Config.rsbc.memSize) : (s.setMem m).SoundOutside := by
  obtain ⟨-, -, hfault, hhost⟩ := h
  exact ⟨hm.1, hm.2, hfault, hhost⟩

section
variable {s : State}

theorem State.inv_of_idle (h : s.SoundOutside) (hm : s.mode = .idle) (hc : s.cache = BitCache.empty .lsbFirst)
    (ho : s.order = .lsb) : s.Inv := by
  obtain ⟨hwf, hwithin, hfault, hhost⟩ := h
  exact ⟨hc ▸ BitCache.wf_empty _, hwf, hwithin, fun _ => ⟨hc, ho⟩, by simp [hm], by simp [hm], by simp [hm], hfault,
    hhost⟩

theorem State.inv_of_raw (h : s.SoundOutside) (hm : s.mode = .raw) (hc : s.cache.wf) (ho : s.order = .lsb) : s.Inv := by
  obtain ⟨hwf, hwithin, hfault, hhost⟩ := h
  exact ⟨hc, hwf, hwithin, by simp [hm], fun _ => ho, by simp [hm], by simp [hm], hfault, hhost⟩

theorem State.inv_of_dec (h : s.SoundOutside) (hm : s.mode = .dec)
    (hk : s.cursor.Ready Config.rsbc s.order (srcWindow s.cfg)) (hr : (srcWindow s.cfg).inRange Config.rsbc = true) :
    s.Inv := by
  obtain ⟨hwf, hwithin, hfault, hhost⟩ := h
  exact ⟨hk.wf, hwf, hwithin, by simp [hm], by simp [hm], fun _ => ⟨hk.flow, hk.fill, hk.inside, hr⟩, by simp [hm],
    hfault, hhost⟩

theorem State.inv_of_enc (h : s.SoundOutside) (hm : s.mode = .enc)
    (hk : s.sink.Ready Config.rsbc s.order (snkWindow s.cfg)) (hr : (snkWindow s.cfg).inRange Config.rsbc = true) :
    s.Inv := by
  obtain ⟨hwf, hwithin, hfault, hhost⟩ := h
  exact ⟨hk.wf, hwf, hwithin, by simp [hm], by simp [hm], by simp [hm], fun _ => ⟨hk.flow, hk.fill, hk.inside, hr⟩,
    hfault, hhost⟩

/-- The state without a session that is left when one is closed (10_state.md R123, R125). -/
theorem State.closeSession_inv (h : s.SoundOutside) : s.closeSession.Inv :=
  inv_of_idle h rfl rfl rfl

/-! ## The updates that keep the invariant -/

theorem State.Inv.setMem (hs : s.Inv) {m : Memory} (hm : Memory.wf m ∧ Memory.within m Config.rsbc.memSize) :
    (s.setMem m).Inv := by
  obtain ⟨hcache, -, -, hidle, hraw, hdec, henc, hfault, hhost⟩ := hs
  exact ⟨hcache, hm.1, hm.2, hidle, hraw, hdec, henc, hfault, hhost⟩

/-- Fault entry with a cause of the table keeps the invariant (60_exceptions.md R901, R906). -/
theorem State.Inv.faultEntry (hs : s.Inv) (w : Word) {f : FaultRecord} (hf : f.cause ≠ .noFault) :
    (s.faultEntry w f).Inv := by
  obtain ⟨hcache, hwf, hwithin, hidle, hraw, hdec, henc, -, hhost⟩ := hs
  exact ⟨hcache, hwf, hwithin, hidle, hraw, hdec, henc, ⟨fun _ => hf, Bool.noConfusion⟩, hhost⟩

/-- Without a session the CFG registers are free (10_state.md R119). -/
theorem State.Inv.setCfg (hs : s.Inv) (hm : s.mode = .idle) (g : CfgRegs) : (s.setCfg g).Inv := by
  have ⟨_, _, _, hidle, _⟩ := hs
  obtain ⟨hcache, horder⟩ := hidle hm
  exact inv_of_idle hs.soundOutside hm hcache horder

/-- The rectangle drawn freely lies in MEM (43_packed_codec.md R604, R620). -/
theorem State.Inv.freeRectangle (hs : s.Inv) {ety : ElemType}
    (hpix : (pixelRegion s.cfg ety).inRange Config.rsbc = true) : (s.freeRectangle ety).Inv := by
  obtain ⟨hcache, hwf, hwithin, hidle, hraw, hdec, henc, hfault, hhost⟩ := hs
  have inside : ∀ a ∈ rectangleAddrs s.cfg ety, a < Config.rsbc.memSize := by
    intro a ha
    obtain ⟨r, hr, c, hc, i, hi, rfl⟩ := mem_rectangleAddrs.1 ha
    obtain ⟨-, -, hend⟩ := pixelAddr_lt hpix hr hc
    omega
  exact ⟨hcache, Memory.wf_foldl_write hwf _ _, Memory.within_foldl_write hwithin inside _, hidle, hraw, hdec, henc, hfault,
    hhost⟩

/-- RESET leaves the block as power-on does, and the host's actions and MEM as they are (70_reset_and_hazards.md R1001,
R1002). -/
theorem State.Inv.resetBlock (hs : s.Inv) : s.resetBlock.Inv := by
  obtain ⟨hwf, hwithin, -, hhost⟩ := hs.soundOutside
  exact inv_of_idle ⟨hwf, hwithin, ⟨Bool.noConfusion, fun _ => ⟨rfl, rfl, rfl, rfl, rfl⟩⟩, hhost⟩ rfl rfl rfl

/-! ## Positions as 32-bit registers -/

theorem State.setSrcPos_cursor {k : Cursor} {o : BitOrder} (hk : k.Ready Config.rsbc o (srcWindow s.cfg)) :
    ((s.setCache k.cache).setSrcPos k.pos).cursor = k := by
  have hpos : (BitVec.ofNat 32 k.pos).toNat = k.pos := Nat.mod_eq_of_lt (Nat.lt_of_le_of_lt hk.inside s.cfg.srcLen.isLt)
  simp only [State.cursor, State.setCache_cache, State.setSrcPos_cache, State.setSrcPos_srcPos, hpos]

theorem State.setSink_sink {k : Sink} {o : BitOrder} (hk : k.Ready Config.rsbc o (snkWindow s.cfg)) :
    (s.setSink k).sink = k := by
  have hpos : (BitVec.ofNat 32 k.pos).toNat = k.pos := Nat.mod_eq_of_lt (Nat.lt_of_le_of_lt hk.inside s.cfg.snkCap.isLt)
  simp only [State.sink, State.setSink_cache, State.setSink_snkPos, State.setSink_mem, hpos]

/-- A sink put back in an encode session keeps the invariant (42_stream_engine.md R532, R534). -/
theorem State.Inv.setSink (hs : s.Inv) (hm : s.mode = .enc) {k : Sink}
    (hk : k.Ready Config.rsbc s.order (snkWindow s.cfg)) : (s.setSink k).Inv := by
  refine inv_of_enc (hs.soundOutside.setMem ⟨hk.memWf, hk.memWithin⟩) hm ?_ (hs.sink_ready hm).2
  rw [setSink_sink hk]
  exact hk

/-- A cache put back in a raw session keeps the invariant (41_bit_cache.md R405, R407). -/
theorem State.Inv.setCache (hs : s.Inv) (hm : s.mode = .raw) {c : BitCache} (hc : c.wf) : (s.setCache c).Inv := by
  have ⟨_, _, _, _, hraw, _⟩ := hs
  exact inv_of_raw hs.soundOutside hm hc (hraw hm)

/-- The state in which PACK ends has no session, and MEM as the sink left it (43_packed_codec.md R642). -/
theorem State.Inv.packedState (hs : s.Inv) {k : Sink} {o : BitOrder}
    (hk : k.Ready Config.rsbc o (snkWindow s.cfg)) : (packedState s k).Inv :=
  closeSession_inv (hs.soundOutside.setMem ⟨hk.memWf, hk.memWithin⟩)

end

/-! ## Commands -/

section
variable {i : Instr} {s u : State}

theorem Completes.inv (h : Completes i s u) (hs : s.Inv) : u.Inv := by
  have hout := hs.soundOutside
  cases h with
  | nop => exact hs
  | cinit hm => exact State.inv_of_raw hout rfl (BitCache.wf_empty _) rfl
  | cpush hm hc hflow => exact hs.setCache hm hc
  | cpeek v => exact hs
  | cskip hm hc hflow => exact hs.setCache hm hc
  | xhi v => exact hs
  | xlo v => exact hs
  | endIdle hm => exact hs
  | endOpen => exact State.closeSession_inv hout
  | dstart hm hr =>
    exact State.inv_of_dec hout rfl (Cursor.ready_fresh _ _ _) hr
  | getbits hm hk v =>
    refine State.inv_of_dec hout hm ?_ (hs.cursor_ready hm).2
    exact (State.setSrcPos_cursor (s := s) hk).symm ▸ hk
  | estart hm hr =>
    refine State.inv_of_enc hout rfl ?_ hr
    obtain ⟨hwf, hwithin, -⟩ := hout
    exact ⟨BitCache.wf_empty _, rfl, by simp [State.sink], by simp [State.sink], hwf, hwithin⟩
  | put hm hk => exact hs.setSink hm hk
  | flush hm hk => exact hs.setSink hm hk
  | unpack hm hmem => exact State.closeSession_inv (hout.setMem hmem)
  | pack hm hk => exact hs.packedState hk

theorem EndsInIoError.inv (h : EndsInIoError i s u) (hs : s.Inv) : u.Inv := by
  cases h with
  | put => exact hs
  | flush => exact hs
  | pack hm hk => exact hs.packedState hk

theorem FaultsFrom.inv (h : FaultsFrom i s u) (hs : s.Inv) : u.Inv := by
  cases h with
  | restored => exact hs
  | unpack hm hpix => exact hs.freeRectangle hpix

end

theorem exec_command_keeps_inv {i : Instr} (hi : isCommand i = true) {s t : State} (hs : s.Inv)
    (h : exec i s = .next t) : t.Inv := by
  obtain ⟨-, rfl⟩ | ⟨-, ⟨u, hu, rfl⟩ | ⟨u, hu, rfl⟩ | ⟨f, u, hf, hu, rfl⟩⟩ := exec_command_cases hi hs h
  · exact hs
  · exact hu.inv hs
  · exact hu.inv hs
  · exact (hu.inv hs).faultEntry _ hf

/-! ## Host transactions and steps -/

/-- A word written to CMD, legal or not, keeps the invariant (45_control.md R813). -/
theorem execute_keeps_inv {w : Word} {s t : State} (hs : s.Inv) (h : execute w s = .next t) : t.Inv := by
  cases hd : decodeCommand w with
  | ok i =>
    have hi := decodeCommand_isCommand hd
    rw [execute_ok hd, runDecoded_eq_exec hi] at h
    exact exec_command_keeps_inv hi hs h
  | error e =>
    rw [execute_error hd] at h
    cases h
    exact hs.faultEntry w Cause.noConfusion

/-- A write to a register other than CMD keeps the invariant: the CFG registers of an open session are shut
(10_state.md R119). -/
theorem writeReg_keeps_inv {s : State} (hs : s.Inv) (r : Reg) (v : DWord) : (writeReg s r v).Inv := by
  unfold writeReg
  split
  · exact hs
  · split
    · exact hs.setCfg ‹_› _
    · exact hs
  · exact hs
  · exact hs

theorem execRegwr_keeps_inv {idx : BitVec 8} {v : DWord} {s t : State} (hs : s.Inv) (h : execRegwr idx v s = .next t) :
    t.Inv := by
  unfold execRegwr at h
  split at h
  · cases h
    exact hs
  · split at h
    · exact execute_keeps_inv hs h
    · cases h
      exact writeReg_keeps_inv hs _ v
    · cases h
      exact hs

theorem exec_keeps_inv {i : Instr} {s t : State} (hs : s.Inv) (h : exec i s = .next t) : t.Inv := by
  by_cases hi : isCommand i = true
  · exact exec_command_keeps_inv hi hs h
  · cases i with
    | regrd idx =>
      cases h
      exact hs
    | regwr idx v => exact execRegwr_keeps_inv hs h
    | reset =>
      cases h
      exact hs.resetBlock
    | _ => exact absurd rfl hi

/-- Settles O11, by cases on the host's next action: an instruction keeps the invariant, and the host's own accesses to MEM
keep its canonical form. -/
theorem stepKeepsInvariant : Obligations.StepKeepsInvariant := by
  intro s t hs h
  cases hp : s.pending with
  | nil =>
    rw [step_idle hp] at h
    cases h
    exact hs
  | cons a rest =>
    have htaken := hs.taken hp
    cases a with
    | transaction hd d =>
      cases hdec : decodeTransaction hd d with
      | ok i =>
        rw [step_transaction hp hdec] at h
        exact exec_keeps_inv htaken h
      | error e =>
        rw [step_reserved hp hdec] at h
        cases h
        exact htaken
    | memWrite a v =>
      have ha : a < Config.rsbc.memSize := hs.next_address_lt hp rfl
      rw [step_memWrite hp, hostWrite_answers ha] at h
      cases h
      obtain ⟨hwf, hwithin, -⟩ := hs.soundOutside
      exact htaken.setMem ⟨Memory.wf_write hwf a v, Memory.within_write hwithin ha v⟩
    | memRead a =>
      rw [step_memRead hp, hostRead_answers (hs.next_address_lt hp rfl)] at h
      cases h
      exact htaken

/-- Settles O10: the state after power-on has no session, an empty MEM, no fault and no host action pending. -/
theorem invariantAtReset : Obligations.InvariantAtReset :=
  State.inv_of_idle ⟨Memory.wf_nil, by simp [State.reset], by decide, by simp [State.HostOk, State.reset]⟩ rfl rfl rfl

end Sys2Proof.Machine
end

section
/-! PROOF. What no command but the named ones writes (10_state.md R101, R103, R104, R108, R109, R123). -/

namespace Sys2Proof.Machine

section
variable {s : State}

/-- UNPACK opens no session of the machine's own: closing it leaves the state without a session as it was (10_state.md
R123; 43_packed_codec.md R602). -/
theorem State.Inv.closeSession_setMem (hs : s.Inv) (hm : s.mode = .idle) (m : Memory) :
    (s.setMem m).closeSession = s.setMem m := by
  obtain ⟨-, -, -, hidle, -⟩ := hs
  exact closeSession_idle hm hidle

/-- PACK leaves MEM and SNK_POS as its rows did, and the rest as it was (10_state.md R123; 43_packed_codec.md R643). -/
theorem State.Inv.packedState_eq (hs : s.Inv) (hm : s.mode = .idle) (k : Sink) :
    Machine.packedState s k = (s.setMem k.mem).setSnkPos k.pos := by
  obtain ⟨-, -, -, hidle, -⟩ := hs
  exact closeSession_idle hm hidle

/-- A decode session goes on in its own flow (42_stream_engine.md R500). -/
theorem State.Inv.cursor_flow (hs : s.Inv) (hm : s.mode = .dec) {k : Cursor}
    (hk : k.Ready Config.rsbc s.order (srcWindow s.cfg)) : k.cache.flow = s.cache.flow :=
  hk.flow.trans (hs.cursor_ready hm).1.flow.symm

/-- An encode session goes on in its own flow (42_stream_engine.md R501). -/
theorem State.Inv.sink_flow (hs : s.Inv) (hm : s.mode = .enc) {k : Sink}
    (hk : k.Ready Config.rsbc s.order (snkWindow s.cfg)) : k.cache.flow = s.cache.flow :=
  hk.flow.trans (hs.sink_ready hm).1.flow.symm

end

/-- Settles O19, by cases on how the command ends: each ending is the state before the command with the command's own
updates. A session goes on in its own flow, and the codec commands close no session that was open. -/
theorem onlyNamedCommandsWrite : Obligations.OnlyNamedCommandsWrite := by
  intro i s t hi hs h
  obtain ⟨hf, rfl⟩ | ⟨-, ⟨u, hu, rfl⟩ | ⟨u, hu, rfl⟩ | ⟨f, u, -, hu, rfl⟩⟩ := exec_command_cases hi hs h
  · cases i <;> simp [hf]
  · cases hu with
    | nop => simp
    | cinit hm => simp
    | cpush hm hc hflow => simp [hflow]
    | cpeek v => simp
    | cskip hm hc hflow => simp [hflow]
    | xhi v => simp
    | xlo v => simp
    | endIdle hm => simp
    | endOpen => simp
    | dstart hm hr => simp
    | getbits hm hk v => simp [hs.cursor_flow hm hk]
    | estart hm hr => simp
    | put hm hk => simp [hs.sink_flow hm hk]
    | flush hm hk => simp [hs.sink_flow hm hk]
    | unpack hm hmem => simp [hs.closeSession_setMem hm]
    | pack hm hk => simp [hs.packedState_eq hm]
  · cases hu with
    | put => simp
    | flush => simp
    | pack hm hk => simp [hs.packedState_eq hm]
  · cases hu with
    | restored => cases i <;> simp
    | unpack hm hpix => simp

end Sys2Proof.Machine
end

section
/-! PROOF. What FAULTED = 1 holds off, and what STATUS shows (10_state.md R102, R118; 60_exceptions.md R907). -/

namespace Sys2Proof.Machine

/-! ## FAULTED -/

section
variable {s t : State}

/-- While FAULTED = 1 no command is executed (60_exceptions.md R930). -/
theorem exec_command_faulted {i : Instr} (hi : isCommand i = true) (hf : s.faulted = true) : exec i s = .next s := by
  cases i with
  | regrd idx => cases hi
  | regwr idx v => cases hi
  | reset => cases hi
  | _ => exact if_pos hf

/-- While FAULTED = 1 a host write has no effect (10_state.md R118). -/
theorem exec_regwr_faulted (hf : s.faulted = true) (idx : BitVec 8) (v : DWord) : exec (.regwr idx v) s = .next s :=
  if_pos hf

/-- Every register but STATUS reads the same with and without the fault (10_state.md R102, R118). -/
theorem readReg_clearFaulted {r : Reg} (hr : r ≠ .status) (s : State) :
    ({ s with faulted := false } : State).readReg r = s.readReg r := by
  cases r with
  | status => exact absurd rfl hr
  | _ => rfl

theorem regRead_clearFaulted {idx : BitVec 8} (hidx : idx ≠ 0x00) (s : State) :
    regRead { s with faulted := false } idx = regRead s idx := by
  unfold regRead
  cases hr : Reg.ofIndex idx with
  | none => rfl
  | some r =>
    refine readReg_clearFaulted ?_ s
    rintro rfl
    exact hidx (Reg.ofIndex_eq_some.1 hr).symm

/-- RESET is the one instruction that clears FAULTED (60_exceptions.md R907). -/
theorem eq_reset_of_exec_clears {i : Instr} (hf : s.faulted = true) (h : exec i s = .next t) (ht : t.faulted = false) :
    i = .reset := by
  have stays : exec i s = .next s → i = .reset := by
    intro hsame
    obtain rfl : s = t := Host.Outcome.next.inj (hsame.symm.trans h)
    exact absurd hf (by simp [ht])
  by_cases hi : isCommand i = true
  · exact stays (exec_command_faulted hi hf)
  · cases i with
    | regrd idx =>
      cases h
      exact absurd hf (by simpa using ht)
    | regwr idx v => exact stays (exec_regwr_faulted hf idx v)
    | reset => rfl
    | _ => exact absurd rfl hi

/-- The header of RESET is the word 0xC000 (30_encoding.md R301, R302). -/
theorem eq_of_decodeTransaction_reset {hd : BitVec 16} {d : DWord} (h : decodeTransaction hd d = .ok .reset) :
    hd = 0xC000 := by
  unfold decodeTransaction at h
  split at h
  · cases h
  rename_i hzero
  split at h
  · cases h
  rename_i h0
  split at h
  · cases h
  rename_i h1
  split at h
  · cases h
  rename_i h2
  split at h
  · rename_i hidx
    rw [not_not] at hzero
    rw [BitVec.toNat_eq] at hzero h0 h1 h2 hidx ⊢
    simp [kindField, indexField, Nat.shiftRight_eq_div_pow] at hzero h0 h1 h2 hidx ⊢
    omega
  · cases h

/-- Taking an action leaves FAULTED, so a step that clears it ran RESET. -/
theorem reset_pending_of_step_clears (hf : s.faulted = true) (h : step s = .next t) (ht : t.faulted = false) :
    ∃ d rest, s.pending = .transaction 0xC000 d :: rest := by
  have kept : t.faulted ≠ s.faulted := by simp [hf, ht]
  cases hp : s.pending with
  | nil =>
    rw [step_idle hp] at h
    cases h
    exact absurd rfl kept
  | cons a rest =>
    cases a with
    | transaction hd d =>
      cases hdec : decodeTransaction hd d with
      | ok i =>
        rw [step_transaction hp hdec] at h
        obtain rfl := eq_reset_of_exec_clears (by simpa using hf) h ht
        obtain rfl := eq_of_decodeTransaction_reset hdec
        exact ⟨d, rest, rfl⟩
      | error e =>
        rw [step_reserved hp hdec] at h
        cases h
        exact absurd rfl kept
    | memWrite a v =>
      rw [step_memWrite hp, hostWrite] at h
      split at h <;> cases h
      exact absurd rfl kept
    | memRead a =>
      rw [step_memRead hp, hostRead] at h
      split at h <;> cases h
      exact absurd rfl kept

end

/-- Settles O15: commands and writes by the gate of FAULTED, reads because only STATUS shows FAULTED, and the way out by
cases on the host's next action. -/
theorem faultedIsSticky : Obligations.FaultedIsSticky := by
  intro s hf
  refine ⟨fun i hi => exec_command_faulted hi hf, exec_regwr_faulted hf, fun idx => ⟨rfl, fun hidx => ?_⟩, fun t ht => ?_,
    fun t => reset_pending_of_step_clears hf⟩
  · exact (regRead_clearFaulted hidx s).symm
  · cases ht
    rfl

/-! ## STATUS -/

/-- Fields side by side, as a number (00_scope.md R9). -/
theorem toNat_append_eq_add {m n : Nat} (x : BitVec m) (y : BitVec n) : (x ++ y).toNat = 2 ^ n * x.toNat + y.toNat := by
  rw [BitVec.toNat_append, ← Nat.shiftLeft_add_eq_or_of_lt y.isLt, Nat.shiftLeft_eq, Nat.mul_comm]

/-- STATUS is the sum of its fields, each at its place (10_state.md R102). -/
theorem statusWord_toNat (s : State) :
    (statusWord s).toNat = s.faulted.toNat + 2 * s.ioerr.toNat + 4 * s.mode.code.toNat + 16 * (statusFlow s).toNat +
      32 * (statusOrder s).toNat + 256 * (statusFill s).toNat + 65536 * (statusCause s).toNat := by
  simp only [statusWord, toNat_append_eq_add, BitVec.toNat_ofBool, BitVec.toNat_ofNat]
  omega

/-- F is shown whole (10_state.md R102, R121). -/
theorem statusFill_toNat {s : State} (h : s.cache.fill ≤ 64) : (statusFill s).toNat = s.cache.fill :=
  Nat.mod_eq_of_lt (Nat.lt_of_le_of_lt h (by decide))

/-- Settles O21, by the value of STATUS as the sum of its fields and the code of each field. -/
theorem statusShowsTheState : Obligations.StatusShowsTheState := by
  intro s hfill
  refine ⟨(statusWord s).setWidth 64, rfl, ?_⟩
  rw [BitVec.toNat_setWidth, Nat.mod_eq_of_lt (Nat.lt_trans (statusWord s).isLt (by decide)), statusWord_toNat,
    statusFill_toNat hfill]
  congr 7
  · cases s.faulted <;> rfl
  · cases s.ioerr <;> rfl
  · cases s.mode <;> rfl
  · unfold statusFlow
    cases s.mode <;> cases s.cache.flow <;> rfl
  · unfold statusOrder
    cases s.mode <;> cases s.order <;> rfl
  · unfold statusCause
    cases s.faulted <;> cases s.cause <;> rfl

end Sys2Proof.Machine
end

section
/-! PROOF. The host's single bytes of MEM, a chunk's value and its split as inverses, and a pixel element read after it was
written (20_memory.md R211, R213, R221, R240). -/

namespace Sys2Proof.Machine

/-! ## The host's bytes -/

/-- The host writes no byte outside MEM (20_memory.md R200). -/
theorem hostWrite_outside {a : Nat} (ha : ¬ a < Config.rsbc.memSize) (v : Byte) (s : State) :
    hostWrite a v s = .fault (.outsideMemory a) := if_neg ha

/-- The host reads no byte outside MEM (20_memory.md R200). -/
theorem hostRead_outside {a : Nat} (ha : ¬ a < Config.rsbc.memSize) (s : State) :
    hostRead a s = .fault (.outsideMemory a) := if_neg ha

/-- Settles O9, by cases on the address: inside MEM the access completes, outside it the machine stops. -/
theorem hostMemoryAccess : Obligations.HostMemoryAccess := by
  intro s rest a v
  refine ⟨step_idle, fun hp => ?_, fun hp => ?_⟩
  · rw [step_memWrite hp]
    split
    · exact ⟨hostWrite_answers ‹_› v _, fun hwf => Memory.read_write hwf a v⟩
    · exact hostWrite_outside ‹_› v _
  · rw [step_memRead hp]
    split
    · exact hostRead_answers ‹_› _
    · exact hostRead_outside ‹_› _

/-! ## The number that bytes stand for -/

/-- The bytes of a value are its digits to the base 256. -/
theorem bytesValue_eq_ofDigits (bs : List Byte) : bytesValue bs = Nat.ofDigits 256 (bs.map BitVec.toNat) := by
  induction bs with
  | nil => rfl
  | cons b bs ih => rw [bytesValue, ih, List.map_cons, Nat.ofDigits_cons]

/-- The bytes of a value are determined by the value and their number. -/
theorem bytesValue_inj {xs ys : List Byte} (hlen : xs.length = ys.length) (h : bytesValue xs = bytesValue ys) :
    xs = ys := by
  have digit_lt : ∀ bs : List Byte, ∀ d ∈ bs.map BitVec.toNat, d < 256 := fun bs d hd => by
    obtain ⟨b, -, rfl⟩ := List.mem_map.1 hd
    exact b.isLt
  rw [bytesValue_eq_ofDigits, bytesValue_eq_ofDigits] at h
  exact List.map_injective_iff.2 (fun _ _ => BitVec.eq_of_toNat_eq)
    (Nat.ofDigits_inj_of_len_eq (by decide) (by simpa using hlen) (digit_lt xs) (digit_lt ys) h)

theorem bytesUp_length (v : Word) (k : Nat) : (bytesUp v k).length = k := by simp [bytesUp]

theorem bytesUp_succ (v : Word) (k : Nat) : bytesUp v (k + 1) = bytesUp v k ++ [v.extractLsb' (8 * k) 8] := by
  simp [bytesUp, List.range_succ]

/-- The k low bytes of a word stand for the word modulo 256^k. -/
theorem bytesValue_bytesUp (v : Word) (k : Nat) : bytesValue (bytesUp v k) = v.toNat % 256 ^ k := by
  induction k with
  | zero => simp [bytesUp, bytesValue, Nat.mod_one]
  | succ k ih =>
    have hbyte : (v.extractLsb' (8 * k) 8).toNat = v.toNat / 256 ^ k % 256 := by
      rw [BitVec.extractLsb'_toNat, Nat.shiftRight_eq_div_pow, Nat.pow_mul]
    rw [bytesValue_eq_ofDigits] at ih ⊢
    rw [bytesUp_succ, List.map_append, Nat.ofDigits_append, ih, List.length_map, bytesUp_length, List.map_singleton,
      Nat.ofDigits_singleton, hbyte, Nat.mod_pow_succ]

/-- Bytes that fit a word are the low bytes of the word they stand for. -/
theorem bytesUp_bytesValue {bs : List Byte} (h : bs.length ≤ 4) :
    bytesUp (BitVec.ofNat 32 (bytesValue bs)) bs.length = bs := by
  refine bytesValue_inj (bytesUp_length _ _) ?_
  have hlt := bytesValue_lt bs
  have hword : 256 ^ bs.length ≤ 2 ^ 32 := Nat.pow_le_pow_right (n := 256) (by decide) h
  rw [bytesValue_bytesUp, BitVec.toNat_ofNat, Nat.mod_eq_of_lt (Nat.lt_of_lt_of_le hlt hword), Nat.mod_eq_of_lt hlt]

/-! ## Chunks -/

/-- The value of a split is the word it was split from (20_memory.md R213). -/
theorem chunkValue_splitChunk (e : Config.Endian) {v : Word} {k : Nat} (h : v.toNat < 2 ^ (8 * k)) :
    chunkValue e (splitChunk e v k) = v.setWidth 64 := by
  have hbytes : BitVec.ofNat 64 (bytesValue (bytesUp v k)) = v.setWidth 64 := by
    rw [Nat.pow_mul] at h
    rw [bytesValue_bytesUp, Nat.mod_eq_of_lt h, BitVec.ofNat_toNat]
  cases e with
  | little => exact hbytes
  | big => rw [splitChunk, chunkValue, List.reverse_reverse, hbytes]

/-- The split of a value is the bytes it was composed from (20_memory.md R213). -/
theorem splitChunk_chunkValue (e : Config.Endian) {bs : List Byte} (h : bs.length ≤ 4) :
    splitChunk e ((chunkValue e bs).setWidth 32) bs.length = bs := by
  have hword : ∀ n, (BitVec.ofNat 64 n).setWidth 32 = BitVec.ofNat 32 n := fun n =>
    BitVec.setWidth_ofNat_of_le (by decide) n
  cases e with
  | little => rw [chunkValue, splitChunk, hword, bytesUp_bytesValue h]
  | big =>
    rw [chunkValue, splitChunk, hword, ← List.length_reverse, bytesUp_bytesValue (by rwa [List.length_reverse]),
      List.reverse_reverse]

/-- Bytes that fit 64 bits stand for the same number there. -/
theorem toNat_ofNat_bytesValue {bs : List Byte} (h : bs.length ≤ 8) :
    (BitVec.ofNat 64 (bytesValue bs)).toNat = bytesValue bs :=
  Nat.mod_eq_of_lt (Nat.lt_of_lt_of_le (bytesValue_lt bs) (Nat.pow_le_pow_right (n := 256) (by decide) h))

theorem chunkValue_little_toNat {bs : List Byte} (h : bs.length ≤ 8) : (chunkValue .little bs).toNat = bytesValue bs :=
  toNat_ofNat_bytesValue h

theorem chunkValue_big_toNat {bs : List Byte} (h : bs.length ≤ 8) :
    (chunkValue .big bs).toNat = bytesValue bs.reverse :=
  toNat_ofNat_bytesValue (by rwa [List.length_reverse])

/-- Settles O32: the values are the bytes' weighted sums, and value and split are inverse for every length up to that of a
word. -/
theorem chunkSplitInverse : Obligations.ChunkSplitInverse := by
  refine ⟨fun b₀ b₁ b₂ b₃ => ⟨fun e => ?_, ?_, ?_, ?_, ?_⟩, fun e k hk => ⟨fun v hv => ?_, fun bs hbs => ?_⟩⟩
  · cases e with
    | little => simp [chunkValue_little_toNat, bytesValue]
    | big => simp [chunkValue_big_toNat, bytesValue]
  · simp [chunkValue_little_toNat, bytesValue]
  · rw [chunkValue_big_toNat (by simp)]
    change bytesValue [b₁, b₀] = _
    simp only [bytesValue]
    omega
  · rw [chunkValue_little_toNat (by simp)]
    simp only [bytesValue]
    omega
  · rw [chunkValue_big_toNat (by simp)]
    change bytesValue [b₃, b₂, b₁, b₀] = _
    simp only [bytesValue]
    omega
  · exact ⟨splitChunk_length e v k, chunkValue_splitChunk e hv⟩
  · have hle : bs.length ≤ 4 := by
      simp only [List.mem_cons, List.not_mem_nil, or_false] at hk
      omega
    rw [← hbs]
    exact splitChunk_chunkValue e hle

/-! ## Pixel elements -/

/-- Bytes read from where they stand are the bytes that stand there. -/
theorem HoldsAt.map_read {m : Memory} {a : Nat} {bs : List Byte} (h : HoldsAt m a bs) :
    ((List.range bs.length).map fun i => Memory.read m (a + i)) = bs :=
  List.ext_getElem (by simp) fun i _ hi => by simpa using h i hi

/-- A written element stands at its address, and every other byte is as before (20_memory.md R221). -/
theorem pixWrite_holdsAt {p : Config.Params} {g : CfgRegs} {ety : ElemType} {m : Memory} (hwf : Memory.wf m) {r c : Nat}
    (v : Word) (h : pixelAddr g ety r c + elemSize ety ≤ p.memSize) :
    ∃ m', pixWrite p g ety m r c v = .ok m' ∧
      HoldsAt m' (pixelAddr g ety r c) (splitChunk p.pixEndian v (elemSize ety)) ∧
      ∀ b, ¬ (pixelAddr g ety r c ≤ b ∧ b < pixelAddr g ety r c + elemSize ety) →
        Memory.read m' b = Memory.read m b := by
  obtain ⟨m', hwrite, -, -, hread⟩ := pixWrite_eq (v := v) hwf h
  refine ⟨m', hwrite, fun i hi => ?_, fun b hb => ?_⟩
  · have hi' : i < elemSize ety := by rwa [splitChunk_length] at hi
    rw [hread, dif_pos ⟨by omega, by omega⟩]
    simp only [Nat.add_sub_cancel_left]
  · rw [hread, dif_neg hb]

/-- PixRead gives the value of the element that stands at the address (20_memory.md R221). -/
theorem pixRead_of_holdsAt {p : Config.Params} {g : CfgRegs} {ety : ElemType} {m : Memory} {r c : Nat} {bs : List Byte}
    (hlen : bs.length = elemSize ety) (h : pixelAddr g ety r c + elemSize ety ≤ p.memSize)
    (hbs : HoldsAt m (pixelAddr g ety r c) bs) : pixRead p g ety m r c = .ok (chunkValue p.pixEndian bs) := by
  rw [pixRead_eq h, ← hlen, hbs.map_read]

/-- A little-endian split begins with the least significant byte (20_memory.md R213). -/
theorem splitChunk_little_first {v : Word} {k : Nat} (h : 0 < (splitChunk .little v k).length) :
    (splitChunk .little v k)[0] = v.setWidth 8 := by
  simp [splitChunk, bytesUp, BitVec.setWidth_eq_extractLsb' (show 8 ≤ 32 by decide)]

/-- A big-endian split begins with the most significant byte (20_memory.md R213). -/
theorem splitChunk_big_first {v : Word} {k : Nat} (h : 0 < (splitChunk .big v k).length) :
    (splitChunk .big v k)[0] = (v >>> (8 * (k - 1))).setWidth 8 := by
  simp [splitChunk, bytesUp, BitVec.setWidth_ushiftRight_eq_extractLsb]

/-- Settles O50: the written element stands at its address, so PixRead gives its chunk value and the first byte is the
first of the split. -/
theorem pixelReadAfterWrite : Obligations.PixelReadAfterWrite := by
  intro p g ety m r c v a hwf hv haddr
  obtain ⟨m', hwrite, hholds, hframe⟩ := pixWrite_holdsAt hwf v haddr
  refine ⟨m', hwrite, ?_, hframe, ?_⟩
  · rw [pixRead_of_holdsAt (splitChunk_length _ _ _) haddr hholds, chunkValue_splitChunk _ hv]
  · have hpos : 0 < (splitChunk p.pixEndian v (elemSize ety)).length := by
      rw [splitChunk_length]
      exact elemSize_pos ety
    refine (hholds 0 hpos).trans ?_
    revert hpos
    cases p.pixEndian with
    | little => exact splitChunk_little_first
    | big => exact splitChunk_big_first

end Sys2Proof.Machine
end

section
/-! PROOF. A command word is its fields side by side (30_encoding.md R310), a row's mask leaves free the fields the row uses
(R314, R316), and a row's word is therefore the encoding of what the row builds from it. -/

namespace Sys2Proof

/-! ## The fields of a word -/

/-- Neighbouring bit ranges, side by side, are one range. -/
theorem extract_append {n : Nat} (x : BitVec n) (start low high : Nat) :
    x.extractLsb' (start + low) high ++ x.extractLsb' start low = x.extractLsb' start (high + low) :=
  BitVec.extractLsb'_append_extractLsb'_eq_extractLsb' rfl

/-- The fields of R310, from bit 31 down. -/
theorem word_eq_append_fields (w : Word) :
    w = w.extractLsb' 22 10 ++ w.extractLsb' 20 2 ++ w.extractLsb' 19 1 ++ w.extractLsb' 16 3 ++ w.extractLsb' 15 1 ++
      w.extractLsb' 8 7 ++ w.extractLsb' 0 8 := by
  rw [extract_append w 20 2 10, extract_append w 19 1 12, extract_append w 16 3 13, extract_append w 15 1 16,
    extract_append w 8 7 17, extract_append w 0 8 24]
  exact BitVec.extractLsb'_eq_self.symm

theorem word_eq_iff_fields {v w : Word} :
    v = w ↔
      v.extractLsb' 0 8 = w.extractLsb' 0 8 ∧ v.extractLsb' 15 1 = w.extractLsb' 15 1 ∧
        v.extractLsb' 19 1 = w.extractLsb' 19 1 ∧ v.extractLsb' 22 10 = w.extractLsb' 22 10 ∧
        v.extractLsb' 8 7 = w.extractLsb' 8 7 ∧ v.extractLsb' 16 3 = w.extractLsb' 16 3 ∧
        v.extractLsb' 20 2 = w.extractLsb' 20 2 := by
  constructor
  · rintro rfl
    exact ⟨rfl, rfl, rfl, rfl, rfl, rfl, rfl⟩
  · rintro ⟨hopc, h15, h19, h22, hcnt, hord, hety⟩
    rw [word_eq_append_fields v, hopc, h15, h19, h22, hcnt, hord, hety]
    exact (word_eq_append_fields w).symm

/-- ORD as CINIT reads it: bits 18:17 above FL (30_encoding.md R312). -/
theorem order_eq_append_flow (w : Word) : w.extractLsb' 16 3 = w.extractLsb' 17 2 ++ w.extractLsb' 16 1 :=
  (extract_append w 16 1 2).symm

/-- ORD as XHI and XLO read it: bit 18 above WSEL (30_encoding.md R312). -/
theorem order_eq_append_width (w : Word) : w.extractLsb' 16 3 = w.extractLsb' 18 1 ++ w.extractLsb' 16 2 :=
  (extract_append w 16 2 1).symm

@[simp] theorem flowField_code (w : Word) : (flowField w).code = w.extractLsb' 16 1 := Flow.code_ofCode _

@[simp] theorem widthField_code (w : Word) : (widthField w).code = w.extractLsb' 16 2 := ExtractWidth.code_ofCode _

theorem cntField_lt (w : Word) : cntField w < 128 := (w.extractLsb' 8 7).isLt

theorem orderField_eq_ok {w : Word} {ord : BitOrder} : orderField w = .ok ord ↔ ord.code = w.extractLsb' 16 3 := by
  rw [← BitOrder.ofCode_eq_some, orderField]
  cases BitOrder.ofCode (w.extractLsb' 16 3) <;> simp

theorem orderField_eq_error {w : Word} : (∃ e, orderField w = .error e) ↔ 4 < (w.extractLsb' 16 3).toNat := by
  rw [← BitOrder.ofCode_eq_none, orderField]
  cases BitOrder.ofCode (w.extractLsb' 16 3) <;> simp

theorem elemField_eq_ok {w : Word} {ety : ElemType} : elemField w = .ok ety ↔ ety.code = w.extractLsb' 20 2 := by
  rw [← ElemType.ofCode_eq_some, elemField]
  cases ElemType.ofCode (w.extractLsb' 20 2) <;> simp

theorem elemField_eq_error {w : Word} : (∃ e, elemField w = .error e) ↔ w.extractLsb' 20 2 = 3 := by
  rw [← ElemType.ofCode_eq_none, elemField]
  cases ElemType.ofCode (w.extractLsb' 20 2) <;> simp

/-! ## Fields as numbers -/

section
variable {w : Word}

theorem extract_toNat {n : Nat} (x : BitVec n) (start len : Nat) :
    (x.extractLsb' start len).toNat = x.toNat / 2 ^ start % 2 ^ len := by
  rw [BitVec.extractLsb'_toNat, Nat.shiftRight_eq_div_pow]

theorem cntField_eq (w : Word) : cntField w = w.toNat / 2 ^ 8 % 2 ^ 7 := extract_toNat w 8 7

theorem flowField_eq (w : Word) : flowField w = if w.getLsbD 16 then .msbFirst else .lsbFirst := by
  rw [flowField, BitVec.getLsbD_eq_extractLsb']
  generalize w.extractLsb' 16 1 = c
  revert c
  decide

theorem widthField_eq {width : ExtractWidth} (h : w.toNat / 2 ^ 16 % 2 ^ 2 = width.code.toNat) : widthField w = width := by
  rw [widthField, BitVec.eq_of_toNat_eq ((extract_toNat w 16 2).trans h), ExtractWidth.ofCode_code]

theorem orderField_eq {ord : BitOrder} (h : w.toNat / 2 ^ 16 % 2 ^ 3 = ord.code.toNat) : orderField w = .ok ord :=
  orderField_eq_ok.2 (BitVec.eq_of_toNat_eq ((extract_toNat w 16 3).trans h)).symm

theorem elemField_eq {ety : ElemType} (h : w.toNat / 2 ^ 20 % 2 ^ 2 = ety.code.toNat) : elemField w = .ok ety :=
  elemField_eq_ok.2 (BitVec.eq_of_toNat_eq ((extract_toNat w 20 2).trans h)).symm

end

/-! ## The fields a row uses -/

/-- The rows with C in column "fields" of R316. -/
def Opcode.countRows : List Opcode := [.cpush, .cpeek, .cskip, .xhi, .xlo, .getbits, .put, .unpack, .pack]

/-- The rows with WS in column "fields" of R316. -/
def Opcode.widthRows : List Opcode := [.xhi, .xlo]

/-- The rows with O in column "fields" of R316. -/
def Opcode.orderRows : List Opcode := [.dstart, .estart, .unpack, .pack]

/-- The rows with E in column "fields" of R316. -/
def Opcode.elementRows : List Opcode := [.unpack, .pack]

/-- The rows that use some of bits 18:16: FL of CINIT, WS or O (30_encoding.md R312). -/
def Opcode.selectRows : List Opcode := [.cinit, .xhi, .xlo, .dstart, .estart, .unpack, .pack]

/-- R314 for a row: bits 15, 19 and 31:22 are 0, and so is every field, or part of bits 18:16, that the row does not use. -/
structure Opcode.ReservedZero (o : Opcode) (w : Word) : Prop where
  bit15 : w.extractLsb' 15 1 = 0
  bit19 : w.extractLsb' 19 1 = 0
  high : w.extractLsb' 22 10 = 0
  count : o ∉ countRows → w.extractLsb' 8 7 = 0
  aboveFlow : o = .cinit → w.extractLsb' 17 2 = 0
  aboveWidth : o ∈ widthRows → w.extractLsb' 18 1 = 0
  select : o ∉ selectRows → w.extractLsb' 16 3 = 0
  element : o ∉ elementRows → w.extractLsb' 20 2 = 0

theorem Opcode.reservedZero_iff {o : Opcode} {w : Word} :
    o.ReservedZero w ↔
      w.extractLsb' 15 1 = 0 ∧ w.extractLsb' 19 1 = 0 ∧ w.extractLsb' 22 10 = 0 ∧
        (o ∉ countRows → w.extractLsb' 8 7 = 0) ∧ (o = .cinit → w.extractLsb' 17 2 = 0) ∧
        (o ∈ widthRows → w.extractLsb' 18 1 = 0) ∧ (o ∉ selectRows → w.extractLsb' 16 3 = 0) ∧
        (o ∉ elementRows → w.extractLsb' 20 2 = 0) :=
  ⟨fun ⟨h15, h19, h22, hcnt, hflow, hwidth, hsel, hety⟩ => ⟨h15, h19, h22, hcnt, hflow, hwidth, hsel, hety⟩,
    fun ⟨h15, h19, h22, hcnt, hflow, hwidth, hsel, hety⟩ => ⟨h15, h19, h22, hcnt, hflow, hwidth, hsel, hety⟩⟩

/-- A mask that leaves a field free asks nothing of it, and a full one asks that it is 0. -/
theorem and_free_eq_zero {n : Nat} {free : Prop} [Decidable free] (c : BitVec n) :
    c &&& (if free then 0 else BitVec.allOnes n) = 0 ↔ (¬ free → c = 0) := by
  split <;> simp [*]

section
variable (o : Opcode)

theorem Opcode.mask_count (c : BitVec 7) : c &&& o.mask.extractLsb' 8 7 = 0 ↔ (o ∉ countRows → c = 0) := by
  have hmask : o.mask.extractLsb' 8 7 = if o ∈ countRows then 0 else BitVec.allOnes 7 := by cases o <;> rfl
  rw [hmask, and_free_eq_zero]

theorem Opcode.mask_element (c : BitVec 2) : c &&& o.mask.extractLsb' 20 2 = 0 ↔ (o ∉ elementRows → c = 0) := by
  have hmask : o.mask.extractLsb' 20 2 = if o ∈ elementRows then 0 else BitVec.allOnes 2 := by cases o <;> rfl
  rw [hmask, and_free_eq_zero]

theorem Opcode.mask_select (w : Word) :
    w.extractLsb' 16 3 &&& o.mask.extractLsb' 16 3 = 0 ↔
      (o = .cinit → w.extractLsb' 17 2 = 0) ∧ (o ∈ widthRows → w.extractLsb' 18 1 = 0) ∧
        (o ∉ selectRows → w.extractLsb' 16 3 = 0) := by
  have hflow : w.extractLsb' 17 2 = (w.extractLsb' 16 3).extractLsb' 1 2 := by
    rw [order_eq_append_flow, BitVec.extractLsb'_append_eq_left]
  have hwidth : w.extractLsb' 18 1 = (w.extractLsb' 16 3).extractLsb' 2 1 := by
    rw [order_eq_append_width, BitVec.extractLsb'_append_eq_left]
  rw [hflow, hwidth]
  generalize w.extractLsb' 16 3 = c
  revert c
  cases o <;> decide

/-- A word matches a row's mask exactly if its OPC is the row's and its reserved bits are 0 (30_encoding.md R314, R316). -/
theorem Opcode.matches_iff (w : Word) :
    w &&& o.mask = o.matchWord ↔ w.extractLsb' 0 8 = o.code ∧ o.ReservedZero w := by
  have mask_fixed : o.mask.extractLsb' 0 8 = BitVec.allOnes 8 ∧ o.mask.extractLsb' 15 1 = BitVec.allOnes 1 ∧
      o.mask.extractLsb' 19 1 = BitVec.allOnes 1 ∧ o.mask.extractLsb' 22 10 = BitVec.allOnes 10 := by
    cases o <;> exact ⟨rfl, rfl, rfl, rfl⟩
  have match_fields : o.matchWord.extractLsb' 0 8 = o.code ∧ o.matchWord.extractLsb' 15 1 = 0 ∧
      o.matchWord.extractLsb' 19 1 = 0 ∧ o.matchWord.extractLsb' 22 10 = 0 ∧ o.matchWord.extractLsb' 8 7 = 0 ∧
      o.matchWord.extractLsb' 16 3 = 0 ∧ o.matchWord.extractLsb' 20 2 = 0 := by
    cases o <;> exact ⟨rfl, rfl, rfl, rfl, rfl, rfl, rfl⟩
  obtain ⟨hm0, hm15, hm19, hm22⟩ := mask_fixed
  obtain ⟨h0, h15, h19, h22, h8, h16, h20⟩ := match_fields
  simp only [word_eq_iff_fields, BitVec.extractLsb'_and, hm0, hm15, hm19, hm22, h0, h15, h19, h22, h8, h16, h20,
    BitVec.and_allOnes, o.mask_count, o.mask_select, o.mask_element, Opcode.reservedZero_iff, and_assoc]

end

/-- A word that matches a row's mask decodes as the row says (30_encoding.md R322). -/
theorem decodeCommand_of_matches {o : Opcode} {w : Word} (h : w &&& o.mask = o.matchWord) : decodeCommand w = o.build w :=
  decodeCommand_of_row ((o.matches_iff w).1 h).1.symm h

/-- A word that matches a row's mask is put together from the fields the row uses (30_encoding.md R310, R314). -/
theorem eq_commandWord_of_matches {o : Opcode} {w : Word} (h : w &&& o.mask = o.matchWord) :
    w = commandWord o (if o ∈ Opcode.countRows then cntField w else 0)
      (if o ∈ Opcode.selectRows then w.extractLsb' 16 3 else 0)
      (if o ∈ Opcode.elementRows then w.extractLsb' 20 2 else 0) := by
  obtain ⟨hopc, hres⟩ := (o.matches_iff w).1 h
  have hcnt : BitVec.ofNat 7 (if o ∈ Opcode.countRows then cntField w else 0) = w.extractLsb' 8 7 := by
    split
    · exact BitVec.ofNat_toNat _ _
    · exact (hres.count ‹_›).symm
  have hord : (if o ∈ Opcode.selectRows then w.extractLsb' 16 3 else 0) = w.extractLsb' 16 3 :=
    ite_eq_left_iff.2 fun h => (hres.select h).symm
  have hety : (if o ∈ Opcode.elementRows then w.extractLsb' 20 2 else 0) = w.extractLsb' 20 2 :=
    ite_eq_left_iff.2 fun h => (hres.element h).symm
  rw [commandWord, hcnt, hord, hety, ← hopc]
  exact (word_eq_append_fields w).trans (by rw [hres.bit15, hres.bit19, hres.high]; rfl)

/-! ## The word of a row -/

theorem decodeCommand_flowRow {w : Word} {fl : Flow} (hw : w &&& Opcode.cinit.mask = Opcode.cinit.matchWord)
    (hfl : flowField w = fl) : decodeCommand w = .ok (.cinit fl) := by
  rw [decodeCommand_of_matches hw, Opcode.build, hfl]

section
variable {o : Opcode} {w : Word} (hw : w &&& o.mask = o.matchWord)
include hw

theorem decodeCommand_countRow {f : Nat → Instr} {cnt : Nat} (hbuild : o.build w = .ok (f (cntField w)))
    (hcnt : cntField w = cnt) : decodeCommand w = .ok (f cnt) := by
  rw [decodeCommand_of_matches hw, hbuild, hcnt]

theorem decodeCommand_widthRow {f : ExtractWidth → Nat → Instr} {width : ExtractWidth} {cnt : Nat}
    (hbuild : o.build w = .ok (f (widthField w) (cntField w))) (hwidth : widthField w = width) (hcnt : cntField w = cnt) :
    decodeCommand w = .ok (f width cnt) := by
  rw [decodeCommand_of_matches hw, hbuild, hwidth, hcnt]

theorem decodeCommand_orderRow {f : BitOrder → Instr} {ord : BitOrder} (hbuild : o.build w = (orderField w).map f)
    (hord : orderField w = .ok ord) : decodeCommand w = .ok (f ord) := by
  rw [decodeCommand_of_matches hw, hbuild, hord]
  rfl

theorem decodeCommand_pixelRow {f : BitOrder → ElemType → Nat → Instr} {ord : BitOrder} {ety : ElemType} {cnt : Nat}
    (hbuild : o.build w = do return f (← orderField w) (← elemField w) (cntField w)) (hord : orderField w = .ok ord)
    (hety : elemField w = .ok ety) (hcnt : cntField w = cnt) : decodeCommand w = .ok (f ord ety cnt) := by
  rw [decodeCommand_of_matches hw, hbuild, hord, hety, hcnt]
  rfl

end

end Sys2Proof
end

section
/-! PROOF. Decoding undoes encoding: a command word's fields hold what the encoding put there, and a transaction's header
announces its kind (30_encoding.md R301, R302, R316, R322). -/

namespace Sys2Proof

/-! ## Encoded fields read back -/

theorem cntField_commandWord {cnt : Nat} (h : cntFits cnt = true) (o : Opcode) (ord : BitVec 3) (ety : BitVec 2) :
    cntField (commandWord o cnt ord ety) = cnt :=
  commandWord_cnt o (of_decide_eq_true h) ord ety

theorem orderField_commandWord (o : Opcode) (cnt : Nat) (ord : BitOrder) (ety : BitVec 2) :
    orderField (commandWord o cnt ord.code ety) = .ok ord :=
  orderField_eq_ok.2 (commandWord_ord ..).symm

theorem elemField_commandWord (o : Opcode) (cnt : Nat) (ord : BitVec 3) (ety : ElemType) :
    elemField (commandWord o cnt ord ety.code) = .ok ety :=
  elemField_eq_ok.2 (commandWord_ety ..).symm

/-- Equal concatenations have equal low parts. -/
theorem low_eq_of_append_eq {m n : Nat} {a b : BitVec m} {x y : BitVec n} (h : a ++ x = b ++ y) : x = y := by
  rw [← BitVec.extractLsb'_append_eq_right (a := a) (b := x), h, BitVec.extractLsb'_append_eq_right]

theorem flowField_commandWord (o : Opcode) (cnt : Nat) (fl : Flow) (ety : BitVec 2) :
    flowField (commandWord o cnt (0#2 ++ fl.code) ety) = fl := by
  have hcode := low_eq_of_append_eq ((order_eq_append_flow _).symm.trans (commandWord_ord o cnt (0#2 ++ fl.code) ety))
  rw [flowField, hcode, Flow.ofCode_code]

theorem widthField_commandWord (o : Opcode) (cnt : Nat) (width : ExtractWidth) (ety : BitVec 2) :
    widthField (commandWord o cnt (0#1 ++ width.code) ety) = width := by
  have hcode := low_eq_of_append_eq ((order_eq_append_width _).symm.trans (commandWord_ord o cnt (0#1 ++ width.code) ety))
  rw [widthField, hcode, ExtractWidth.ofCode_code]

/-! ## Headers -/

section
variable (hd : BitVec 16)

theorem kindField_toNat : (kindField hd).toNat = hd.toNat / 2 ^ 14 := by
  rw [kindField, extract_toNat]
  omega

theorem indexField_toNat : (indexField hd).toNat = hd.toNat % 2 ^ 8 := BitVec.extractLsb'_toNat 0 8 hd

end

section
variable {hd : BitVec 16} {d : DWord}

theorem decodeTransaction_regrd (h : Laws.Announces 0 hd) : decodeTransaction hd d = .ok (.regrd (indexField hd)) := by
  obtain ⟨hkind, hzero⟩ := h
  simp [decodeTransaction, hkind, hzero]

theorem decodeTransaction_regwr (h : Laws.Announces 1 hd) : decodeTransaction hd d = .ok (.regwr (indexField hd) d) := by
  obtain ⟨hkind, hzero⟩ := h
  simp [decodeTransaction, hkind, hzero]

theorem decodeTransaction_reset (h : Laws.Announces 3 hd) (hidx : indexField hd = 0) :
    decodeTransaction hd d = .ok .reset := by
  obtain ⟨hkind, hzero⟩ := h
  simp [decodeTransaction, hkind, hzero, hidx]

/-- What a header that is not reserved is: one of the three transactions (30_encoding.md R301). -/
theorem decodeTransaction_ok_cases {i : Instr} (h : decodeTransaction hd d = .ok i) :
    Laws.Announces 0 hd ∧ i = .regrd (indexField hd) ∨ Laws.Announces 1 hd ∧ i = .regwr (indexField hd) d ∨
      Laws.Announces 3 hd ∧ indexField hd = 0 ∧ i = .reset := by
  have kinds : ∀ k : BitVec 2, k ≠ 0 → k ≠ 1 → k ≠ 2 → k = 3 := by decide
  unfold decodeTransaction at h
  split at h
  · cases h
  rename_i hzero
  rw [not_not] at hzero
  split at h
  · cases h
    exact .inl ⟨⟨‹_›, hzero⟩, rfl⟩
  split at h
  · cases h
    exact .inr (.inl ⟨⟨‹_›, hzero⟩, rfl⟩)
  split at h
  · cases h
  split at h
  · cases h
    exact .inr (.inr ⟨⟨kinds _ ‹_› ‹_› ‹_›, hzero⟩, ‹_›, rfl⟩)
  · cases h

/-- A header without reserved bits is put together from its kind and index (30_encoding.md R301). -/
theorem transactionHeader_of_announces {k : BitVec 2} (h : Laws.Announces k hd) :
    transactionHeader k (indexField hd) = hd := by
  obtain ⟨hkind, hzero⟩ := h
  calc
    transactionHeader k (indexField hd) = hd.extractLsb' 14 2 ++ hd.extractLsb' 8 6 ++ hd.extractLsb' 0 8 := by
      rw [transactionHeader, ← hkind, hzero]
      rfl
    _ = hd := by
      rw [extract_append hd 8 6 2, extract_append hd 0 8 8]
      exact BitVec.extractLsb'_eq_self

end

/-! ## Decoding words and encodings -/

/-- Settles O1, by cases on the instruction: a command's word selects the command's row, whose fields hold what the encoding
put there, and a transaction's header announces its kind. -/
theorem decodeOfEncode : Obligations.DecodeOfEncode := by
  intro i hi
  cases i with
  | nop => exact decodeCommand_of_matches Laws.SelectsRow.nop.2
  | cinit fl => exact decodeCommand_flowRow (Laws.SelectsRow.cinit fl).2 (flowField_commandWord ..)
  | cpush cnt => exact decodeCommand_countRow (Laws.SelectsRow.cpush cnt).2 rfl (cntField_commandWord hi ..)
  | cpeek cnt => exact decodeCommand_countRow (Laws.SelectsRow.cpeek cnt).2 rfl (cntField_commandWord hi ..)
  | cskip cnt => exact decodeCommand_countRow (Laws.SelectsRow.cskip cnt).2 rfl (cntField_commandWord hi ..)
  | xhi width cnt =>
    exact decodeCommand_widthRow (Laws.SelectsRow.xhi width cnt).2 rfl (widthField_commandWord ..)
      (cntField_commandWord hi ..)
  | xlo width cnt =>
    exact decodeCommand_widthRow (Laws.SelectsRow.xlo width cnt).2 rfl (widthField_commandWord ..)
      (cntField_commandWord hi ..)
  | endSession => exact decodeCommand_of_matches Laws.SelectsRow.endSession.2
  | dstart ord => exact decodeCommand_orderRow (Laws.SelectsRow.dstart ord).2 rfl (orderField_commandWord ..)
  | getbits cnt => exact decodeCommand_countRow (Laws.SelectsRow.getbits cnt).2 rfl (cntField_commandWord hi ..)
  | estart ord => exact decodeCommand_orderRow (Laws.SelectsRow.estart ord).2 rfl (orderField_commandWord ..)
  | put cnt => exact decodeCommand_countRow (Laws.SelectsRow.put cnt).2 rfl (cntField_commandWord hi ..)
  | flush => exact decodeCommand_of_matches Laws.SelectsRow.flush.2
  | unpack ord ety cnt =>
    exact decodeCommand_pixelRow (Laws.SelectsRow.unpack ord ety cnt).2 rfl (orderField_commandWord ..)
      (elemField_commandWord ..) (cntField_commandWord hi ..)
  | pack ord ety cnt =>
    exact decodeCommand_pixelRow (Laws.SelectsRow.pack ord ety cnt).2 rfl (orderField_commandWord ..)
      (elemField_commandWord ..) (cntField_commandWord hi ..)
  | regrd idx =>
    obtain ⟨hd, hcode, hkind, rfl⟩ := Laws.SelectsRow.regrd idx
    exact (congrArg decode hcode).trans (decodeTransaction_regrd hkind)
  | regwr idx data =>
    obtain ⟨hd, hcode, hkind, rfl⟩ := Laws.SelectsRow.regwr idx data
    exact (congrArg decode hcode).trans (decodeTransaction_regwr hkind)
  | reset =>
    obtain ⟨hd, hcode, hkind, hidx⟩ := Laws.SelectsRow.reset
    exact (congrArg decode hcode).trans (decodeTransaction_reset hkind hidx)

/-- Settles O3: each word is the encoding of its instruction by the tables, and decoding gives the instruction back. -/
theorem sampleWordsDecode : Obligations.SampleWordsDecode :=
  ⟨decodeOfEncode .nop rfl, decodeOfEncode (.cinit .msbFirst) rfl, decodeOfEncode (.cpush 4) rfl,
    decodeOfEncode (.cpeek 127) rfl, decodeOfEncode (.xhi .w64 3) rfl, decodeOfEncode .endSession rfl,
    decodeOfEncode (.dstart .msb16) rfl, decodeOfEncode (.getbits 12) rfl, decodeOfEncode (.estart .jpeg) rfl,
    decodeOfEncode .flush rfl, decodeOfEncode (.unpack .msb32 .u16 12) rfl, decodeOfEncode (.pack .lsb .u32 32) rfl,
    decodeOfEncode (.regrd 0x01) rfl, decodeOfEncode (.regwr 0x02 0xA) rfl, decodeOfEncode .reset rfl⟩

/-- Settles O5, row by row: the word matches the row's mask, and the row builds its command from the fields. -/
theorem opcodeRowsSelect : Obligations.OpcodeRowsSelect := by
  have widths : ∀ e ∈ [(0, ExtractWidth.w8), (1, .w16), (2, .w32), (3, .w64)], e.1 = e.2.code.toNat := by decide
  have orders : ∀ e ∈ [(0, BitOrder.lsb), (1, .msb), (2, .msb16), (3, .msb32), (4, .jpeg)], e.1 = e.2.code.toNat := by
    decide
  have elements : ∀ e ∈ [(0, ElemType.u8), (1, .u16), (2, .u32)], e.1 = e.2.code.toNat := by decide
  intro w
  refine ⟨?nop, ?cinit, ?cpush, ?cpeek, ?cskip, ?extract, ?endSession, ?getbits, ?put, ?flush, ?ordered⟩
  case nop | endSession | flush =>
    rintro rfl
    rfl
  case cinit => exact fun hw => decodeCommand_flowRow hw (flowField_eq w)
  case cpush => exact fun hw => decodeCommand_countRow (o := .cpush) hw rfl (cntField_eq w)
  case cpeek => exact fun hw => decodeCommand_countRow (o := .cpeek) hw rfl (cntField_eq w)
  case cskip => exact fun hw => decodeCommand_countRow (o := .cskip) hw rfl (cntField_eq w)
  case getbits => exact fun hw => decodeCommand_countRow (o := .getbits) hw rfl (cntField_eq w)
  case put => exact fun hw => decodeCommand_countRow (o := .put) hw rfl (cntField_eq w)
  case extract =>
    intro e he hwsel
    rw [widths e he] at hwsel
    exact ⟨fun hw => decodeCommand_widthRow (o := .xhi) hw rfl (widthField_eq hwsel) (cntField_eq w),
      fun hw => decodeCommand_widthRow (o := .xlo) hw rfl (widthField_eq hwsel) (cntField_eq w)⟩
  case ordered =>
    intro ord ho hord
    rw [orders ord ho] at hord
    refine ⟨fun hw => decodeCommand_orderRow (o := .dstart) hw rfl (orderField_eq hord),
      fun hw => decodeCommand_orderRow (o := .estart) hw rfl (orderField_eq hord), fun e he hety => ?_⟩
    rw [elements e he] at hety
    exact ⟨fun hw => decodeCommand_pixelRow (o := .unpack) hw rfl (orderField_eq hord) (elemField_eq hety) (cntField_eq w),
      fun hw => decodeCommand_pixelRow (o := .pack) hw rfl (orderField_eq hord) (elemField_eq hety) (cntField_eq w)⟩

end Sys2Proof
end

section
/-! PROOF. What decodes is the encoding of what it decodes to (30_encoding.md R301, R316, R322). -/

namespace Sys2Proof

theorem cntFits_cntField (w : Word) : cntFits (cntField w) = true := decide_eq_true (cntField_lt w)

/-- CINIT's ORD holds FL, under zeros (30_encoding.md R312, R314). -/
theorem order_eq_flow {w : Word} (h : Opcode.cinit.ReservedZero w) : w.extractLsb' 16 3 = 0#2 ++ (flowField w).code := by
  rw [order_eq_append_flow, h.aboveFlow rfl, flowField_code]
  rfl

/-- The ORD of XHI and XLO holds WSEL, under a zero (30_encoding.md R312, R314). -/
theorem order_eq_width {o : Opcode} {w : Word} (ho : o ∈ Opcode.widthRows) (h : o.ReservedZero w) :
    w.extractLsb' 16 3 = 0#1 ++ (widthField w).code := by
  rw [order_eq_append_width, h.aboveWidth ho, widthField_code]
  rfl

/-- A row with an order builds its command from an assigned code only (30_encoding.md R312). -/
theorem orderField_map_eq_ok {f : BitOrder → Instr} {w : Word} {i : Instr} (h : (orderField w).map f = .ok i) :
    ∃ ord : BitOrder, ord.code = w.extractLsb' 16 3 ∧ i = f ord := by
  cases hord : orderField w with
  | ok ord =>
    rw [hord] at h
    cases h
    exact ⟨ord, orderField_eq_ok.1 hord, rfl⟩
  | error e =>
    rw [hord] at h
    cases h

/-- A row with an order and an element type builds its command from assigned codes only (30_encoding.md R312, R313). -/
theorem pixelFields_eq_ok {f : BitOrder → ElemType → Nat → Instr} {w : Word} {i : Instr}
    (h : (do return f (← orderField w) (← elemField w) (cntField w)) = Except.ok i) :
    ∃ (ord : BitOrder) (ety : ElemType), ord.code = w.extractLsb' 16 3 ∧ ety.code = w.extractLsb' 20 2 ∧
      i = f ord ety (cntField w) := by
  cases hord : orderField w with
  | ok ord =>
    cases hety : elemField w with
    | ok ety =>
      rw [hord, hety] at h
      cases h
      exact ⟨ord, ety, orderField_eq_ok.1 hord, elemField_eq_ok.1 hety, rfl⟩
    | error e =>
      rw [hord, hety] at h
      cases h
  | error e =>
    rw [hord] at h
    cases h

/-- What a row builds from a word that matches it is well-formed, and the word is its encoding. -/
theorem encode_of_build {o : Opcode} {w : Word} {i : Instr} (hw : w &&& o.mask = o.matchWord) (hi : o.build w = .ok i) :
    i.wellFormed = true ∧ encode i = .command w := by
  have hcnt := cntFits_cntField w
  have hword := eq_commandWord_of_matches hw
  obtain ⟨-, hres⟩ := (o.matches_iff w).1 hw
  cases o with
  | nop | endSession | flush =>
    cases hi
    exact ⟨rfl, congrArg Code.command hword.symm⟩
  | cpush | cpeek | cskip | getbits | put =>
    cases hi
    exact ⟨hcnt, congrArg Code.command hword.symm⟩
  | cinit =>
    cases hi
    exact ⟨rfl, congrArg Code.command (hword.trans (by rw [order_eq_flow hres]; rfl)).symm⟩
  | xhi | xlo =>
    cases hi
    exact ⟨hcnt, congrArg Code.command (hword.trans (by rw [order_eq_width (by decide) hres]; rfl)).symm⟩
  | dstart | estart =>
    obtain ⟨ord, hord, rfl⟩ := orderField_map_eq_ok hi
    exact ⟨rfl, congrArg Code.command (hword.trans (by rw [← hord]; rfl)).symm⟩
  | unpack | pack =>
    obtain ⟨ord, ety, hord, hety, rfl⟩ := pixelFields_eq_ok hi
    exact ⟨hcnt, congrArg Code.command (hword.trans (by rw [← hord, ← hety]; rfl)).symm⟩

/-- Settles O2: a legal word by the row it matches, a legal header by its kind. -/
theorem encodeOfDecode : Obligations.EncodeOfDecode := by
  refine ⟨fun w i hi => ?_, fun hd d i hi => ?_⟩
  · obtain ⟨o, -, hmatch, hbuild⟩ := decodeCommand_ok hi
    exact encode_of_build hmatch hbuild
  · rcases decodeTransaction_ok_cases hi with ⟨hk, rfl⟩ | ⟨hk, rfl⟩ | ⟨hk, hidx, rfl⟩
    · refine ⟨rfl, ?_⟩
      rw [encode, transactionHeader_of_announces hk, hk.1]
      rfl
    · refine ⟨rfl, ?_⟩
      rw [encode, transactionHeader_of_announces hk, hk.1]
      rfl
    · refine ⟨rfl, ?_⟩
      rw [encode, ← hidx, transactionHeader_of_announces hk, hk.1]
      rfl

end Sys2Proof
end

section
/-! PROOF. Which words are illegal, and what writing a word to CMD does (30_encoding.md R300, R314, R316, R317; 45_control.md
R812, R813). -/

namespace Sys2Proof

/-! ## Assigned opcodes -/

theorem Opcode.code_injective : Function.Injective Opcode.code := by
  intro o o' h
  have hrows := congrArg Opcode.ofCode h
  rwa [Opcode.ofCode_code, Opcode.ofCode_code, Option.some_inj] at hrows

theorem Opcode.mem_all (o : Opcode) : o ∈ Opcode.all := by cases o <;> decide

/-- OPC is in a list of column OPC exactly if its row is in the list of those rows. -/
theorem Opcode.code_mem_map {o : Opcode} {rows : List Opcode} :
    o.code.toNat ∈ rows.map (fun r => r.code.toNat) ↔ o ∈ rows :=
  List.mem_map_of_injective (BitVec.toNat_injective.comp Opcode.code_injective)

theorem Opcode.not_mem_codes_of_ofCode {c : BitVec 8} (h : Opcode.ofCode c = none) :
    c.toNat ∉ Opcode.all.map fun r => r.code.toNat := by
  intro hmem
  obtain ⟨o, -, ho⟩ := List.mem_map.1 hmem
  rw [← BitVec.eq_of_toNat_eq ho, Opcode.ofCode_code] at h
  cases h

/-! ## Illegal words -/

/-- A reserved bit of R314 is set: the negation of `Opcode.ReservedZero`, bit by bit and field by field. -/
theorem Opcode.not_reservedZero_iff {o : Opcode} {w : Word} :
    ¬ o.ReservedZero w ↔
      w.extractLsb' 15 1 ≠ 0 ∨ w.extractLsb' 19 1 ≠ 0 ∨ w.extractLsb' 22 10 ≠ 0 ∨
        (o ∉ countRows ∧ w.extractLsb' 8 7 ≠ 0) ∨ (o = .cinit ∧ w.extractLsb' 17 2 ≠ 0) ∨
        (o ∈ widthRows ∧ w.extractLsb' 18 1 ≠ 0) ∨ (o ∉ selectRows ∧ w.extractLsb' 16 3 ≠ 0) ∨
        (o ∉ elementRows ∧ w.extractLsb' 20 2 ≠ 0) := by
  rw [Opcode.reservedZero_iff]
  simp only [not_and_or, Classical.not_imp, ne_eq]

/-- R317 for a word with an assigned opcode: a reserved bit of its row is set, or its ORD or ETY is reserved. -/
theorem illegalWord_iff_of_code {o : Opcode} {w : Word} (ho : w.extractLsb' 0 8 = o.code) :
    Machine.illegalWord w ↔
      ¬ o.ReservedZero w ∨ (o ∈ Opcode.orderRows ∧ 4 < (w.extractLsb' 16 3).toNat) ∨
        (o ∈ Opcode.elementRows ∧ w.extractLsb' 20 2 = 3) := by
  have listed (rows : List Opcode) : (w.extractLsb' 0 8).toNat ∈ rows.map (fun r => r.code.toNat) ↔ o ∈ rows := by
    rw [ho, Opcode.code_mem_map]
  have hall : (w.extractLsb' 0 8).toNat ∈
      [0x00, 0x01, 0x02, 0x03, 0x04, 0x05, 0x06, 0x0F, 0x10, 0x11, 0x18, 0x19, 0x1A, 0x20, 0x21] :=
    (listed Opcode.all).2 o.mem_all
  have hcount : (w.extractLsb' 0 8).toNat ∈ [0x02, 0x03, 0x04, 0x05, 0x06, 0x11, 0x19, 0x20, 0x21] ↔ o ∈ Opcode.countRows :=
    listed Opcode.countRows
  have hcinit : (w.extractLsb' 0 8).toNat = 0x01 ↔ o = .cinit :=
    List.mem_singleton.symm.trans ((listed [.cinit]).trans List.mem_singleton)
  have hwidth : (w.extractLsb' 0 8).toNat ∈ [0x05, 0x06] ↔ o ∈ Opcode.widthRows := listed Opcode.widthRows
  have hselect : (w.extractLsb' 0 8).toNat ∈ [0x01, 0x05, 0x06, 0x10, 0x18, 0x20, 0x21] ↔ o ∈ Opcode.selectRows :=
    listed Opcode.selectRows
  have helement : (w.extractLsb' 0 8).toNat ∈ [0x20, 0x21] ↔ o ∈ Opcode.elementRows := listed Opcode.elementRows
  have horder : (w.extractLsb' 0 8).toNat ∈ [0x10, 0x18, 0x20, 0x21] ↔ o ∈ Opcode.orderRows := listed Opcode.orderRows
  rw [Opcode.not_reservedZero_iff]
  simp only [Machine.illegalWord, hall, hcount, hcinit, hwidth, hselect, helement, horder, not_true_eq_false, false_or,
    or_assoc]

/-- A row refuses a word that matches it only for a reserved ORD or ETY (30_encoding.md R322). -/
theorem Opcode.build_eq_error (o : Opcode) (w : Word) :
    (∃ e, o.build w = .error e) ↔
      (o ∈ orderRows ∧ 4 < (w.extractLsb' 16 3).toNat) ∨ (o ∈ elementRows ∧ w.extractLsb' 20 2 = 3) := by
  rw [← orderField_eq_error, ← elemField_eq_error]
  cases o with
  | dstart | estart => cases hord : orderField w <;> simp [Opcode.build, hord, orderRows, elementRows, Except.map]
  | unpack | pack =>
    cases hord : orderField w <;> cases hety : elemField w <;>
      simp [Opcode.build, hord, hety, orderRows, elementRows, bind, Except.bind, pure, Except.pure]
  | _ => simp [Opcode.build, orderRows, elementRows]

theorem decodeCommand_eq_error {o : Opcode} {w : Word} (ho : w.extractLsb' 0 8 = o.code) :
    (∃ e, decodeCommand w = .error e) ↔ ¬ o.ReservedZero w ∨ ∃ e, o.build w = .error e := by
  have hmatch : w &&& o.mask = o.matchWord ↔ o.ReservedZero w := (o.matches_iff w).trans (and_iff_right ho)
  rw [decodeCommand, ho, Opcode.ofCode_code]
  by_cases h : o.ReservedZero w <;> simp [hmatch, h]

/-- The decoder refuses exactly the words that R317 lists. -/
theorem illegalWord_iff_refused (w : Word) : Machine.illegalWord w ↔ ∃ e, decodeCommand w = .error e := by
  cases hopc : Opcode.ofCode (w.extractLsb' 0 8) with
  | none =>
    have hrefused : decodeCommand w = .error .unassignedOpcode := by rw [decodeCommand, hopc]
    exact iff_of_true (.inl (Opcode.not_mem_codes_of_ofCode hopc)) ⟨_, hrefused⟩
  | some o =>
    have ho : w.extractLsb' 0 8 = o.code := (Opcode.ofCode_eq_some.1 hopc).symm
    rw [illegalWord_iff_of_code ho, decodeCommand_eq_error ho, Opcode.build_eq_error]

end Sys2Proof

namespace Sys2Proof.Machine

/-! ## The write to CMD -/

/-- While FAULTED = 0 a write to CMD executes data[31:0] (45_control.md R812; 10_state.md R114). -/
theorem exec_regwr_cmd {s : State} (h : s.faulted = false) (d : DWord) :
    exec (.regwr 0x1F d) s = execute (d.setWidth 32) s := by
  have hcmd : Reg.ofIndex 0x1F = some .cmd := Reg.ofIndex_index .cmd
  rw [exec, execRegwr, if_neg (by simp [h]), hcmd]

/-- Settles O4: the decoder refuses the words of R317, and Execute raises ILLEGAL_COMMAND for a word it refuses. -/
theorem illegalWordsFault : Obligations.IllegalWordsFault := by
  refine fun w => ⟨illegalWord_iff_refused w, fun s d hillegal hd hs => ?_⟩
  obtain ⟨e, he⟩ := (illegalWord_iff_refused w).1 hillegal
  rw [exec_regwr_cmd hs, hd, execute_error he]
  rfl

/-- The write of a legal word to CMD is its command, in a faulted block too: both are without effect there (30_encoding.md
R300; 10_state.md R118). -/
theorem exec_regwr_cmd_of_decode {i : Instr} {d : DWord} (h : decodeCommand (d.setWidth 32) = .ok i) (s : State) :
    exec (.regwr 0x1F d) s = exec i s := by
  have hi := decodeCommand_isCommand h
  cases hs : s.faulted with
  | true => rw [exec_regwr_faulted hs, exec_command_faulted hi hs]
  | false => rw [exec_regwr_cmd hs, execute_ok h, runDecoded_eq_exec hi]

/-- Settles O8: the command's word decodes to the command, and the header 0x401F is REGWR CMD. -/
theorem commandsRunThroughCmd : Obligations.CommandsRunThroughCmd := by
  intro i s d hi hwf hword
  have hdecode : decodeCommand (d.setWidth 32) = .ok i := (congrArg decode hword).symm.trans (decodeOfEncode i hwf)
  refine ⟨exec_regwr_cmd_of_decode hdecode s, fun rest hpending => ?_⟩
  have hheader : decodeTransaction 0x401F d = .ok (.regwr 0x1F d) := decodeTransaction_regwr (by decide)
  exact (step_transaction hpending hheader).trans (exec_regwr_cmd_of_decode hdecode (s.taken rest))

/-! ## Reserved transactions -/

/-- The headers of R302 are refused: each of the three transactions has its KIND, bits 13:8 zero, and RESET has IDX 0. -/
theorem decodeTransaction_reserved {hd : BitVec 16} (d : DWord)
    (h : hd.toNat / 2 ^ 14 = 2 ∨ hd.toNat / 2 ^ 8 % 2 ^ 6 ≠ 0 ∨ hd.toNat / 2 ^ 14 = 3 ∧ hd.toNat % 2 ^ 8 ≠ 0) :
    ∃ e, decodeTransaction hd d = .error e := by
  rw [← kindField_toNat, ← extract_toNat hd 8 6, ← indexField_toNat] at h
  cases hdec : decodeTransaction hd d with
  | error e => exact ⟨e, rfl⟩
  | ok i =>
    rcases decodeTransaction_ok_cases hdec with ⟨⟨hkind, hzero⟩, -⟩ | ⟨⟨hkind, hzero⟩, -⟩ | ⟨⟨hkind, hzero⟩, hidx, -⟩
    · simp [hkind, hzero] at h
    · simp [hkind, hzero] at h
    · simp [hkind, hzero, hidx] at h

/-- Settles O6: the header is refused, so the step only takes the transaction and answers it. -/
theorem reservedTransactionsDoNothing : Obligations.ReservedTransactionsDoNothing := by
  intro s hd d rest hpending hreserved
  obtain ⟨e, he⟩ := decodeTransaction_reserved d hreserved
  have hkind : kindField hd = 0 ↔ hd.toNat / 2 ^ 14 = 0 := by
    rw [← kindField_toNat, BitVec.toNat_eq]
    rfl
  rw [step_reserved hpending he]
  simp only [reservedTransaction, reservedResponse, hkind]
  rfl

end Sys2Proof.Machine
end

section
/-! PROOF. What Push, Peek, Skip and the extraction functions give where they complete, without the cache invariant
(41_bit_cache.md R405-R407, R451), and how a command of theirs ends. -/

namespace Sys2Proof.Machine

/-! ## Bits moved inside the register -/

/-- A value's n low bits moved up by k lie at k to k+n-1 (00_scope.md R9). -/
theorem lowBits_shiftLeft_getLsbD (v : DWord) (n k : Nat) {i : Nat} (hi : i < 64) :
    (lowBits v n <<< k).getLsbD i = (decide (k ≤ i) && decide (i < k + n) && v.getLsbD (i - k)) := by
  rw [BitVec.getLsbD_shiftLeft, lowBits_getLsbD]
  by_cases hk : k ≤ i
  · have hbelow : i - k < n ↔ i < k + n := Nat.sub_lt_iff_lt_add' hk
    simp [hi, hk, hbelow]
  · simp [Nat.not_le.1 hk, hk]

theorem lowBits_toNat (v : DWord) (n : Nat) : (lowBits v n).toNat = v.toNat % 2 ^ n := by
  have hlt : v.toNat % 2 ^ n < 2 ^ 64 := (Nat.mod_le _ _).trans_lt v.isLt
  rw [lowBits, BitVec.toNat_setWidth, BitVec.toNat_setWidth, Nat.mod_eq_of_lt hlt]

theorem lowBits_eq_ofNat (v : DWord) (n : Nat) : lowBits v n = BitVec.ofNat 64 (v.toNat % 2 ^ n) := by
  rw [← lowBits_toNat, BitVec.ofNat_toNat, BitVec.setWidth_eq]

theorem shiftRight_eq_ofNat {w : Nat} (x : BitVec w) (n : Nat) : x >>> n = BitVec.ofNat w (x.toNat / 2 ^ n) := by
  rw [← Nat.shiftRight_eq_div_pow, ← BitVec.toNat_ushiftRight, BitVec.ofNat_toNat, BitVec.setWidth_eq]

theorem shiftLeft_eq_ofNat {w : Nat} (x : BitVec w) (n : Nat) : x <<< n = BitVec.ofNat w (x.toNat * 2 ^ n) := by
  rw [← Nat.shiftLeft_eq]
  rfl

/-! ## Push, Peek and Skip -/

/-- The position in C of the lowest of n pushed bits: directly above the valid bits, or directly below them (41_bit_cache.md
R405). -/
def BitCache.pushOffset (c : BitCache) (n : Nat) : Nat :=
  match c.flow with
  | .lsbFirst => c.fill
  | .msbFirst => 64 - c.fill - n

/-- Push that fits puts the n low bits of the value at the tail of the cache (41_bit_cache.md R405). -/
theorem BitCache.push_eq {c : BitCache} (v : DWord) {n : Nat} (h : n + c.fill ≤ 64) :
    c.push v n = .ok { c with bits := c.bits ||| (lowBits v n <<< c.pushOffset n), fill := c.fill + n } := by
  unfold BitCache.push BitCache.pushOffset
  rw [if_neg (Nat.not_lt.2 h)]
  cases c.flow <;> rfl

/-- Peek as one chain of checks, in the order of 41_bit_cache.md R406. -/
theorem BitCache.peek_eq (c : BitCache) (n : Nat) :
    c.peek n =
      if n = 0 then .error (raiseFault .peekZero c.fill)
      else if 64 < n then .error (raiseFault .peekOverCapacity c.fill)
      else if 32 < n then .error (raiseFault .peekOverMax c.fill)
      else if c.fill < n then .error (raiseFault .peekOverFill c.fill)
      else .ok (c.oldest n) := by
  unfold BitCache.peek countFault
  split_ifs <;> rfl

/-- In LSB-first flow the n oldest bits are C[n-1:0] (41_bit_cache.md R406). -/
theorem BitCache.oldest_lsbFirst {c : BitCache} {n : Nat} (hflow : c.flow = .lsbFirst) (hn : n ≤ 32) :
    (c.oldest n).setWidth 64 = lowBits c.bits n := by
  apply BitVec.eq_of_getLsbD_eq
  intro i hi
  simp only [BitCache.oldest, hflow, BitVec.getLsbD_setWidth, lowBits_getLsbD, hi, decide_true, Bool.true_and]
  by_cases h : i < n
  · simp [show i < 32 by omega]
  · simp [h]

/-- In MSB-first flow the n oldest bits are C[63:64-n] (41_bit_cache.md R406). -/
theorem BitCache.oldest_msbFirst {c : BitCache} {n : Nat} (hflow : c.flow = .msbFirst) (hn : n ≤ 32) :
    (c.oldest n).setWidth 64 = c.bits >>> (64 - n) := by
  apply BitVec.eq_of_getLsbD_eq
  intro i hi
  simp only [BitCache.oldest, hflow, BitVec.getLsbD_setWidth, BitVec.getLsbD_ushiftRight, hi, decide_true, Bool.true_and]
  by_cases h : i < 32
  · simp [h]
  · simp [h, BitVec.getLsbD_of_ge c.bits (64 - n + i) (by omega)]

/-- Skip in LSB-first flow shifts C right (41_bit_cache.md R407). -/
theorem BitCache.skip_lsbFirst {c : BitCache} {n : Nat} (hflow : c.flow = .lsbFirst) (h : n ≤ c.fill) :
    c.skip n = .ok { c with bits := c.bits >>> n, fill := c.fill - n } := by
  unfold BitCache.skip
  rw [if_neg (Nat.not_lt.2 h), hflow]

/-- Skip in MSB-first flow shifts C left (41_bit_cache.md R407). -/
theorem BitCache.skip_msbFirst {c : BitCache} {n : Nat} (hflow : c.flow = .msbFirst) (h : n ≤ c.fill) :
    c.skip n = .ok { c with bits := c.bits <<< n, fill := c.fill - n } := by
  unfold BitCache.skip
  rw [if_neg (Nat.not_lt.2 h), hflow]

/-! ## Extraction -/

theorem extractHigh_fits {w n : Nat} (x : BitVec w) (h : n ≤ w) : ∃ y, extractHigh w x n = .ok y := by
  cases hx : extractHigh w x n with
  | ok y => exact ⟨y, rfl⟩
  | error e => exact absurd h (Nat.not_le.2 (extractHigh_error.1 hx).1)

theorem extractLow_fits {w n : Nat} (x : BitVec w) (h : n ≤ w) : ∃ y, extractLow w x n = .ok y := by
  cases hx : extractLow w x n with
  | ok y => exact ⟨y, rfl⟩
  | error e => exact absurd h (Nat.not_le.2 (extractLow_error.1 hx).1)

/-- A value with the bits that ExtractHigh keeps, and zeros elsewhere, is what it gives (41_bit_cache.md R451). -/
theorem extractHigh_eq_ok {w n : Nat} {x y : BitVec w} (hn : n ≤ w)
    (h : ∀ i < w, y.getLsbD i = (decide (w - n ≤ i) && x.getLsbD i)) : extractHigh w x n = .ok y := by
  obtain ⟨z, hz⟩ := extractHigh_fits x hn
  have hzy : z = y := BitVec.eq_of_getLsbD_eq fun i hi => (extractHigh_bits hz i).trans (h i hi).symm
  rw [hz, hzy]

/-- A value with the bits that ExtractLow keeps, and zeros elsewhere, is what it gives (41_bit_cache.md R451). -/
theorem extractLow_eq_ok {w n : Nat} {x y : BitVec w} (hn : n ≤ w)
    (h : ∀ i < w, y.getLsbD i = (decide (i < n) && x.getLsbD i)) : extractLow w x n = .ok y := by
  obtain ⟨z, hz⟩ := extractLow_fits x hn
  have hzy : z = y := BitVec.eq_of_getLsbD_eq fun i hi => (extractLow_bits hz i).trans (h i hi).symm
  rw [hz, hzy]

/-! ## Commands -/

section
variable {s : State} {n : Nat}

/-- A command that runs in its mode ends as its pseudocode does (60_exceptions.md R904, R930). -/
theorem runCommand_inMode {i : Instr} {m : Mode} {rest : State → CommandEnd} (hf : s.faulted = false) (hm : s.mode = m) :
    runCommand i s (fun s => requireMode m s (rest s)) = finishCommand (encode i).word (rest s) := by
  rw [runCommand_ready hf, requireMode_eq hm]

theorem exec_cpush (hf : s.faulted = false) (hm : s.mode = .raw) :
    exec (.cpush n) s =
      finishCommand (encode (.cpush n)).word (.ofExcept s ((s.cache.push s.data n).map s.setCache)) := by
  unfold exec execCpush
  exact runCommand_inMode hf hm

theorem exec_cpeek (hf : s.faulted = false) (hm : s.mode = .raw) :
    exec (.cpeek n) s =
      finishCommand (encode (.cpeek n)).word (.ofExcept s ((s.cache.peek n).map fun v => s.setResult (v.setWidth 64))) := by
  unfold exec execCpeek
  exact runCommand_inMode hf hm

theorem exec_cskip (hf : s.faulted = false) (hm : s.mode = .raw) :
    exec (.cskip n) s = finishCommand (encode (.cskip n)).word (.ofExcept s ((s.cache.skip n).map s.setCache)) := by
  unfold exec execCskip
  exact runCommand_inMode hf hm

/-- Pseudocode that gives a value completes the command in the state updated with it (45_control.md R813). -/
theorem finishCommand_ok {α : Type} (w : Word) (f : α → State) (a : α) :
    finishCommand w (.ofExcept s (Except.map f (.ok a))) = .next ((f a).setIoerr false) := rfl

/-- Pseudocode that raises a fatal fault leaves the state before the command with the fault record (60_exceptions.md
R906). -/
theorem finishCommand_raiseFault {α : Type} (i : Instr) (f : α → State) (c : Cause) (info : Nat) :
    finishCommand (encode i).word (.ofExcept s (Except.map f (.error (raiseFault c info)))) =
      .next (faultedBy s i c info) := rfl

/-- XHI in its W-bit operand (41_bit_cache.md R450). -/
theorem exec_xhi (hf : s.faulted = false) (width : ExtractWidth) :
    exec (.xhi width n) s =
      finishCommand (encode (.xhi width n)).word
        (.ofExcept s ((extractHigh (extractBits width) (s.data.setWidth _) n).map fun v => s.setResult (v.setWidth 64))) := by
  unfold exec execXhi
  exact runCommand_ready hf

/-- XLO in its W-bit operand (41_bit_cache.md R460). -/
theorem exec_xlo (hf : s.faulted = false) (width : ExtractWidth) :
    exec (.xlo width n) s =
      finishCommand (encode (.xlo width n)).word
        (.ofExcept s ((extractLow (extractBits width) (s.data.setWidth _) n).map fun v => s.setResult (v.setWidth 64))) := by
  unfold exec execXlo
  exact runCommand_ready hf

end

end Sys2Proof.Machine
end

section
/-! PROOF. The statements about the commands CINIT, CPUSH, CPEEK and CSKIP and about the extraction of bits (41_bit_cache.md
R400-R462). -/

namespace Sys2Proof.Machine

/-! ## The commands of a raw session -/

/-- Settles O24: the mode check passes, and the command completes in the opened session. -/
theorem cinitOpensRawSession : Obligations.CinitOpensRawSession := by
  intro fl s hf hm
  unfold exec execCinit
  exact runCommand_inMode hf hm

/-- Settles O25: the pushed bits lie from `pushOffset` on, which is F, or 64 - F - n. -/
theorem cpushAppendsBits : Obligations.CpushAppendsBits := by
  intro n s hf hm
  rw [exec_cpush hf hm]
  refine ⟨fun hfit => ⟨s.cache.bits ||| (lowBits s.data n <<< s.cache.pushOffset n), ?_, fun i hi => ?_⟩,
    fun hover => ?_⟩
  · rw [BitCache.push_eq s.data hfit, finishCommand_ok]
    rfl
  · rw [BitVec.getLsbD_or, lowBits_shiftLeft_getLsbD _ _ _ hi, BitCache.pushOffset]
    cases s.cache.flow with
    | lsbFirst => rfl
    | msbFirst =>
      have hlow : 64 - s.cache.fill - n ≤ i ↔ 64 ≤ i + s.cache.fill + n := by omega
      have hhigh : i < 64 - s.cache.fill - n + n ↔ i + s.cache.fill < 64 := by omega
      have hindex : i - (64 - s.cache.fill - n) = i + s.cache.fill + n - 64 := by omega
      simp only [hlow, hhigh, hindex]
  · rw [BitCache.push_error.2 ⟨hover, rfl⟩, finishCommand_raiseFault]

/-- Settles O26: one case per check of Peek, and one per flow where all pass. -/
theorem cpeekReadsOldestBits : Obligations.CpeekReadsOldestBits := by
  intro n s hf hm
  rw [exec_cpeek hf hm, BitCache.peek_eq]
  split_ifs with hzero hcapacity hmax hfill
  · exact finishCommand_raiseFault ..
  · exact finishCommand_raiseFault ..
  · exact finishCommand_raiseFault ..
  · exact finishCommand_raiseFault ..
  · rw [finishCommand_ok]
    cases hflow : s.cache.flow with
    | lsbFirst =>
      rw [BitCache.oldest_lsbFirst hflow (Nat.not_lt.1 hmax), lowBits_eq_ofNat]
      rfl
    | msbFirst =>
      rw [BitCache.oldest_msbFirst hflow (Nat.not_lt.1 hmax), shiftRight_eq_ofNat]
      rfl

/-- Settles O27: the shift of C in each flow, as a quotient or a product. -/
theorem cskipDropsOldestBits : Obligations.CskipDropsOldestBits := by
  intro n s hf hm
  rw [exec_cskip hf hm]
  split_ifs with hover
  · rw [BitCache.skip_error.2 ⟨hover, rfl⟩, finishCommand_raiseFault]
  · have hfit := Nat.not_lt.1 hover
    cases hflow : s.cache.flow with
    | lsbFirst =>
      rw [BitCache.skip_lsbFirst hflow hfit, finishCommand_ok, shiftRight_eq_ofNat, hflow]
      rfl
    | msbFirst =>
      rw [BitCache.skip_msbFirst hflow hfit, finishCommand_ok, shiftLeft_eq_ofNat, hflow]
      rfl

/-! ## Extraction -/

section
variable {s : State} {n : Nat} {width : ExtractWidth}

/-- XHI n keeps the high n bits of the W-bit operand in place (41_bit_cache.md R450, R451). -/
theorem exec_xhi_bits (hf : s.faulted = false) (hn : n ≤ extractBits width) :
    ∃ r : DWord, exec (.xhi width n) s = .next { s with result := r, ioerr := false } ∧
      ∀ i < 64, r.getLsbD i =
        (decide (extractBits width ≤ i + n) && decide (i < extractBits width) && s.data.getLsbD i) := by
  obtain ⟨y, hy⟩ := extractHigh_fits (s.data.setWidth (extractBits width)) hn
  refine ⟨y.setWidth 64, ?_, fun i hi => ?_⟩
  · rw [exec_xhi hf, hy, finishCommand_ok]
    rfl
  · have hplace : extractBits width - n ≤ i ↔ extractBits width ≤ i + n := Nat.sub_le_iff_le_add
    simp [BitVec.getLsbD_setWidth, hi, extractHigh_bits hy, hplace, Bool.and_assoc]

/-- XLO n keeps the low n bits (41_bit_cache.md R451, R460). -/
theorem exec_xlo_bits (hf : s.faulted = false) (hn : n ≤ extractBits width) :
    ∃ r : DWord, exec (.xlo width n) s = .next { s with result := r, ioerr := false } ∧
      ∀ i < 64, r.getLsbD i = (decide (i < n) && s.data.getLsbD i) := by
  obtain ⟨y, hy⟩ := extractLow_fits (s.data.setWidth (extractBits width)) hn
  refine ⟨y.setWidth 64, ?_, fun i hi => ?_⟩
  · rw [exec_xlo hf, hy, finishCommand_ok]
    rfl
  · have hinside : i < n → i < extractBits width := fun h => h.trans_le hn
    rw [BitVec.getLsbD_setWidth, extractLow_bits hy, BitVec.getLsbD_setWidth]
    by_cases h : i < n
    · simp [hi, h, hinside h]
    · simp [h]

end

/-- Settles O28: for each width W, the bits that stay are those of the extraction of the W-bit operand. -/
theorem extractionKeepsBits : Obligations.ExtractionKeepsBits := by
  intro e he n s hf
  obtain ⟨width, W⟩ := e
  obtain rfl : W = extractBits width := by
    simp only [List.mem_cons, Prod.mk.injEq, List.not_mem_nil, or_false] at he
    rcases he with ⟨rfl, rfl⟩ | ⟨rfl, rfl⟩ | ⟨rfl, rfl⟩ | ⟨rfl, rfl⟩ <;> rfl
  refine ⟨fun hn => ⟨exec_xhi_bits hf hn, exec_xlo_bits hf hn⟩, fun hover => ⟨?_, ?_⟩⟩
  · rw [exec_xhi hf, extractHigh_error.2 ⟨hover, rfl⟩, finishCommand_raiseFault]
  · rw [exec_xlo hf, extractLow_error.2 ⟨hover, rfl⟩, finishCommand_raiseFault]

/-- The n leading ones of a W-bit value, as a difference of powers of two (41_bit_cache.md R461). -/
theorem ofNat_leadingOnes_getLsbD {w n i : Nat} (hi : i < w) :
    (BitVec.ofNat w (2 ^ w - 2 ^ (w - n))).getLsbD i = decide (w - n ≤ i) := by
  have hlt : 2 ^ (w - n) - 1 < 2 ^ w :=
    (Nat.sub_one_lt (Nat.two_pow_pos _).ne').trans_le (Nat.pow_le_pow_right Nat.two_pos (Nat.sub_le w n))
  have hones := Nat.testBit_two_pow_sub_succ hlt i
  rw [Nat.sub_one_add_one (Nat.two_pow_pos _).ne'] at hones
  rw [BitVec.getLsbD_ofNat, hones, Nat.testBit_two_pow_sub_one]
  simp only [hi, decide_true, Bool.true_and, ← decide_not, Nat.not_lt]

/-- Settles O30: each law bit by bit, for every width. -/
theorem extractionLaws : Obligations.ExtractionLaws := by
  intro W _ N hN
  refine ⟨extractHigh_eq_ok hN fun i hi => ?_, extractLow_eq_ok hN fun i hi => ?_, extractHigh_eq_ok hN fun i hi => ?_,
    extractLow_eq_ok hN fun i hi => ?_, fun x => ⟨extractHigh_eq_ok le_rfl fun i hi => ?_,
    extractLow_eq_ok le_rfl fun i hi => ?_, extractHigh_eq_ok W.zero_le fun i hi => ?_,
    extractLow_eq_ok W.zero_le fun i hi => ?_⟩⟩
  · simp
  · simp
  · rw [ofNat_leadingOnes_getLsbD hi, BitVec.getLsbD_allOnes, decide_eq_true hi, Bool.and_true]
  · exact (mask_getLsbD W N i).trans (by simp [hi, Bool.and_comm])
  · simp
  · simp [hi]
  · simp [hi]
  · simp

/-- ExtractLow of the whole register is its n low bits (41_bit_cache.md R462). -/
theorem extractLow_eq_lowBits {n : Nat} (x : DWord) (hn : n ≤ 64) : extractLow 64 x n = .ok (lowBits x n) :=
  extractLow_eq_ok hn fun i _ => lowBits_getLsbD x n i

/-- ExtractHigh drops only the bits that right-aligning shifts out (41_bit_cache.md R462). -/
theorem extractHigh_shiftRight {n : Nat} {x y : DWord} (h : extractHigh 64 x n = .ok y) : y >>> (64 - n) = x >>> (64 - n) := by
  apply BitVec.eq_of_getLsbD_eq
  intro i _
  simp [BitVec.getLsbD_ushiftRight, extractHigh_bits h]

/-- Settles O31: Peek gives the n oldest bits, which are C[63:64-n] or C[n-1:0]. -/
theorem peekIsExtraction : Obligations.PeekIsExtraction := by
  intro c n h1 h32 hfill
  refine ⟨c.oldest n, BitCache.peek_fits h1 h32 hfill, ?_⟩
  have h64 : n ≤ 64 := h32.trans (by decide)
  cases hflow : c.flow with
  | lsbFirst =>
    rw [BitCache.oldest_lsbFirst hflow h32]
    exact extractLow_eq_lowBits c.bits h64
  | msbFirst =>
    obtain ⟨y, hy⟩ := extractHigh_fits c.bits h64
    exact ⟨y, hy, (BitCache.oldest_msbFirst hflow h32).trans (extractHigh_shiftRight hy).symm⟩

end Sys2Proof.Machine
end

section
/-! PROOF. The bit cache runs every sequence of pushes, peeks and skips as a queue of bits does (41_bit_cache.md R408). -/

namespace Sys2Proof.Machine

/-! ## One operation at the head of a sequence -/

section
variable {ops : List CacheOp} {c d : BitCache} {v : DWord} {n : Nat}

theorem runCache_push (h : c.push v n = .ok d) : runCache (.push v n :: ops) c = runCache ops d := by
  rw [runCache, h]
  rfl

theorem runCache_push_over (h : ¬ n + c.fill ≤ 64) : runCache (.push v n :: ops) c = none := by
  rw [runCache, BitCache.push_error.2 ⟨Nat.not_le.1 h, rfl⟩]
  rfl

theorem runCache_peek {w : Word} (h : c.peek n = .ok w) :
    runCache (.peek n :: ops) c =
      (runCache ops c).map fun r => (r.1, valueBits c.flow (w.setWidth 64) n :: r.2) := by
  rw [runCache, h]
  cases runCache ops c <;> rfl

/-- Peek outside its contract raises (41_bit_cache.md R406). -/
theorem runCache_peek_refused (h : ¬ (1 ≤ n ∧ n ≤ 32 ∧ n ≤ c.fill)) : runCache (.peek n :: ops) c = none := by
  cases hpeek : c.peek n with
  | ok w =>
    obtain ⟨h1, h32, hfill, -⟩ := BitCache.peek_ok hpeek
    exact absurd ⟨h1, h32, hfill⟩ h
  | error e =>
    rw [runCache, hpeek]
    rfl

theorem runCache_skip (h : c.skip n = .ok d) : runCache (.skip n :: ops) c = runCache ops d := by
  rw [runCache, h]
  rfl

theorem runCache_skip_over (h : ¬ n ≤ c.fill) : runCache (.skip n :: ops) c = none := by
  rw [runCache, BitCache.skip_error.2 ⟨Nat.not_le.1 h, rfl⟩]
  rfl

end

/-! ## Sequences -/

/-- A run of the cache gives what a run of the queue gives, and keeps the cache invariant and the flow (41_bit_cache.md
R408). -/
def RunsAsQueue (f : Flow) (r : Option (BitCache × List (List Bool))) (q : Option (List Bool × List (List Bool))) : Prop :=
  r.map (fun t => (t.1.queue, t.2)) = q ∧ ∀ t, r = some t → t.1.wf ∧ t.1.flow = f

theorem runsAsQueue_none (f : Flow) : RunsAsQueue f none none := ⟨rfl, nofun⟩

/-- Both runs may record one more peek of the same bits. -/
theorem RunsAsQueue.peeked {f : Flow} {r : Option (BitCache × List (List Bool))}
    {q : Option (List Bool × List (List Bool))} (h : RunsAsQueue f r q) (bits : List Bool) :
    RunsAsQueue f (r.map fun t => (t.1, bits :: t.2)) (q.map fun t => (t.1, bits :: t.2)) := by
  obtain ⟨rfl, hkeeps⟩ := h
  refine ⟨by simp [Function.comp_def], fun t ht => ?_⟩
  obtain ⟨u, hu, rfl⟩ := Option.map_eq_some_iff.1 ht
  exact hkeeps u hu

/-- From any cache that meets the invariant the cache runs as the queue of its valid bits: each operation keeps its contract
exactly where the queue's does, and does to the queue what the queue's does (41_bit_cache.md R405-R408). -/
theorem runCache_runsAsQueue (ops : List CacheOp) {c : BitCache} (hc : c.wf) :
    RunsAsQueue c.flow (runCache ops c) (runQueue c.flow ops c.queue) := by
  induction ops generalizing c with
  | nil => exact ⟨rfl, fun t ht => by cases ht; exact ⟨hc, rfl⟩⟩
  | cons op ops ih =>
    cases op with
    | push v n =>
      rw [runQueue, BitCache.queue_length]
      split_ifs with hfit
      · obtain ⟨d, hd⟩ := BitCache.push_fits v hfit
        obtain ⟨-, hwf, hflow, -, hqueue⟩ := BitCache.push_ok hc hd
        rw [runCache_push hd, ← hqueue, ← hflow]
        exact ih hwf
      · rw [runCache_push_over hfit]
        exact runsAsQueue_none _
    | peek n =>
      rw [runQueue, BitCache.queue_length]
      split_ifs with hcontract
      · obtain ⟨h1, h32, hfill⟩ := hcontract
        obtain ⟨hbits, -⟩ := BitCache.oldest_bits h32 hfill
        rw [runCache_peek (BitCache.peek_fits h1 h32 hfill), hbits]
        exact (ih hc).peeked _
      · rw [runCache_peek_refused hcontract]
        exact runsAsQueue_none _
    | skip n =>
      rw [runQueue, BitCache.queue_length]
      split_ifs with hfit
      · obtain ⟨d, hd⟩ := BitCache.skip_fits hfit
        obtain ⟨-, hwf, hflow, -, hqueue⟩ := BitCache.skip_ok hc hd
        rw [runCache_skip hd, ← hqueue, ← hflow]
        exact ih hwf
      · rw [runCache_skip_over hfit]
        exact runsAsQueue_none _

/-- Settles O29: the empty cache meets the invariant and is the empty queue. -/
theorem cacheIsQueue : Obligations.CacheIsQueue := by
  intro f ops
  have h := runCache_runsAsQueue ops (BitCache.wf_empty f)
  rw [BitCache.empty_queue, BitCache.empty_flow] at h
  exact h

end Sys2Proof.Machine
end

section
/-! PROOF. The bits of a value, of a chunk and of a drained word in queue order, the bytes of a drained word
(42_stream_engine.md R510, R512, R531), and the byte string that window bytes stand for (44_jpeg_stuffing.md R720). -/

namespace Sys2Proof.Machine

/-! ## The bits of a value -/

/-- The two flows take the same bits in opposite order (41_bit_cache.md R408). -/
theorem valueBits_msbFirst (v : DWord) (n : Nat) :
    valueBits .msbFirst v n = (valueBits .lsbFirst v n).reverse := by
  apply List.ext_getElem (by simp)
  intro i _ _
  simp [valueBits]

/-- In LSB-first flow a value's low bits come first. -/
theorem valueBits_lsbFirst_add (v : DWord) (m n : Nat) :
    valueBits .lsbFirst v (m + n) = valueBits .lsbFirst v m ++ valueBits .lsbFirst (v >>> m) n := by
  simp [valueBits, List.range_add]

/-- In MSB-first flow a value's low bits come last. -/
theorem valueBits_msbFirst_add (v : DWord) (m n : Nat) :
    valueBits .msbFirst v (m + n) = valueBits .msbFirst (v >>> n) m ++ valueBits .msbFirst v n := by
  simp only [valueBits_msbFirst, Nat.add_comm m n, valueBits_lsbFirst_add, List.reverse_append]

/-- The n low bits alone decide what a value contributes. -/
theorem valueBits_congr (f : Flow) {v v' : DWord} {n : Nat} (h : ∀ i < n, v.getLsbD i = v'.getLsbD i) :
    valueBits f v n = valueBits f v' n := by
  cases f with
  | lsbFirst => exact List.map_congr_left fun i hi => h i (List.mem_range.1 hi)
  | msbFirst =>
    refine List.map_congr_left fun i hi => h _ ?_
    have := List.mem_range.1 hi
    omega

/-- A value below 2^n is determined by its n bits (41_bit_cache.md R408). -/
theorem valueBits_inj {f : Flow} {v v' : DWord} {n : Nat} (hv : v.toNat < 2 ^ n) (hv' : v'.toNat < 2 ^ n)
    (h : valueBits f v n = valueBits f v' n) : v = v' := by
  have hlsb : valueBits .lsbFirst v n = valueBits .lsbFirst v' n := by
    cases f with
    | lsbFirst => exact h
    | msbFirst => rwa [valueBits_msbFirst, valueBits_msbFirst, List.reverse_inj] at h
  have hlow : ∀ i < n, v.getLsbD i = v'.getLsbD i := by simpa [valueBits] using hlsb
  apply BitVec.eq_of_getLsbD_eq
  intro i _
  by_cases hi : i < n
  · exact hlow i hi
  · have hle : 2 ^ n ≤ 2 ^ i := Nat.pow_le_pow_right (by decide) (Nat.not_lt.1 hi)
    rw [← BitVec.testBit_toNat, ← BitVec.testBit_toNat, Nat.testBit_lt_two_pow (hv.trans_le hle),
      Nat.testBit_lt_two_pow (hv'.trans_le hle)]

/-- A value cut into equal parts, the low one first (42_stream_engine.md R531). -/
theorem flatMap_valueBits_lsbFirst (v : DWord) (a m : Nat) :
    ((List.range m).flatMap fun j => valueBits .lsbFirst (v >>> (a * j)) a) = valueBits .lsbFirst v (a * m) := by
  induction m with
  | zero => rfl
  | succ m ih =>
    rw [List.range_succ, List.flatMap_append, ih, List.flatMap_singleton, Nat.mul_succ, valueBits_lsbFirst_add]

/-- A value cut into equal parts, the high one first (42_stream_engine.md R531). -/
theorem flatMap_valueBits_msbFirst (v : DWord) (a m : Nat) :
    ((List.range m).flatMap fun j => valueBits .msbFirst (v >>> (a * m - a * (j + 1))) a) =
      valueBits .msbFirst v (a * m) := by
  induction m generalizing v with
  | zero => rfl
  | succ m ih =>
    have hhead : ((List.range m).flatMap fun j => valueBits .msbFirst (v >>> (a * (m + 1) - a * (j + 1))) a) =
        valueBits .msbFirst (v >>> a) (a * m) := by
      rw [← ih]
      refine List.flatMap_congr fun j hj => ?_
      have hle : a * (j + 1) ≤ a * m := Nat.mul_le_mul_left a (List.mem_range.1 hj)
      rw [← BitVec.shiftRight_add, Nat.mul_succ, show a * m + a - a * (j + 1) = a + (a * m - a * (j + 1)) by omega]
    rw [List.range_succ, List.flatMap_append, hhead, List.flatMap_singleton, Nat.sub_self, BitVec.ushiftRight_zero,
      Nat.mul_succ, valueBits_msbFirst_add]

/-! ## The bits of a chunk -/

theorem byteBits_msbFirst (b : Byte) : byteBits .msbFirst b = (byteBits .lsbFirst b).reverse := valueBits_msbFirst _ _

/-- A little-endian number in LSB-first flow is its bytes' bits in turn (42_stream_engine.md R512). -/
theorem valueBits_bytesValue {bs : List Byte} (h : bs.length ≤ 8) :
    valueBits .lsbFirst (BitVec.ofNat 64 (bytesValue bs)) (8 * bs.length) = bs.flatMap (byteBits .lsbFirst) := by
  induction bs with
  | nil => rfl
  | cons b bs ih =>
    have hbs : bs.length ≤ 8 := Nat.le_of_succ_le h
    have hvalue := toNat_ofNat_bytesValue h
    have hrest : BitVec.ofNat 64 (bytesValue (b :: bs)) >>> 8 = BitVec.ofNat 64 (bytesValue bs) := by
      apply BitVec.eq_of_toNat_eq
      have := b.isLt
      rw [BitVec.toNat_ushiftRight, hvalue, toNat_ofNat_bytesValue hbs, Nat.shiftRight_eq_div_pow, bytesValue]
      omega
    have hfirst : valueBits .lsbFirst (BitVec.ofNat 64 (bytesValue (b :: bs))) 8 = byteBits .lsbFirst b := by
      refine valueBits_congr _ fun i hi => ?_
      rw [← BitVec.testBit_toNat, ← BitVec.testBit_toNat, hvalue, bytesValue, BitVec.toNat_setWidth_of_le (by decide),
        Nat.add_comm, show 256 = 2 ^ 8 from rfl, Nat.testBit_two_pow_mul_add _ b.isLt, if_pos hi]
    rw [List.length_cons, Nat.mul_succ, Nat.add_comm, valueBits_lsbFirst_add, hrest, hfirst, ih hbs, List.flatMap_cons]

/-- The orders whose chunks are little-endian with LSB-first flow, or big-endian with MSB-first flow 
(42_stream_engine.md R512). -/
def Policy.Matched (q : Policy) : Prop :=
  q.endian = .little ∧ q.flow = .lsbFirst ∨ q.endian = .big ∧ q.flow = .msbFirst

theorem policy_matched (p : Config.Params) {o : BitOrder} (ho : o = .lsb ∨ o = .msb ∨ o = .jpeg) :
    (policy p o).Matched := by
  rcases ho with rfl | rfl | rfl
  · exact .inl ⟨rfl, rfl⟩
  · exact .inr ⟨rfl, rfl⟩
  · exact .inr ⟨rfl, rfl⟩

/-- A chunk whose byte order goes with the flow contributes its bytes' bits in turn (42_stream_engine.md R512). -/
theorem chunkBits_eq_flatMap {q : Policy} (hq : q.Matched) {bs : List Byte} (hlen : bs.length = q.chunk)
    (hle : q.chunk ≤ 8) : chunkBits q bs = bs.flatMap (byteBits q.flow) := by
  unfold chunkBits
  rw [← hlen]
  rcases hq with ⟨hendian, hflow⟩ | ⟨hendian, hflow⟩
  · rw [hendian, hflow]
    exact valueBits_bytesValue (hlen ▸ hle)
  · have hrev := valueBits_bytesValue (bs := bs.reverse) (by rw [List.length_reverse]; omega)
    rw [List.length_reverse] at hrev
    have hbytes : byteBits .msbFirst = List.reverse ∘ byteBits .lsbFirst := funext byteBits_msbFirst
    rw [hendian, hflow, valueBits_msbFirst, chunkValue, hrev, List.reverse_flatMap, List.reverse_reverse, hbytes]

/-- Whole chunks whose byte order goes with the flow contribute their bytes' bits in turn (42_stream_engine.md R512). -/
theorem streamBits_eq_flatMap {q : Policy} (hq : q.Matched) (hle : q.chunk ≤ 8) {m : Nat} {bs : List Byte}
    (hlen : bs.length = q.chunk * m) : streamBits q m bs = bs.flatMap (byteBits q.flow) := by
  induction m generalizing bs with
  | zero =>
    obtain rfl := List.length_eq_zero_iff.1 (hlen.trans (Nat.mul_zero _))
    rfl
  | succ m ih =>
    rw [Nat.mul_succ] at hlen
    rw [streamBits, chunkBits_eq_flatMap hq (by rw [List.length_take]; omega) hle,
      ih (by rw [List.length_drop]; omega), ← List.flatMap_append, List.take_append_drop]

/-- The bits of whole chunks one after the other (42_stream_engine.md R510). -/
theorem streamBits_append {q : Policy} {m : Nat} {xs : List Byte} (hlen : xs.length = q.chunk * m) (n : Nat)
    (ys : List Byte) : streamBits q (m + n) (xs ++ ys) = streamBits q m xs ++ streamBits q n ys := by
  induction m generalizing xs with
  | zero =>
    obtain rfl := List.length_eq_zero_iff.1 (hlen.trans (Nat.mul_zero _))
    simp [streamBits]
  | succ m ih =>
    rw [Nat.mul_succ] at hlen
    have hchunk : q.chunk ≤ xs.length := by omega
    rw [Nat.succ_add, streamBits, streamBits, List.take_append_of_le_length hchunk,
      List.drop_append_of_le_length hchunk, ih (by rw [List.length_drop]; omega), List.append_assoc]

theorem streamBits_length (q : Policy) (m : Nat) (bs : List Byte) :
    (streamBits q m bs).length = 8 * q.chunk * m := by
  induction m generalizing bs with
  | zero => rfl
  | succ m ih => rw [streamBits, List.length_append, ih, chunkBits, valueBits_length, Nat.mul_succ, Nat.add_comm]

/-! ## The bytes of a drained word -/

/-- Where chunk j of a word lies in it (42_stream_engine.md R531). -/
def chunkOffset (f : Flow) (k j : Nat) : Nat :=
  match f with
  | .lsbFirst => 8 * k * j
  | .msbFirst => 32 - 8 * k * (j + 1)

theorem wordChunk_eq (f : Flow) (k : Nat) (w : Word) (j : Nat) : wordChunk f k w j = w >>> chunkOffset f k j := by
  cases f <;> rfl

/-- The bytes of a shifted word are bytes of the word itself. -/
theorem bytesUp_shiftRight (w : Word) (n k : Nat) :
    bytesUp (w >>> n) k = (List.range k).map fun i => w.extractLsb' (n + 8 * i) 8 := by
  refine List.map_congr_left fun i _ => BitVec.eq_of_getLsbD_eq fun j _ => ?_
  simp only [BitVec.getLsbD_extractLsb', BitVec.getLsbD_ushiftRight, Nat.add_assoc]

/-- The data bytes of a drained word are the table's, whatever the chunk widths (42_stream_engine.md R531). -/
theorem wordBytes_eq_table (p : Config.Params) (o : BitOrder) (w : Word) :
    wordBytes (policy p o) w = tableWordBytes o w := by
  simp only [wordBytes, splitChunk, wordChunk_eq, bytesUp_shiftRight]
  cases o with
  | lsb => cases hwidth : p.chunkLsb <;> simp only [policy, hwidth, Config.ChunkWidth.bytes] <;> rfl
  | msb => cases hwidth : p.chunkMsb <;> simp only [policy, hwidth, Config.ChunkWidth.bytes] <;> rfl
  | msb16 => simp only [policy]; rfl
  | msb32 => simp only [policy]; rfl
  | jpeg => cases hwidth : p.chunkJpeg <;> simp only [policy, hwidth, Config.ChunkWidth.bytes] <;> rfl

/-- Settles O33: the data bytes are the table's, and JPEG stuffs them. -/
theorem drainedWordBytes : Obligations.DrainedWordBytes := by
  intro p o w
  rw [storeWordBytes_eq_wire, wordBytes_eq_table]

@[simp] theorem tableWordBytes_length (o : BitOrder) (w : Word) : (tableWordBytes o w).length = 4 := by
  cases o <;> rfl

/-- The bits of a 32-bit word in queue order, the oldest first (42_stream_engine.md R531). -/
def wordBits (f : Flow) (w : Word) : List Bool := valueBits f (w.setWidth 64) 32

@[simp] theorem wordBits_length (f : Flow) (w : Word) : (wordBits f w).length = 32 := valueBits_length _ _ _

theorem flatMap_wordBits_length (f : Flow) (words : List Word) :
    (words.flatMap (wordBits f)).length = 32 * words.length := by
  rw [List.length_flatMap]
  simp [Nat.mul_comm]

theorem flatMap_tableWordBytes_length (o : BitOrder) (words : List Word) :
    (words.flatMap (tableWordBytes o)).length = 4 * words.length := by
  rw [List.length_flatMap]
  simp [Nat.mul_comm]

/-- A chunk read back contributes the low bits of the value it was split from (20_memory.md R213). -/
theorem chunkBits_splitChunk {q : Policy} (hq : q.chunk ≤ 4) (v : Word) :
    chunkBits q (splitChunk q.endian v q.chunk) = valueBits q.flow (v.setWidth 64) (8 * q.chunk) := by
  have hvalue : chunkValue q.endian (splitChunk q.endian v q.chunk) =
      BitVec.ofNat 64 (v.toNat % 2 ^ (8 * q.chunk)) := by
    rw [Nat.pow_mul, show 2 ^ 8 = 256 from rfl, ← bytesValue_bytesUp]
    cases q.endian with
    | little => rfl
    | big => rw [splitChunk, chunkValue, List.reverse_reverse]
  unfold chunkBits
  rw [hvalue]
  refine valueBits_congr _ fun i hi => ?_
  have hi' : i < 64 := by omega
  simp only [BitVec.getLsbD_ofNat, BitVec.getLsbD_setWidth, Nat.testBit_mod_two_pow, BitVec.testBit_toNat, hi, hi',
    decide_true, Bool.true_and]

/-- The chunks of a word read back one after the other (42_stream_engine.md R510, R531). -/
theorem streamBits_flatMap {q : Policy} {m : Nat} (g : Nat → List Byte) (hg : ∀ j, (g j).length = q.chunk) :
    streamBits q m ((List.range m).flatMap g) = (List.range m).flatMap fun j => chunkBits q (g j) := by
  induction m with
  | zero => rfl
  | succ m ih =>
    have hlen : ((List.range m).flatMap g).length = q.chunk * m := by
      rw [List.length_flatMap]
      simp [hg, Nat.mul_comm]
    rw [List.range_succ, List.flatMap_append, List.flatMap_append, streamBits_append hlen, ih, List.flatMap_singleton,
      List.flatMap_singleton, streamBits, streamBits, List.append_nil, List.take_of_length_le (hg m).le]

/-- The chunks of a word, each with its own bits, are the word's bits (42_stream_engine.md R531). -/
theorem flatMap_wordChunk_bits (f : Flow) {k m : Nat} (h : 8 * k * m = 32) (w : Word) :
    ((List.range m).flatMap fun j => valueBits f ((wordChunk f k w j).setWidth 64) (8 * k)) = wordBits f w := by
  have hshift : ∀ n : Nat, BitVec.setWidth 64 (w >>> n) = BitVec.setWidth 64 w >>> n := fun n => by
    apply BitVec.eq_of_toNat_eq
    simp only [BitVec.toNat_setWidth_of_le (show 32 ≤ 64 by decide), BitVec.toNat_ushiftRight]
  have hword : wordBits f w = valueBits f (w.setWidth 64) (8 * k * m) := by rw [h, wordBits]
  rw [hword]
  cases f with
  | lsbFirst =>
    simp only [wordChunk, hshift]
    exact flatMap_valueBits_lsbFirst _ _ _
  | msbFirst =>
    have hoffset : ∀ j, 32 - 8 * k * (j + 1) = 8 * k * m - 8 * k * (j + 1) := fun j => by rw [h]
    simp only [wordChunk, hshift, hoffset]
    exact flatMap_valueBits_msbFirst _ _ _

/-- Reading a drained word back gives its bits (42_stream_engine.md R510, R531). -/
theorem streamBits_tableWordBytes (p : Config.Params) (o : BitOrder) (w : Word) :
    streamBits (policy p o) (4 / (policy p o).chunk) (tableWordBytes o w) = wordBits (policy p o).flow w := by
  have hwhole : 8 * (policy p o).chunk * (4 / (policy p o).chunk) = 32 := by
    rcases policy_chunk p o with h | h | h <;> rw [h]
  rw [← wordBytes_eq_table p, wordBytes, streamBits_flatMap _ fun j => splitChunk_length _ _ _,
    ← flatMap_wordChunk_bits _ hwhole]
  exact List.flatMap_congr fun j _ => chunkBits_splitChunk (policy_chunk_le p o) _

/-- Reading drained words back gives their bits in turn (42_stream_engine.md R543). -/
theorem streamBits_flatMap_tableWordBytes (p : Config.Params) (o : BitOrder) (words : List Word) :
    streamBits (policy p o) (words.length * (4 / (policy p o).chunk)) (words.flatMap (tableWordBytes o)) =
      words.flatMap (wordBits (policy p o).flow) := by
  induction words with
  | nil => simp [streamBits]
  | cons w words ih =>
    have hwhole : (tableWordBytes o w).length = (policy p o).chunk * (4 / (policy p o).chunk) := by
      rw [tableWordBytes_length]
      rcases policy_chunk p o with h | h | h <;> rw [h]
    rw [List.length_cons, Nat.succ_mul, Nat.add_comm, List.flatMap_cons, List.flatMap_cons, streamBits_append hwhole,
      ih, streamBits_tableWordBytes]

/-! ## Byte strings that stand in MEM -/

/-- The first window byte of a data byte is the byte itself (44_jpeg_stuffing.md R720). -/
theorem HoldsAt.read_wireBytes_cons {o : BitOrder} {m : Memory} {a : Nat} {b : Byte} {bs : List Byte}
    (h : HoldsAt m a (wireBytes o (b :: bs))) : Memory.read m a = b := by
  unfold wireBytes at h
  split at h
  · unfold stuff at h
    split at h
    · exact (HoldsAt.cons_iff.1 h).1
    · exact (HoldsAt.cons_iff.1 h).1
  · exact (HoldsAt.cons_iff.1 h).1

/-- Of two data byte strings that stand at one address, the shorter one begins the longer one. -/
theorem wireBytes_begins {o : BitOrder} {m : Memory} {a : Nat} {xs ys : List Byte}
    (hx : HoldsAt m a (wireBytes o xs)) (hy : HoldsAt m a (wireBytes o ys)) (hlen : xs.length ≤ ys.length) :
    ∃ more, ys = xs ++ more := by
  induction xs generalizing a ys with
  | nil => exact ⟨ys, rfl⟩
  | cons x xs ih =>
    cases ys with
    | nil => simp at hlen
    | cons y ys =>
      obtain rfl : x = y := hx.read_wireBytes_cons.symm.trans hy.read_wireBytes_cons
      rw [wireBytes_cons, HoldsAt.append_iff] at hx hy
      obtain ⟨more, rfl⟩ := ih hx.2 hy.2 (Nat.le_of_succ_le_succ hlen)
      exact ⟨more, rfl⟩

/-- At one address stands at most one data byte string of a length. -/
theorem wireBytes_unique {o : BitOrder} {m : Memory} {a : Nat} {xs ys : List Byte}
    (hx : HoldsAt m a (wireBytes o xs)) (hy : HoldsAt m a (wireBytes o ys)) (hlen : xs.length = ys.length) :
    xs = ys := by
  obtain ⟨more, rfl⟩ := wireBytes_begins hx hy hlen.le
  rw [List.length_append] at hlen
  rw [List.length_eq_zero_iff.1 (Nat.left_eq_add.1 hlen), List.append_nil]

end Sys2Proof.Machine
end

section
/-! PROOF. Opening a session (42_stream_engine.md R500, R501, R502), and how a command that reads or writes a session's
window ends (R520, R535, R540). -/

namespace Sys2Proof.Machine

/-- LSB alone is LSB-first (42_stream_engine.md R502). -/
theorem policy_flow (p : Config.Params) (o : BitOrder) :
    (policy p o).flow = if o = .lsb then .lsbFirst else .msbFirst := by
  cases o <;> rfl

section
variable {i : Instr} {s : State}

/-- A session is opened over a window that lies in MEM, and CFG_RANGE is raised over another (20_memory.md R233). -/
theorem finishCommand_openOver (w : Window) (sub : Nat) (opened : State) :
    finishCommand (encode i).word (openOver Config.rsbc w sub s opened) = .next
      (if w.len ≠ 0 ∧ 2 ^ 32 < w.base + w.len then faultedBy s i .cfgRange sub else opened.setIoerr false) := by
  have hrange : w.inRange Config.rsbc = true ↔ ¬ (w.len ≠ 0 ∧ 2 ^ 32 < w.base + w.len) := by
    rw [Window.inRange_iff, not_and_or, not_not, Nat.not_lt, Config.rsbc]
  unfold openOver
  by_cases h : w.inRange Config.rsbc = true
  · rw [if_pos h, if_neg (hrange.1 h)]
    rfl
  · rw [if_neg h, if_pos (not_not.1 (mt hrange.2 h))]
    rfl

/-- A command whose pseudocode begins with the mode check, in its mode (60_exceptions.md R904, R930). -/
theorem runCommand_body {m : Mode} {body : State → CommandEnd} {rest : CommandEnd} (hf : s.faulted = false)
    (hm : s.mode = m) (hbody : body s = requireMode m s rest) :
    runCommand i s body = finishCommand (encode i).word rest := by
  rw [runCommand_ready hf, hbody, requireMode_eq hm]

/-- GETBITS is GetBits over the source window (42_stream_engine.md R520). -/
theorem exec_getbits (hf : s.faulted = false) (hm : s.mode = .dec) (n : Nat) :
    exec (.getbits n) s = finishCommand (encode (.getbits n)).word
      (.ofExcept s ((getBits Config.rsbc s.order n s.mem (srcWindow s.cfg) s.cursor).map fun r =>
        ((s.setCache r.2.cache).setSrcPos r.2.pos).setResult (r.1.setWidth 64))) :=
  runCommand_body hf hm rfl

/-- PUT is PutBits of DATA over the sink window (42_stream_engine.md R535). -/
theorem exec_put (hf : s.faulted = false) (hm : s.mode = .enc) (n : Nat) :
    exec (.put n) s = finishCommand (encode (.put n)).word
      (.ofExcept s ((putBits Config.rsbc s.order s.data n (snkWindow s.cfg) s.sink).map s.setSink)) :=
  runCommand_body hf hm rfl

/-- FLUSH is Flush over the sink window (42_stream_engine.md R540). -/
theorem exec_flush (hf : s.faulted = false) (hm : s.mode = .enc) :
    exec .flush s = finishCommand (encode .flush).word
      (.ofExcept s ((flushBits Config.rsbc s.order (snkWindow s.cfg) s.sink).map s.setSink)) :=
  runCommand_body hf hm rfl

/-- Pseudocode that raises IoError leaves the state before the command with IOERR set (60_exceptions.md R921). -/
theorem finishCommand_ioError {α : Type} (w : Word) (f : α → State) :
    finishCommand w (.ofExcept s (Except.map f (.error .ioError))) = .next { s with ioerr := true } := rfl

end

/-- Settles O34: the mode check passes, and the session is opened where the source window lies in MEM. -/
theorem dstartOpensDecodeSession : Obligations.DstartOpensDecodeSession := by
  intro o s hf hm
  rw [← policy_flow Config.rsbc o]
  exact (runCommand_body hf hm rfl).trans (finishCommand_openOver (srcWindow s.cfg) 1 _)

/-- Settles O35: the mode check passes, and the session is opened where the sink window lies in MEM. -/
theorem estartOpensEncodeSession : Obligations.EstartOpensEncodeSession := by
  intro o s hf hm
  rw [← policy_flow Config.rsbc o]
  exact (runCommand_body hf hm rfl).trans (finishCommand_openOver (snkWindow s.cfg) 2 _)

end Sys2Proof.Machine
end

section
/-! PROOF. Decode sessions: GETBITS loads just the chunks it needs and returns the next bits of the stream, or faults
(42_stream_engine.md R511, R520, R521), and values read from a stream do not depend on the chunk width (R512). -/

namespace Sys2Proof.Machine

/-! ## The chunks of one GetBits -/

section
variable {p : Config.Params} {o : BitOrder} {n fill m : Nat}

/-- The chunks that GetBits needs give it its bits (42_stream_engine.md R521). -/
theorem le_chunksNeeded (p : Config.Params) (o : BitOrder) (n fill : Nat) :
    n ≤ fill + 8 * (policy p o).chunk * chunksNeeded (policy p o).chunk n fill := by
  unfold chunksNeeded
  rcases policy_chunk p o with h | h | h <;> rw [h] <;> omega

/-- No fewer chunks than needed give GetBits its bits (42_stream_engine.md R521). -/
theorem chunksNeeded_le (h : n ≤ fill + 8 * (policy p o).chunk * m) : chunksNeeded (policy p o).chunk n fill ≤ m := by
  unfold chunksNeeded
  rcases policy_chunk p o with hk | hk | hk <;> rw [hk] at h ⊢ <;> omega

/-- Enough chunks, the last of which is needed, are the chunks needed (42_stream_engine.md R521). -/
theorem eq_chunksNeeded (h : n ≤ fill + 8 * (policy p o).chunk * m)
    (hlast : m ≠ 0 → fill + 8 * (policy p o).chunk * m < n + 8 * (policy p o).chunk) :
    m = chunksNeeded (policy p o).chunk n fill := by
  unfold chunksNeeded
  rcases policy_chunk p o with hk | hk | hk <;> rw [hk] at h hlast ⊢ <;> omega

end

/-! ## One GetBits -/

/-- A list cut in two at a given length. -/
theorem exists_append_of_length {α : Type} {l : List α} {a b : Nat} (h : l.length = a + b) :
    ∃ xs ys, l = xs ++ ys ∧ xs.length = a ∧ ys.length = b :=
  ⟨l.take a, l.drop a, (List.take_append_drop a l).symm, by rw [List.length_take]; omega, by
    rw [List.length_drop]; omega⟩

/-- What GetBits does with the data bytes of the chunks it needs: the value is the next n of the cached and loaded bits,
and the rest stays cached (42_stream_engine.md R521). -/
structure GetsBits (p : Config.Params) (o : BitOrder) (mem : Memory) (w : Window) (n : Nat) (data : List Byte)
    (v : Word) (k k' : Cursor) : Prop where
  length : data.length = (policy p o).chunk * chunksNeeded (policy p o).chunk n k.cache.fill
  holds : HoldsAt mem (w.base + k.pos) (wireBytes o data)
  pos : k'.pos = k.pos + (wireBytes o data).length
  value : valueBits (policy p o).flow (v.setWidth 64) n =
    (k.cache.queue ++ streamBits (policy p o) (chunksNeeded (policy p o).chunk n k.cache.fill) data).take n
  small : v.toNat < 2 ^ n
  rest : k'.cache.queue =
    (k.cache.queue ++ streamBits (policy p o) (chunksNeeded (policy p o).chunk n k.cache.fill) data).drop n
  ready : k'.Ready p o w

section
variable {p : Config.Params} {o : BitOrder} {mem : Memory} {w : Window} {n : Nat} {k k' : Cursor} {v : Word}
  {data : List Byte}

/-- Where GetBits completes it has loaded the chunks it needs, and no more. -/
theorem getBits_getsBits (hr : w.inRange p = true) (hk : k.Ready p o w) (h : getBits p o n mem w k = .ok (v, k')) :
    ∃ data, GetsBits p o mem w n data v k k' := by
  obtain ⟨-, -, m, data, k₁, loaded, hn, hleft, -, -, -, hrest, hpos, hvalue, hsmall⟩ := getBits_ok hr hk.wf hk.flow h
  rw [loaded.fill] at hn hleft
  obtain rfl := eq_chunksNeeded hn hleft
  exact ⟨data, loaded.length, loaded.holds, hpos.trans loaded.pos, by rw [← hk.flow, hvalue, loaded.queue], hsmall,
    by rw [hrest, loaded.queue], getBits_keeps_ready hr hk h⟩

/-- GetBits completes where the data bytes it needs stand in the rest of the window. -/
theorem getBits_of_data (hr : w.inRange p = true) (hk : k.Ready p o w) (h1 : 1 ≤ n) (hn : n ≤ 32)
    (hlen : data.length = (policy p o).chunk * chunksNeeded (policy p o).chunk n k.cache.fill)
    (hinside : k.pos + (wireBytes o data).length ≤ w.len) (hholds : HoldsAt mem (w.base + k.pos) (wireBytes o data)) :
    ∃ v k', getBits p o n mem w k = .ok (v, k') ∧ GetsBits p o mem w n data v k k' := by
  obtain ⟨⟨v, k'⟩, h⟩ := getBits_fits hr hk.wf hk.flow h1 hn (le_chunksNeeded p o n _) hlen hinside hholds
  obtain ⟨data', hgets⟩ := getBits_getsBits hr hk h
  obtain rfl := wireBytes_unique hgets.holds hholds (hgets.length.trans hlen.symm)
  exact ⟨v, k', h, hgets⟩

/-- The n bits of a GetBits were cached or loaded. -/
theorem GetsBits.le_length (h : GetsBits p o mem w n data v k k') :
    n ≤ (k.cache.queue ++
      streamBits (policy p o) (chunksNeeded (policy p o).chunk n k.cache.fill) data).length := by
  have hlen := congrArg List.length h.value
  rw [valueBits_length, List.length_take] at hlen
  omega

end

/-- Settles O36: GetBits completes over the data bytes it needs, and GETBITS puts back what it gives. -/
theorem getbitsReadsStream : Obligations.GetbitsReadsStream := by
  intro n s data q m wire bits hs hf hm h1 hn hlen hinside hholds
  obtain ⟨hready, hrange⟩ := hs.cursor_ready hm
  obtain ⟨v, k, hget, hgets⟩ := getBits_of_data hrange hready h1 hn hlen hinside hholds
  have hflow : s.cache.flow = q.flow := hready.flow
  have hqueue : k.cache.queue = bits.drop n := hgets.rest
  refine ⟨v.setWidth 64, k.cache, ?_, hflow ▸ hgets.value, ?_, hgets.ready.wf, hgets.ready.flow.trans hflow.symm,
    hqueue, ?_⟩
  · rw [exec_getbits hf hm, hget, finishCommand_ok, hgets.pos]
    rfl
  · rw [BitVec.toNat_setWidth_of_le (by decide)]
    exact hgets.small
  · rw [← BitCache.queue_length, hqueue, List.length_drop, List.length_append, BitCache.queue_length, streamBits_length]

/-! ## A stream that holds enough -/

/-- A decode session whose cache and whole chunks in the rest of the window hold `bits` (42_stream_engine.md R510,
R543). -/
structure Cursor.Supplies (p : Config.Params) (o : BitOrder) (mem : Memory) (w : Window) (bits : List Bool)
    (k : Cursor) : Prop where
  ready : k.Ready p o w
  stream : ∃ (m : Nat) (data : List Byte), data.length = (policy p o).chunk * m ∧
    k.pos + (wireBytes o data).length ≤ w.len ∧ HoldsAt mem (w.base + k.pos) (wireBytes o data) ∧
    k.cache.queue ++ streamBits (policy p o) m data = bits

/-- A fresh session over the window bytes of drained words holds their bits (42_stream_engine.md R543). -/
theorem Cursor.supplies_words {p : Config.Params} {o : BitOrder} {mem : Memory} {w : Window} {words : List Word}
    (hinside : (wireBytes o (words.flatMap (tableWordBytes o))).length ≤ w.len)
    (hholds : HoldsAt mem w.base (wireBytes o (words.flatMap (tableWordBytes o)))) :
    Cursor.Supplies p o mem w (words.flatMap (wordBits (policy p o).flow)) ⟨BitCache.empty (policy p o).flow, 0⟩ := by
  refine ⟨Cursor.ready_fresh p o w, words.length * (4 / (policy p o).chunk), words.flatMap (tableWordBytes o), ?_,
    (Nat.zero_add _).trans_le hinside, hholds, ?_⟩
  · rw [flatMap_tableWordBytes_length]
    rcases policy_chunk p o with h | h | h <;> rw [h] <;> omega
  · rw [BitCache.empty_queue, List.nil_append, streamBits_flatMap_tableWordBytes]

/-- GetBits of bits that the session holds returns them and leaves the others (42_stream_engine.md R521). -/
theorem Cursor.Supplies.getBits {p : Config.Params} {o : BitOrder} {mem : Memory} {w : Window} {bits : List Bool}
    {k : Cursor} {n : Nat} (hr : w.inRange p = true) (hk : k.Supplies p o mem w bits) (h1 : 1 ≤ n) (hn : n ≤ 32)
    (hle : n ≤ bits.length) :
    ∃ v k', Machine.getBits p o n mem w k = .ok (v, k') ∧ k'.Supplies p o mem w (bits.drop n) ∧
      valueBits (policy p o).flow (v.setWidth 64) n = bits.take n ∧ v.toNat < 2 ^ n := by
  obtain ⟨hready, m, data, hlen, hinside, hholds, rfl⟩ := hk
  rw [List.length_append, BitCache.queue_length, streamBits_length] at hle
  obtain ⟨j, rfl⟩ := Nat.exists_eq_add_of_le (chunksNeeded_le hle)
  obtain ⟨xs, ys, rfl, hxs, hys⟩ := exists_append_of_length (hlen.trans (Nat.mul_add ..))
  rw [wireBytes_append, List.length_append] at hinside
  rw [wireBytes_append, HoldsAt.append_iff] at hholds
  obtain ⟨hfirst, hafter⟩ := hholds
  obtain ⟨v, k', hget, hgets⟩ := getBits_of_data hr hready h1 hn hxs (by omega) hfirst
  have hpos := hgets.pos
  rw [streamBits_append hxs, ← List.append_assoc, List.take_append_of_le_length hgets.le_length,
    List.drop_append_of_le_length hgets.le_length, ← hgets.rest]
  refine ⟨v, k', hget, ⟨hgets.ready, j, ys, hys, by omega, ?_, rfl⟩, hgets.value, hgets.small⟩
  rw [hpos, ← Nat.add_assoc]
  exact hafter

/-! ## The faults of GETBITS -/

/-- GetBits of an order without stuffing, over a window that ends inside the chunks it needs, is END_OF_INPUT at the
window's end (42_stream_engine.md R511; 60_exceptions.md R902). -/
theorem getBits_endOfInput {p : Config.Params} {o : BitOrder} {mem : Memory} {w : Window} {n : Nat} {k : Cursor}
    (hr : w.inRange p = true) (hk : k.Ready p o w) (h1 : 1 ≤ n) (hn : n ≤ 32) (ho : o ≠ .jpeg)
    (hshort : w.len < k.pos + (policy p o).chunk * chunksNeeded (policy p o).chunk n k.cache.fill) :
    getBits p o n mem w k = .error (raiseFault .endOfInput w.len) := by
  cases h : getBits p o n mem w k with
  | ok x =>
    obtain ⟨data, hgets⟩ := getBits_getsBits hr hk h
    have hpos := hgets.pos
    have hinside := hgets.ready.inside
    rw [wireBytes, if_neg ho, hgets.length] at hpos
    omega
  | error e =>
    rcases getBits_error hr hk.wf hk.flow hk.inside h with hcount | ⟨-, -, pos, -, hpos, hread⟩
    · rw [countFault_none.2 ⟨h1, hn⟩] at hcount
      cases hcount
    · cases hread with
      | endOfInput info hle hle' =>
        obtain rfl : info = w.len := by omega
        rfl
      | badEscape info _ _ hjpeg => exact absurd hjpeg ho
      | outside a hout => exact absurd hr (by simp [hout])

/-- A count that the checks refuse is the fault of GetBits (42_stream_engine.md R521). -/
theorem getBits_countFault {p : Config.Params} {o : BitOrder} {mem : Memory} {w : Window} {n : Nat} {k : Cursor}
    {e : Raise} (h : countFault n k.cache.fill = some e) : getBits p o n mem w k = .error e := by
  rw [getBits, h]

/-- Settles O37: the count checks refuse in turn, and a legal count fails only at the window's end. -/
theorem getbitsFaults : Obligations.GetbitsFaults := by
  intro n s hf hm
  have refused : ∀ c, countFault n s.cache.fill = some (raiseFault c s.cache.fill) →
      exec (.getbits n) s = .next (faultedBy s (.getbits n) c s.cache.fill) := fun c hc => by
    rw [exec_getbits hf hm, getBits_countFault (k := s.cursor) hc, finishCommand_raiseFault]
  refine ⟨fun hzero => refused _ ?_, fun hcapacity => refused _ ?_, fun hmax hle => refused _ ?_, ?_⟩
  · rw [countFault, if_pos hzero]
  · rw [countFault, if_neg (by omega), if_pos hcapacity]
  · rw [countFault, if_neg (by omega), if_neg (by omega), if_pos hmax]
  · intro h1 hn hs ho k hshort
    obtain ⟨hready, hrange⟩ := hs.cursor_ready hm
    rw [exec_getbits hf hm, getBits_endOfInput hrange hready h1 hn ho hshort, finishCommand_raiseFault]
    rfl

/-! ## Values spelled by bits -/

/-- Values that a bit sequence spells: value after value, each is the next n bits and no more (42_stream_engine.md
R543). -/
inductive Spells (f : Flow) : List Nat → List DWord → List Bool → Prop where
  | nil (bits : List Bool) : Spells f [] [] bits
  | cons {n : Nat} {ns : List Nat} {v : DWord} {vs : List DWord} {bits : List Bool} (small : v.toNat < 2 ^ n)
      (value : valueBits f v n = bits.take n) (rest : Spells f ns vs (bits.drop n)) : Spells f (n :: ns) (v :: vs) bits

section
variable {f : Flow} {ns : List Nat} {vs vs' : List DWord} {bits : List Bool}

/-- Bits spell one list of values at most. -/
theorem Spells.unique (h : Spells f ns vs bits) (h' : Spells f ns vs' bits) : vs = vs' := by
  induction h generalizing vs' with
  | nil bits =>
    cases h'
    rfl
  | cons small value _ ih =>
    cases h' with
    | cons small' value' rest' => rw [valueBits_inj small small' (value.trans value'.symm), ih rest']

/-- The values of a sequence are those of every longer one. -/
theorem Spells.append (h : Spells f ns vs bits) (more : List Bool) : Spells f ns vs (bits ++ more) := by
  induction h with
  | nil bits => exact .nil _
  | @cons n _ _ _ bits small value _ ih =>
    have hlen := congrArg List.length value
    rw [valueBits_length, List.length_take] at hlen
    have hle : n ≤ bits.length := by omega
    refine .cons small ?_ ?_
    · rw [value, List.take_append_of_le_length hle]
    · rw [List.drop_append_of_le_length hle]
      exact ih

end

/-! ## Sequences of GetBits -/

/-- GetBits after GetBits, of an order whose chunks go with its flow, spells the bits of the data bytes in the window
(42_stream_engine.md R512). -/
theorem readAll_spells {p : Config.Params} {o : BitOrder} {m : Memory} {w : Window} (hr : w.inRange p = true)
    (hq : (policy p o).Matched) {ns : List Nat} {k : Cursor} {vs : List Word} (hk : k.Ready p o w)
    (h : readAll p o m w ns k = .ok vs) :
    ∃ data, HoldsAt m (w.base + k.pos) (wireBytes o data) ∧
      Spells (policy p o).flow ns (vs.map (BitVec.setWidth 64))
        (k.cache.queue ++ data.flatMap (byteBits (policy p o).flow)) := by
  induction ns generalizing k vs with
  | nil =>
    cases h
    exact ⟨[], by simp [HoldsAt.nil], .nil _⟩
  | cons n ns ih =>
    simp only [readAll, bind, Except.bind] at h
    split at h
    · cases h
    rename_i x hget
    obtain ⟨v, k'⟩ := x
    split at h
    · cases h
    rename_i vs' hall
    cases h
    obtain ⟨xs, hgets⟩ := getBits_getsBits hr hk hget
    obtain ⟨ys, hholds, hspells⟩ := ih hgets.ready hall
    have hbits := streamBits_eq_flatMap hq ((policy_chunk_le p o).trans (by decide)) hgets.length
    have hle := hgets.le_length
    have hvalue := hgets.value
    have hrest := hgets.rest
    rw [hbits] at hle hvalue hrest
    refine ⟨xs ++ ys, ?_, ?_⟩
    · rw [wireBytes_append, HoldsAt.append_iff, Nat.add_assoc, ← hgets.pos]
      exact ⟨hgets.holds, hholds⟩
    · rw [List.flatMap_append, ← List.append_assoc, List.map_cons]
      refine .cons ?_ ?_ ?_
      · rw [BitVec.toNat_setWidth_of_le (by decide)]
        exact hgets.small
      · rw [hvalue, List.take_append_of_le_length hle]
      · rw [List.drop_append_of_le_length hle, ← hrest]
        exact hspells

/-- Of two bit sequences of data bytes at one address, one begins the other, so both spell the same values. -/
theorem Spells.eq_of_holdsAt {f : Flow} {o : BitOrder} {m : Memory} {a : Nat} {ns : List Nat} {vs vs' : List DWord}
    {xs ys : List Byte} (hx : HoldsAt m a (wireBytes o xs)) (hy : HoldsAt m a (wireBytes o ys))
    (h : Spells f ns vs (xs.flatMap (byteBits f))) (h' : Spells f ns vs' (ys.flatMap (byteBits f))) : vs = vs' := by
  rcases Nat.le_total xs.length ys.length with hle | hle
  · obtain ⟨more, rfl⟩ := wireBytes_begins hx hy hle
    rw [List.flatMap_append] at h'
    exact (h.append _).unique h'
  · obtain ⟨more, rfl⟩ := wireBytes_begins hy hx hle
    rw [List.flatMap_append] at h
    exact h.unique (h'.append _)

/-- A word is determined by its zero extension. -/
theorem setWidth_word_injective : Function.Injective (BitVec.setWidth 64 : Word → DWord) :=
  Function.LeftInverse.injective (g := BitVec.setWidth 32) fun v => by simp

/-- Settles O43: the bits of a chunk are its bytes' bits in flow order, so under both parameter sets the values are
spelled by the bits of the window's bytes, and these do not depend on the chunk width. -/
theorem chunkWidthKeepsValues : Obligations.ChunkWidthKeepsValues := by
  intro p q o ho
  refine ⟨fun bs hlen => chunkBits_eq_flatMap (policy_matched p ho) hlen ((policy_chunk_le p o).trans (by decide)),
    fun m w ns vs vs' hp hq h h' => ?_⟩
  obtain ⟨xs, hx, hspells⟩ := readAll_spells hp (policy_matched p ho) (Cursor.ready_fresh p o w) h
  obtain ⟨ys, hy, hspells'⟩ := readAll_spells hq (policy_matched q ho) (Cursor.ready_fresh q o w) h'
  have hflow : (policy q o).flow = (policy p o).flow := by rw [policy_flow, policy_flow]
  rw [BitCache.empty_queue, List.nil_append] at hspells hspells'
  rw [hflow] at hspells'
  have hmap := Spells.eq_of_holdsAt hx hy hspells hspells'
  exact List.map_injective_iff.2 setWidth_word_injective hmap

end Sys2Proof.Machine
end

section
/-! PROOF. Encode sessions: PUT and FLUSH append to the cache and drain a full word, or end with an I/O error
(42_stream_engine.md R530-R540; 60_exceptions.md R921), and what a session has written so far (R542). -/

namespace Sys2Proof.Machine

/-! ## One drain -/

/-- The window bytes of a drained word (42_stream_engine.md R531; 44_jpeg_stuffing.md R720). -/
abbrev drainedBytes (o : BitOrder) (v : Word) : List Byte := wireBytes o (tableWordBytes o v)

theorem storeWordBytes_eq_drainedBytes (p : Config.Params) (o : BitOrder) (v : Word) :
    storeWordBytes p o v = drainedBytes o v := drainedWordBytes p o v

/-- A drain of the word `v` from a session that holds `bits`: the word's bytes go to the sink, the other bits stay
cached, and no other byte changes (42_stream_engine.md R530). -/
structure DrainsWord (o : BitOrder) (w : Window) (bits : List Bool) (v : Word) (k k' : Sink) : Prop where
  value : wordBits k.cache.flow v = bits.take 32
  fits : k.pos + (drainedBytes o v).length ≤ w.len
  pos : k'.pos = k.pos + (drainedBytes o v).length
  wf : k'.cache.wf
  flow : k'.cache.flow = k.cache.flow
  rest : k'.cache.queue = bits.drop 32
  memWf : Memory.wf k'.mem
  holds : HoldsAt k'.mem (w.base + k.pos) (drainedBytes o v)
  frame : ∀ b, ¬ (w.base + k.pos ≤ b ∧ b < w.base + k.pos + (drainedBytes o v).length) →
    Memory.read k'.mem b = Memory.read k.mem b

/-- How a drain of the word `v` ends: the word goes to the sink, or does not fit and raises IoError (42_stream_engine.md
R532). -/
def DrainEnds (o : BitOrder) (w : Window) (bits : List Bool) (v : Word) (k : Sink) (r : Except Raise Sink) : Prop :=
  (∃ k', r = .ok k' ∧ DrainsWord o w bits v k k') ∨ w.len < k.pos + (drainedBytes o v).length ∧ r = .error .ioError

section
variable {p : Config.Params} {o : BitOrder} {w : Window} {k k' : Sink} {c : BitCache}

/-- A drain that completes with a full cache drains its oldest word. -/
theorem drainIfFull_drainsWord (hk : k.Ready p o w) (hc : c.wf) (hflow : c.flow = k.cache.flow) (hfull : 32 ≤ c.fill)
    (h : drainIfFull p o w { k with cache := c } = .ok k') : ∃ v, DrainsWord o w c.queue v k k' := by
  rcases drainIfFull_ok (k := { k with cache := c }) hc hk.memWf h with
    ⟨hless, -⟩ | ⟨-, hwf, hflow', -, hrest, v, hvalue, hfits, hpos, hmem, -, hread⟩
  · exact absurd hfull (Nat.not_le.2 hless)
  simp only [storeWordBytes_eq_drainedBytes] at hfits hpos hread
  refine ⟨v, by rw [← hflow]; exact hvalue, hfits, hpos, hwf, hflow'.trans hflow, hrest, hmem, fun i hi => ?_,
    fun b hb => ?_⟩
  · rw [hread, dif_pos ⟨by omega, by omega⟩]
    simp only [Nat.add_sub_cancel_left]
  · rw [hread, dif_neg hb]

/-- A drain of a full cache drains the oldest word, or raises IoError where that does not fit (42_stream_engine.md R530,
R532). -/
theorem drainIfFull_ends (hr : w.inRange p = true) (hk : k.Ready p o w) (hc : c.wf) (hflow : c.flow = k.cache.flow)
    (hfull : 32 ≤ c.fill) :
    ∃ v, wordBits k.cache.flow v = c.queue.take 32 ∧
      DrainEnds o w c.queue v k (drainIfFull p o w { k with cache := c }) := by
  cases h : drainIfFull p o w { k with cache := c } with
  | ok k' =>
    obtain ⟨v, hdrains⟩ := drainIfFull_drainsWord hk hc hflow hfull h
    exact ⟨v, hdrains.value, .inl ⟨k', rfl, hdrains⟩⟩
  | error e =>
    obtain ⟨rfl, -, v, hvalue, hlong⟩ := drainIfFull_error (k := { k with cache := c }) hr hk.memWf h
    rw [storeWordBytes_eq_drainedBytes] at hlong
    exact ⟨v, by rw [← hflow]; exact hvalue, .inr ⟨hlong, rfl⟩⟩

/-- A drain with fewer than 32 bits cached does nothing (42_stream_engine.md R530). -/
theorem drainIfFull_of_lt (h : c.fill < 32) :
    drainIfFull p o w { k with cache := c } = .ok { k with cache := c } := if_pos h

/-! ## PutBits and Flush -/

/-- PutBits of a legal count appends the low bits of the value, and then drains (42_stream_engine.md R533, R534). -/
theorem putBits_eq_drain (hk : k.Ready p o w) (v : DWord) {n : Nat} (hn : n ≤ 32) :
    ∃ c : BitCache, c.wf ∧ c.flow = k.cache.flow ∧ c.queue = k.cache.queue ++ valueBits k.cache.flow v n ∧
      putBits p o v n w k = drainIfFull p o w { k with cache := c } := by
  have hfill := hk.fill
  obtain ⟨c, hpush⟩ := k.cache.push_fits (lowBits v 32) (n := n) (by omega)
  obtain ⟨-, hwf, hflow, -, hqueue⟩ := BitCache.push_ok hk.wf hpush
  rw [valueBits_lowBits _ _ hn] at hqueue
  refine ⟨c, hwf, hflow, hqueue, ?_⟩
  rw [putBits, if_neg (Nat.not_lt.2 hn), hpush]
  rfl

/-- PutBits that leaves fewer than 32 bits cached drains nothing (42_stream_engine.md R533). -/
theorem putBits_of_lt (hk : k.Ready p o w) (v : DWord) {n : Nat} (hless : k.cache.fill + n < 32) :
    ∃ c : BitCache, c.wf ∧ c.flow = k.cache.flow ∧ c.queue = k.cache.queue ++ valueBits k.cache.flow v n ∧
      putBits p o v n w k = .ok { k with cache := c } := by
  obtain ⟨c, hc, hflow, hqueue, hput⟩ := putBits_eq_drain hk v (n := n) (by omega)
  have hfill : c.fill = k.cache.fill + n := by simpa using congrArg List.length hqueue
  exact ⟨c, hc, hflow, hqueue, hput.trans (drainIfFull_of_lt (hfill ▸ hless))⟩

/-- PutBits that fills a word drains it, or raises IoError (42_stream_engine.md R532, R533). -/
theorem putBits_ends (hr : w.inRange p = true) (hk : k.Ready p o w) (v : DWord) {n : Nat} (hn : n ≤ 32)
    (hfull : 32 ≤ k.cache.fill + n) :
    ∃ x, wordBits k.cache.flow x = (k.cache.queue ++ valueBits k.cache.flow v n).take 32 ∧
      DrainEnds o w (k.cache.queue ++ valueBits k.cache.flow v n) x k (putBits p o v n w k) := by
  obtain ⟨c, hc, hflow, hqueue, hput⟩ := putBits_eq_drain hk v hn
  have hfill : c.fill = k.cache.fill + n := by simpa using congrArg List.length hqueue
  rw [hput, ← hqueue]
  exact drainIfFull_ends hr hk hc hflow (hfill ▸ hfull)

/-- Zero contributes zero bits. -/
theorem valueBits_zero (f : Flow) (n : Nat) : valueBits f 0 n = List.replicate n false := by
  cases f <;> simp [valueBits, List.map_const']

/-- Flush of a session that holds bits pads them to a word, and then drains (42_stream_engine.md R540). -/
theorem flushBits_eq_drain (hk : k.Ready p o w) (hfill : k.cache.fill ≠ 0) :
    ∃ c : BitCache, c.wf ∧ c.flow = k.cache.flow ∧
      c.queue = k.cache.queue ++ List.replicate (32 - k.cache.fill) false ∧ c.fill = 32 ∧
      flushBits p o w k = drainIfFull p o w { k with cache := c } := by
  have hle := hk.fill
  obtain ⟨c, hpush⟩ := k.cache.push_fits 0 (n := 32 - k.cache.fill) (by omega)
  obtain ⟨-, hwf, hflow, hlen, hqueue⟩ := BitCache.push_ok hk.wf hpush
  rw [valueBits_zero] at hqueue
  refine ⟨c, hwf, hflow, hqueue, by omega, ?_⟩
  rw [flushBits, if_neg hfill, hpush]
  rfl

/-- Flush of a session that holds bits drains the padded word and leaves nothing cached, or raises IoError
(42_stream_engine.md R532, R540). -/
theorem flushBits_ends (hr : w.inRange p = true) (hk : k.Ready p o w) (hfill : k.cache.fill ≠ 0) :
    ∃ v, wordBits k.cache.flow v = k.cache.queue ++ List.replicate (32 - k.cache.fill) false ∧
      DrainEnds o w (k.cache.queue ++ List.replicate (32 - k.cache.fill) false) v k (flushBits p o w k) := by
  obtain ⟨c, hc, hflow, hqueue, hlen, hflush⟩ := flushBits_eq_drain hk hfill
  obtain ⟨v, hvalue, hends⟩ := drainIfFull_ends hr hk hc hflow hlen.ge
  rw [List.take_of_length_le (by rw [BitCache.queue_length, hlen])] at hvalue
  rw [hflush, ← hqueue]
  exact ⟨v, hvalue, hends⟩

/-- A drain of one word's bits leaves nothing cached. -/
theorem DrainsWord.cache_eq_empty {bits : List Bool} {v : Word} (h : DrainsWord o w bits v k k')
    (hlen : bits.length ≤ 32) : k'.cache = BitCache.empty k.cache.flow :=
  BitCache.eq_of_queue h.wf (BitCache.wf_empty _) h.flow (by
    rw [h.rest, BitCache.empty_queue, List.drop_of_length_le hlen])

end

/-! ## PUT and FLUSH -/

section
variable {s : State}

@[simp] theorem State.sink_cache (s : State) : s.sink.cache = s.cache := rfl

/-- A cache put back into an encode session whose sink is unchanged. -/
theorem State.setSink_setCache (s : State) (c : BitCache) : s.setSink { s.sink with cache := c } = s.setCache c := by
  unfold State.setSink State.sink State.setSnkPos
  rw [BitVec.ofNat_toNat, BitVec.setWidth_eq]
  rfl

/-- What a command that drained a word answers (42_stream_engine.md R530). -/
theorem finishCommand_drained {i : Instr} {w : Window} {bits : List Bool} {v : Word} {k : Sink}
    (h : DrainsWord s.order w bits v s.sink k) :
    finishCommand (encode i).word (.ofExcept s (Except.map s.setSink (.ok k))) = .next { s with
      cache := k.cache, snkPos := BitVec.ofNat 32 (s.snkPos.toNat + (drainedBytes s.order v).length), mem := k.mem,
      ioerr := false } := by
  rw [finishCommand_ok, State.setSink, h.pos]
  rfl

end

/-- Settles O39: the pushed bits stay cached below 32 of them; else one drain ends in one of its two ways. -/
theorem putAppendsAndDrains : Obligations.PutAppendsAndDrains := by
  intro n s hs hf hm f bits a
  obtain ⟨hready, hrange⟩ := hs.sink_ready hm
  rw [exec_put hf hm]
  refine ⟨fun hover => ?_, fun hn hless => ?_, fun hn hfull => ?_⟩
  · rw [putBits, if_pos hover, finishCommand_raiseFault]
    rfl
  · obtain ⟨c, hc, hflow, hqueue, hput⟩ := putBits_of_lt hready s.data hless
    rw [hput, finishCommand_ok, State.setSink_setCache]
    exact ⟨c, rfl, hc, hflow, hqueue⟩
  · obtain ⟨v, hvalue, hends⟩ := putBits_ends hrange hready s.data hn hfull
    refine ⟨v, hvalue, ?_⟩
    rcases hends with ⟨k, hput, h⟩ | ⟨hlong, hput⟩
    · rw [hput, finishCommand_drained h]
      exact ⟨fun _ => ⟨_, _, rfl, h.wf, h.flow, h.rest, h.memWf, h.holds, h.frame⟩,
        fun hlong => absurd h.fits (Nat.not_le.2 hlong)⟩
    · rw [hput, finishCommand_ioError]
      exact ⟨fun hfits => absurd hfits (Nat.not_le.2 hlong), fun _ => rfl⟩

/-- Settles O40: without cached bits nothing is pushed or drained; else the padded word's drain ends in one of its two
ways, and leaves nothing cached. -/
theorem flushPadsAndDrains : Obligations.FlushPadsAndDrains := by
  intro s hs hf hm a
  obtain ⟨hready, hrange⟩ := hs.sink_ready hm
  rw [exec_flush hf hm]
  refine ⟨fun hempty => ?_, fun hfill => ?_⟩
  · rw [flushBits, State.sink_cache, if_pos hempty, finishCommand_ok]
    exact congrArg (fun t => Host.Outcome.next (t.setIoerr false)) (s.setSink_setCache s.cache)
  · obtain ⟨v, hvalue, hends⟩ := flushBits_ends hrange hready hfill
    have hword := (congrArg List.length hvalue).ge.trans (wordBits_length _ v).le
    refine ⟨v, hvalue, ?_⟩
    rcases hends with ⟨k, hflush, h⟩ | ⟨hlong, hflush⟩
    · rw [hflush, finishCommand_drained h, h.cache_eq_empty hword]
      exact ⟨fun _ => ⟨_, rfl, h.memWf, h.holds, h.frame⟩, fun hlong => absurd h.fits (Nat.not_le.2 hlong)⟩
    · rw [hflush, finishCommand_ioError]
      exact ⟨fun hfits => absurd hfits (Nat.not_le.2 hlong), fun _ => rfl⟩

/-! ## What a session has written -/

/-- The state of an encode session that has taken in `bits` and drained `words`: the words and the cache hold the bits,
and the words' bytes stand at the start of the window, up to the position (42_stream_engine.md R542). -/
structure Written (p : Config.Params) (o : BitOrder) (w : Window) (words : List Word) (bits : List Bool) (k : Sink) :
    Prop where
  bits : words.flatMap (wordBits (policy p o).flow) ++ k.cache.queue = bits
  pos : k.pos = (wireBytes o (words.flatMap (tableWordBytes o))).length
  holds : HoldsAt k.mem w.base (wireBytes o (words.flatMap (tableWordBytes o)))

/-- Bytes that no write touches stand where they stood. -/
theorem HoldsAt.of_unchanged {m m' : Memory} {a : Nat} {bs : List Byte} (h : HoldsAt m a bs)
    (hsame : ∀ b < a + bs.length, Memory.read m' b = Memory.read m b) : HoldsAt m' a bs :=
  fun i hi => (hsame (a + i) (Nat.add_lt_add_left hi a)).trans (h i hi)

section
variable {p : Config.Params} {o : BitOrder} {w : Window} {words : List Word} {bits new : List Bool} {k k' : Sink}
  {c : BitCache}

theorem Written.cached (hw : Written p o w words bits k) (hqueue : c.queue = k.cache.queue ++ new) :
    Written p o w words (bits ++ new) { k with cache := c } where
  bits := by rw [hqueue, ← List.append_assoc, hw.bits]
  pos := hw.pos
  holds := hw.holds

theorem Written.drained {v : Word} (hw : Written p o w words bits k) (hflow : k.cache.flow = (policy p o).flow)
    (h : DrainsWord o w (k.cache.queue ++ new) v k k') : Written p o w (words ++ [v]) (bits ++ new) k' := by
  have hwire : wireBytes o ((words ++ [v]).flatMap (tableWordBytes o)) =
      wireBytes o (words.flatMap (tableWordBytes o)) ++ drainedBytes o v := by
    rw [List.flatMap_append, List.flatMap_singleton, wireBytes_append]
  refine ⟨?_, ?_, ?_⟩
  · rw [List.flatMap_append, List.flatMap_singleton, ← hflow, h.value, h.rest, List.append_assoc, List.take_append_drop,
      ← List.append_assoc, hflow, hw.bits]
  · rw [hwire, List.length_append, h.pos, hw.pos]
  · rw [hwire, HoldsAt.append_iff, ← hw.pos]
    refine ⟨hw.holds.of_unchanged fun b hb => h.frame b ?_, h.holds⟩
    rw [← hw.pos] at hb
    omega

/-- A session that pushed bits and then drained has taken them in. -/
theorem Written.after_drain (hw : Written p o w words bits k) (hk : k.Ready p o w) (hc : c.wf)
    (hflow : c.flow = k.cache.flow) (hqueue : c.queue = k.cache.queue ++ new)
    (h : drainIfFull p o w { k with cache := c } = .ok k') : ∃ words', Written p o w words' (bits ++ new) k' := by
  by_cases hless : c.fill < 32
  · rw [drainIfFull_of_lt hless] at h
    cases h
    exact ⟨words, hw.cached hqueue⟩
  · obtain ⟨v, hdrains⟩ := drainIfFull_drainsWord hk hc hflow (Nat.not_lt.1 hless) h
    rw [hqueue] at hdrains
    exact ⟨words ++ [v], hw.drained hk.flow hdrains⟩

/-- PutBits takes in the low bits of its value (42_stream_engine.md R533). -/
theorem Written.after_putBits {v : DWord} {n : Nat} (hw : Written p o w words bits k) (hk : k.Ready p o w) (hn : n ≤ 32)
    (h : putBits p o v n w k = .ok k') :
    ∃ words', Written p o w words' (bits ++ valueBits (policy p o).flow v n) k' := by
  obtain ⟨c, hc, hflow, hqueue, hput⟩ := putBits_eq_drain hk v hn
  rw [hput] at h
  rw [← hk.flow]
  exact hw.after_drain hk hc hflow hqueue h

/-- Flush takes in fewer than 32 zero bits and leaves nothing cached (42_stream_engine.md R540). -/
theorem Written.after_flushBits (hw : Written p o w words bits k) (hk : k.Ready p o w)
    (h : flushBits p o w k = .ok k') :
    k'.cache.fill = 0 ∧ ∃ pad < 32, ∃ words', Written p o w words' (bits ++ List.replicate pad false) k' := by
  by_cases hfill : k.cache.fill = 0
  · rw [flushBits, if_pos hfill] at h
    cases h
    exact ⟨hfill, 0, by decide, words, by rwa [List.replicate_zero, List.append_nil]⟩
  · have hle := hk.fill
    obtain ⟨c, hc, hflow, hqueue, hlen, hflush⟩ := flushBits_eq_drain hk hfill
    rw [hflush] at h
    obtain ⟨v, hdrains⟩ := drainIfFull_drainsWord hk hc hflow hlen.ge h
    have hempty := hdrains.cache_eq_empty (by rw [BitCache.queue_length, hlen])
    exact ⟨by rw [hempty, BitCache.empty_fill], 32 - k.cache.fill, by omega, hw.after_drain hk hc hflow hqueue h⟩

end

end Sys2Proof.Machine
end

section
/-! PROOF. An encode session's output, and the decode session over it (42_stream_engine.md R542, R543;
44_jpeg_stuffing.md R730). -/

namespace Sys2Proof.Machine

/-! ## Runs of instructions -/

/-- The values of a list of puts, bit after bit (42_stream_engine.md R543). -/
def putsBits (f : Flow) (vs : List (DWord × Nat)) : List Bool := vs.flatMap fun v => valueBits f v.1 v.2

theorem putsBits_length (f : Flow) (vs : List (DWord × Nat)) : (putsBits f vs).length = (vs.map Prod.snd).sum := by
  simp [putsBits, List.length_flatMap]

/-- The low bits of the values put are what their bits spell (42_stream_engine.md R543). -/
theorem spells_putsBits (f : Flow) (vs : List (DWord × Nat)) :
    Spells f (vs.map Prod.snd) (vs.map fun v => BitVec.ofNat 64 (v.1.toNat % 2 ^ v.2)) (putsBits f vs) := by
  induction vs with
  | nil => exact .nil _
  | cons v vs ih =>
    have htake : (putsBits f (v :: vs)).take v.2 = valueBits f v.1 v.2 :=
      List.take_left' (valueBits_length f v.1 v.2)
    have hdrop : (putsBits f (v :: vs)).drop v.2 = putsBits f vs := List.drop_left' (valueBits_length f v.1 v.2)
    simp only [List.map_cons, ← lowBits_eq_ofNat] at ih ⊢
    refine .cons ?_ ?_ (hdrop ▸ ih)
    · rw [lowBits_toNat]
      exact Nat.mod_lt _ (Nat.two_pow_pos _)
    · rw [valueBits_lowBits f v.1 (Nat.le_refl _), htake]

section
variable {i : Instr} {is : List Instr} {s t u : State}

/-- A clean run takes one clean instruction after the other. -/
theorem runClean_cons (h : runClean (i :: is) s = some t) :
    ∃ u, exec i s = .next u ∧ u.faulted = false ∧ u.ioerr = false ∧ runClean is u = some t := by
  rw [runClean] at h
  split at h
  · split at h
    · cases h
    · rename_i hexec hclean
      rw [Bool.or_eq_true, not_or, Bool.not_eq_true, Bool.not_eq_true] at hclean
      exact ⟨_, hexec, hclean.1, hclean.2, h⟩
  · cases h
  · cases h

theorem runClean_cons_of_next (h : exec i s = .next u) (hf : u.faulted = false) (hio : u.ioerr = false) :
    runClean (i :: is) s = runClean is u := by
  rw [runClean, h]
  simp [hf, hio]

/-- A command that ends without a fault or an I/O error has completed (45_control.md R813). -/
theorem finishCommand_clean {α : Type} {x : Except Raise α} {f : α → State}
    (h : finishCommand (encode i).word (.ofExcept s (x.map f)) = .next t) (hf : t.faulted = false)
    (hio : t.ioerr = false) : ∃ a, x = .ok a ∧ t = (f a).setIoerr false := by
  cases x with
  | ok a =>
    cases h
    exact ⟨a, rfl, rfl⟩
  | error e =>
    cases e with
    | fault g =>
      cases h
      cases hf
    | ioError =>
      cases h
      cases hio
    | stop r => cases h

/-- A write to a register other than CMD, while FAULTED = 0 (45_control.md R812). -/
theorem exec_regwr_ready {idx : BitVec 8} {r : Reg} (hf : s.faulted = false) (hidx : Reg.ofIndex idx = some r)
    (hcmd : r ≠ .cmd) (v : DWord) : exec (.regwr idx v) s = .next (writeReg s r v) := by
  rw [exec, execRegwr, if_neg (by simp [hf]), hidx]
  cases r with
  | cmd => exact absurd rfl hcmd
  | _ => rfl

/-- A write to a CFG register while no session is open (10_state.md R119; 45_control.md R812). -/
theorem exec_regwr_config {idx : BitVec 8} {r : Reg} (hf : s.faulted = false) (hm : s.mode = .idle)
    (hidx : Reg.ofIndex idx = some r) (hr : r.access = .config) (x : Word) :
    exec (.regwr idx (x.setWidth 64)) s = .next (s.setCfg (s.cfg.write x r)) := by
  have hcmd : r ≠ .cmd := by
    rintro rfl
    cases hr
  rw [exec_regwr_ready hf hidx hcmd, writeReg, hr]
  simp [hm]

/-- END closes an encode session that holds no bits (45_control.md R801). -/
theorem exec_endSession_enc (hf : s.faulted = false) (hm : s.mode = .enc) (hempty : s.cache.fill = 0) :
    exec .endSession s = .next (s.closeSession.setIoerr false) := by
  have hbody : endBody s = .completes s.closeSession := by simp [endBody, hm, hempty]
  unfold exec execEndSession
  rw [runCommand_ready hf, hbody]
  rfl

end

/-! ## The encode session -/

/-- An encode session that has taken in `bits`, over the sink window of `g` (42_stream_engine.md R542). -/
structure State.Encoding (o : BitOrder) (g : CfgRegs) (bits : List Bool) (s : State) : Prop where
  inv : s.Inv
  ready : s.faulted = false
  mode : s.mode = .enc
  order : s.order = o
  cfg : s.cfg = g
  written : ∃ words, Written Config.rsbc o (snkWindow g) words bits s.sink

section
variable {o : BitOrder} {g : CfgRegs} {bits : List Bool} {s t : State}

theorem State.Encoding.sink_ready (hs : s.Encoding o g bits) : s.sink.Ready Config.rsbc o (snkWindow g) := by
  obtain ⟨hinv, -, hm, rfl, rfl, -⟩ := hs
  exact (hinv.sink_ready hm).1

/-- A sink put back into the session, with more bits taken in. -/
theorem State.Encoding.setSink {k : Sink} {bits' : List Bool} (hs : s.Encoding o g bits)
    (hk : k.Ready Config.rsbc o (snkWindow g)) (hw : ∃ words, Written Config.rsbc o (snkWindow g) words bits' k) :
    ((s.setSink k).setIoerr false).Encoding o g bits' := by
  obtain ⟨hinv, hf, hm, rfl, rfl, -⟩ := hs
  refine ⟨hinv.setSink hm hk, hf, hm, rfl, rfl, ?_⟩
  change ∃ words, Written _ _ _ words bits' (s.setSink k).sink
  rwa [State.setSink_sink hk]

/-- ESTART that completes opens a session that has taken in nothing (42_stream_engine.md R501). -/
theorem State.Encoding.of_estart (hs : s.Inv) (hf : s.faulted = false) (hm : s.mode = .idle)
    (h : exec (.estart o) s = .next t) (ht : t.faulted = false) : t.Encoding o s.cfg [] := by
  have hinv := exec_keeps_inv hs h
  rw [estartOpensEncodeSession o s hf hm, ← policy_flow Config.rsbc o] at h
  split_ifs at h
  · cases h
    cases ht
  · cases h
    exact ⟨hinv, hf, rfl, rfl, rfl, [], BitCache.empty_queue _, by simp [State.sink], by simp [HoldsAt.nil]⟩

/-- PUT that completes takes in the low bits of DATA (42_stream_engine.md R535). -/
theorem State.Encoding.put {n : Nat} (hs : s.Encoding o g bits) (hn : n ≤ 32) (h : exec (.put n) s = .next t)
    (ht : t.faulted = false) (hio : t.ioerr = false) :
    t.Encoding o g (bits ++ valueBits (policy Config.rsbc o).flow s.data n) := by
  obtain ⟨words, hw⟩ := hs.written
  have hk := hs.sink_ready
  rw [exec_put hs.ready hs.mode, hs.order, hs.cfg] at h
  obtain ⟨k, hput, rfl⟩ := finishCommand_clean h ht hio
  exact hs.setSink (putBits_keeps_ready hk hput) (hw.after_putBits hk hn hput)

/-- FLUSH that completes takes in fewer than 32 zero bits and leaves nothing cached (42_stream_engine.md R540). -/
theorem State.Encoding.flush (hs : s.Encoding o g bits) (h : exec .flush s = .next t) (ht : t.faulted = false)
    (hio : t.ioerr = false) :
    t.cache.fill = 0 ∧ ∃ pad < 32, t.Encoding o g (bits ++ List.replicate pad false) := by
  obtain ⟨words, hw⟩ := hs.written
  have hk := hs.sink_ready
  rw [exec_flush hs.ready hs.mode, hs.order, hs.cfg] at h
  obtain ⟨k, hflush, rfl⟩ := finishCommand_clean h ht hio
  obtain ⟨hempty, pad, hpad, hw'⟩ := hw.after_flushBits hk hflush
  exact ⟨hempty, pad, hpad, hs.setSink (flushBits_keeps_ready hk hflush) hw'⟩

/-- A write to DATA leaves the session as it is (10_state.md R104). -/
theorem State.Encoding.setData (hs : s.Encoding o g bits) (v : DWord) : (s.setData v).Encoding o g bits :=
  ⟨hs.inv, hs.ready, hs.mode, hs.order, hs.cfg, hs.written⟩

/-- Puts take in their values, one after the other (42_stream_engine.md R543). -/
theorem State.Encoding.puts {vs : List (DWord × Nat)} (hvs : ∀ v ∈ vs, v.2 ≤ 32) {rest : List Instr}
    (hs : s.Encoding o g bits) (h : runClean (putProgram vs ++ rest) s = some t) :
    ∃ u, u.Encoding o g (bits ++ putsBits (policy Config.rsbc o).flow vs) ∧ runClean rest u = some t := by
  induction vs generalizing s bits with
  | nil => exact ⟨s, by rwa [putsBits, List.flatMap_nil, List.append_nil], h⟩
  | cons v vs ih =>
    have hprogram : putProgram (v :: vs) ++ rest = .regwr 0x02 v.1 :: .put v.2 :: (putProgram vs ++ rest) := rfl
    rw [hprogram] at h
    obtain ⟨s₁, hdata, -, -, hrun⟩ := runClean_cons h
    rw [exec_regwr_ready hs.ready (r := .data) rfl (by decide)] at hdata
    cases hdata
    obtain ⟨s₂, hput, hf, hio, hrun⟩ := runClean_cons hrun
    have hs₂ := (hs.setData v.1).put (hvs v List.mem_cons_self) hput hf hio
    obtain ⟨u, hu, hend⟩ := ih (fun v' hv' => hvs v' (List.mem_cons_of_mem v hv')) hs₂ hrun
    rw [List.append_assoc] at hu
    exact ⟨u, hu, hend⟩

end

/-! ## The closed session's output -/

/-- The block after an encode session that drained `words` is closed: their bytes stand at the start of the sink window,
and SNK_POS counts them (42_stream_engine.md R542). -/
structure State.HoldsOutput (o : BitOrder) (words : List Word) (s : State) : Prop where
  inv : s.Inv
  ready : s.faulted = false
  noIoerr : s.ioerr = false
  mode : s.mode = .idle
  inRange : (snkWindow s.cfg).inRange Config.rsbc = true
  inside : s.snkPos.toNat ≤ s.cfg.snkCap.toNat
  pos : s.snkPos.toNat = (wireBytes o (words.flatMap (tableWordBytes o))).length
  holds : HoldsAt s.mem s.cfg.snkBase.toNat (wireBytes o (words.flatMap (tableWordBytes o)))

/-- END after FLUSH leaves the drained words' bytes (45_control.md R801). -/
theorem State.Encoding.close {o : BitOrder} {g : CfgRegs} {bits : List Bool} {s t : State} (hs : s.Encoding o g bits)
    (hempty : s.cache.fill = 0) (h : exec .endSession s = .next t) :
    t.cfg = g ∧ ∃ words, t.HoldsOutput o words ∧ words.flatMap (wordBits (policy Config.rsbc o).flow) = bits := by
  have hinv := exec_keeps_inv hs.inv h
  obtain ⟨hready, hrange⟩ := hs.inv.sink_ready hs.mode
  rw [exec_endSession_enc hs.ready hs.mode hempty] at h
  cases h
  obtain ⟨-, hf, -, rfl, rfl, words, hbits, hpos, hholds⟩ := hs
  have hqueue : s.cache.queue = [] := List.length_eq_zero_iff.1 ((BitCache.queue_length _).trans hempty)
  refine ⟨rfl, words, ⟨hinv, hf, rfl, rfl, hrange, hready.inside, hpos, hholds⟩, ?_⟩
  rw [← hbits, State.sink_cache, hqueue, List.append_nil]

/-- A clean encode session leaves its puts' bits, padded with fewer than 32 zero bits (42_stream_engine.md R542). -/
theorem encodeSession_holdsOutput {o : BitOrder} {vs : List (DWord × Nat)} (hvs : ∀ v ∈ vs, v.2 ≤ 32) {s t : State}
    (hs : s.Inv) (hf : s.faulted = false) (hm : s.mode = .idle)
    (h : runClean (.estart o :: (putProgram vs ++ [.flush, .endSession])) s = some t) :
    t.cfg = s.cfg ∧ ∃ pad < 32, ∃ words, t.HoldsOutput o words ∧
      words.flatMap (wordBits (policy Config.rsbc o).flow) =
        putsBits (policy Config.rsbc o).flow vs ++ List.replicate pad false := by
  obtain ⟨s₁, hstart, hf₁, -, h⟩ := runClean_cons h
  obtain ⟨s₂, hs₂, h⟩ := (State.Encoding.of_estart hs hf hm hstart hf₁).puts hvs h
  obtain ⟨s₃, hflush, hf₃, hio₃, h⟩ := runClean_cons h
  obtain ⟨hempty, pad, hpad, hs₃⟩ := hs₂.flush hflush hf₃ hio₃
  obtain ⟨s₄, hend, -, -, h⟩ := runClean_cons h
  cases h
  obtain ⟨hcfg, words, hout, hbits⟩ := hs₃.close hempty hend
  exact ⟨hcfg, pad, hpad, words, hout, hbits⟩

/-! ## The decode session -/

/-- A decode session of the machine whose cache and rest of the window hold `bits` (42_stream_engine.md R543). -/
structure State.Supplies (o : BitOrder) (bits : List Bool) (s : State) : Prop where
  inv : s.Inv
  ready : s.faulted = false
  mode : s.mode = .dec
  order : s.order = o
  supplies : s.cursor.Supplies Config.rsbc o s.mem (srcWindow s.cfg) bits

/-- GETBITS of bits that the session holds returns them and leaves the others (42_stream_engine.md R520). -/
theorem State.Supplies.getbits {o : BitOrder} {bits : List Bool} {s : State} {n : Nat} (hs : s.Supplies o bits)
    (h1 : 1 ≤ n) (hn : n ≤ 32) (hle : n ≤ bits.length) :
    ∃ t, exec (.getbits n) s = .next t ∧ t.Supplies o (bits.drop n) ∧
      valueBits (policy Config.rsbc o).flow t.result n = bits.take n ∧ t.result.toNat < 2 ^ n := by
  obtain ⟨hinv, hf, hm, rfl, hsupplies⟩ := hs
  obtain ⟨-, hrange⟩ := hinv.cursor_ready hm
  obtain ⟨v, k, hget, hrest, hvalue, hsmall⟩ := hsupplies.getBits hrange h1 hn hle
  have hexec := exec_getbits hf hm n
  rw [hget, finishCommand_ok] at hexec
  refine ⟨_, hexec, ⟨exec_keeps_inv hinv hexec, hf, hm, rfl, ?_⟩, hvalue, ?_⟩
  · exact (State.setSrcPos_cursor (s := s) hrest.ready).symm ▸ hrest
  · exact (BitVec.toNat_setWidth_of_le (by decide)).trans_lt hsmall

/-- GETBITS after GETBITS returns the values that the session's bits spell (42_stream_engine.md R543). -/
theorem State.Supplies.readBack_spells {o : BitOrder} {ns : List Nat} (hns : ∀ n ∈ ns, 1 ≤ n ∧ n ≤ 32)
    {bits : List Bool} {s : State} (hs : s.Supplies o bits) (hle : ns.sum ≤ bits.length) :
    ∃ vs, readBack ns s = some vs ∧ Spells (policy Config.rsbc o).flow ns vs bits := by
  induction ns generalizing s bits with
  | nil => exact ⟨[], rfl, .nil bits⟩
  | cons n ns ih =>
    rw [List.sum_cons] at hle
    obtain ⟨h1, hn⟩ := hns n List.mem_cons_self
    obtain ⟨t, hexec, ht, hvalue, hsmall⟩ := hs.getbits h1 hn (by omega)
    obtain ⟨vs, hread, hspells⟩ := ih (fun n' hn' => hns n' (List.mem_cons_of_mem n hn')) ht
      (by rw [List.length_drop]; omega)
    exact ⟨t.result :: vs, by simp [readBack, hexec, ht.ready, hread], .cons hsmall hvalue hspells⟩

/-- The block with its source window set to what an encode session wrote (42_stream_engine.md R543). -/
def State.sourceOverSink (s : State) : State := s.setCfg ((s.cfg.write s.cfg.snkBase .srcBase).write s.snkPos .srcLen)

/-- Two writes set the source window while no session is open (45_control.md R812). -/
theorem runClean_sourceOverSink {t : State} (hf : t.faulted = false) (hio : t.ioerr = false) (hm : t.mode = .idle)
    (is : List Instr) :
    runClean (.regwr 0x08 (t.cfg.snkBase.setWidth 64) :: .regwr 0x09 (t.snkPos.setWidth 64) :: is) t =
      runClean is t.sourceOverSink := by
  have hbase := exec_regwr_config hf hm (idx := 0x08) (r := .srcBase) rfl rfl t.cfg.snkBase
  have hlen := exec_regwr_config (s := t.setCfg (t.cfg.write t.cfg.snkBase .srcBase)) hf hm (idx := 0x09) (r := .srcLen)
    rfl rfl t.snkPos
  rw [runClean_cons_of_next hbase hf hio, runClean_cons_of_next hlen hf hio]
  rfl

/-- A decode session opened over the output of an encode session holds the bits of its words (42_stream_engine.md
R543). -/
theorem State.HoldsOutput.supplies {o : BitOrder} {words : List Word} {t : State} (ht : t.HoldsOutput o words) :
    ∃ u, runClean [.dstart o] t.sourceOverSink = some u ∧
      u.Supplies o (words.flatMap (wordBits (policy Config.rsbc o).flow)) := by
  have hinRange : ¬ (t.snkPos.toNat ≠ 0 ∧ 2 ^ 32 < t.cfg.snkBase.toNat + t.snkPos.toNat) := by
    have hinside := ht.inside
    have hrange := Window.inRange_iff.1 ht.inRange
    simp only [snkWindow, Config.rsbc] at hrange
    omega
  have hstart := dstartOpensDecodeSession o t.sourceOverSink ht.ready ht.mode
  rw [← policy_flow Config.rsbc o] at hstart
  have hopen := hstart.trans (congrArg Host.Outcome.next (if_neg hinRange))
  exact ⟨_, runClean_cons_of_next hopen ht.ready rfl, exec_keeps_inv (ht.inv.setCfg ht.mode _) hopen, ht.ready, rfl,
    rfl, Cursor.supplies_words ht.pos.ge ht.holds⟩

/-- Settles O44: the session's words hold the bits put and fewer than 32 zero bits, a decode session over their bytes
holds the same bits, and these spell the low bits of the values. -/
theorem streamRoundTrip : Obligations.StreamRoundTrip := by
  intro o vs s t hs hf hm hvs hrun
  obtain ⟨hcfg, pad, hpad, words, hout, hbits⟩ := encodeSession_holdsOutput (fun v hv => (hvs v hv).2) hs hf hm hrun
  have hlength : 32 * words.length = (vs.map Prod.snd).sum + pad := by
    rw [← flatMap_wordBits_length (policy Config.rsbc o).flow, hbits, List.length_append, putsBits_length,
      List.length_replicate]
  refine ⟨words.flatMap (tableWordBytes o), ?_, hout.pos, hcfg ▸ hout.holds, ?_⟩
  · rw [flatMap_tableWordBytes_length]
    omega
  · obtain ⟨u, hopen, hsupplies⟩ := hout.supplies
    rw [hbits] at hsupplies
    have hcounts : ∀ n ∈ vs.map Prod.snd, 1 ≤ n ∧ n ≤ 32 := fun n hn => by
      obtain ⟨v, hv, rfl⟩ := List.mem_map.1 hn
      exact hvs v hv
    obtain ⟨rs, hread, hspells⟩ := hsupplies.readBack_spells hcounts (by
      rw [List.length_append, putsBits_length]
      omega)
    refine ⟨u, (runClean_sourceOverSink hout.ready hout.noIoerr hout.mode _).trans hopen, ?_⟩
    rw [hread, hspells.unique ((spells_putsBits _ vs).append _)]

end Sys2Proof.Machine
end

section
/-! PROOF. The configuration checks of UNPACK and PACK (43_packed_codec.md R604): the first that fails, and what is true
where none does. -/

namespace Sys2Proof.Machine

/-! ## Windows -/

/-- A window that is not in range passes the end of MEM (20_memory.md R233). -/
theorem Window.not_inRange_iff (w : Window) : (!w.inRange Config.rsbc) = true ↔ passesEnd w.base w.len := by
  rw [Bool.not_eq_true', Bool.eq_false_iff, Ne, Window.inRange_iff, not_or, Nat.not_le]
  rfl

/-- Windows that overlap share an address (43_packed_codec.md R604). -/
theorem Window.overlaps_iff (v w : Window) : v.overlaps w = true ↔ shareAddress v.base v.len w.base w.len := by
  simp only [Window.overlaps, Bool.and_eq_true, decide_eq_true_eq, and_assoc]

/-- Of two windows that do not overlap, neither has an address of the other (43_packed_codec.md R604). -/
theorem Window.not_mem_of_not_overlaps {v w : Window} (h : v.overlaps w = false) {a : Nat} (hv : v.base ≤ a)
    (hv' : a < v.base + v.len) : ¬ (w.base ≤ a ∧ a < w.base + w.len) := by
  rw [Bool.eq_false_iff, Ne, Window.overlaps_iff] at h
  omega

/-! ## The first check that fails -/

/-- The fault of a table of checks is that of its first row, if it fails, and else that of the rows after it. -/
theorem find_failed_cons (b : Bool) (c : Cause) (sub : Nat) (ks : List (Bool × Cause × Nat)) :
    (((b, c, sub) :: ks).find? fun k => k.1).map (fun k => (⟨k.2.1, k.2.2, 0, 0⟩ : FaultRecord)) =
      if b = true then some ⟨c, sub, 0, 0⟩ else (ks.find? fun k => k.1).map fun k => ⟨k.2.1, k.2.2, 0, 0⟩ := by
  cases b <;> rfl

/-- The table of checks gives the fault that the chain of R604 gives. -/
theorem codecFault_eq_refusal (op : CodecOp) (o : BitOrder) (ety : ElemType) (cnt : Nat) (g : CfgRegs) :
    codecFault Config.rsbc op o ety cnt g =
      (codecRefusal (decide (op = .pack)) o (elemSize ety) cnt g).map fun c => ⟨c.1, c.2, 0, 0⟩ := by
  have hrange : ∀ w : Window, (!w.inRange Config.rsbc) = decide (passesEnd w.base w.len) := fun w =>
    Bool.eq_iff_iff.2 ((Window.not_inRange_iff w).trans decide_eq_true_iff.symm)
  have hoverlap : ∀ v w : Window, v.overlaps w = decide (shareAddress v.base v.len w.base w.len) := fun v w =>
    Bool.eq_iff_iff.2 ((Window.overlaps_iff v w).trans decide_eq_true_iff.symm)
  unfold codecFault codecChecks codecRefusal
  simp only [find_failed_cons, hrange, hoverlap, Bool.and_eq_true, decide_eq_true_eq, apply_ite (Option.map _),
    Option.map_some, Option.map_none]
  cases op with
  | unpack => simp [pixelWidth, packedRegion, pixelRegion]
  | pack => simp [pixelWidth, snkWindow, pixelRegion, padRegion]

/-- A command whose first failing check is known raises its fault (43_packed_codec.md R604). -/
theorem codecFault_of_refusal {op : CodecOp} {o : BitOrder} {ety : ElemType} {cnt : Nat} {g : CfgRegs} {c : Cause}
    {sub : Nat} (h : codecRefusal (decide (op = .pack)) o (elemSize ety) cnt g = some (c, sub)) :
    codecFault Config.rsbc op o ety cnt g = some ⟨c, sub, 0, 0⟩ := by
  rw [codecFault_eq_refusal, h]
  rfl

/-- A command whose checks all pass raises none of their faults (43_packed_codec.md R604). -/
theorem codecFault_none_of_refusal {op : CodecOp} {o : BitOrder} {ety : ElemType} {cnt : Nat} {g : CfgRegs}
    (h : codecRefusal (decide (op = .pack)) o (elemSize ety) cnt g = none) :
    codecFault Config.rsbc op o ety cnt g = none := by
  rw [codecFault_eq_refusal, h]
  rfl

/-- Settles O45: both commands raise the fault of the table of checks before their row loop. -/
theorem codecChecksRefuse : Obligations.CodecChecksRefuse := by
  intro o ety cnt s c sub hf hm
  refine ⟨fun h => (runCommand_body hf hm rfl).trans ?_, fun h => (runCommand_body hf hm rfl).trans ?_⟩
  · rw [codecFault_of_refusal (op := .unpack) h, finishCommand, faultEntry_eq_faultedBy]
  · rw [codecFault_of_refusal (op := .pack) h, finishCommand, faultEntry_eq_faultedBy]

end Sys2Proof.Machine
end

section
/-! PROOF. UNPACK (43_packed_codec.md R610): packed rows that hold their pixels' bits fill the pixel rectangle with them
(R612), and shorter ones fault at the first pixel that is not held (R611, R620). -/

namespace Sys2Proof.Machine

/-! ## What the checks leave true -/

/-- What the checks of UNPACK leave true, as its row loop uses it (43_packed_codec.md R604). -/
structure UnpackChecked (o : BitOrder) (ety : ElemType) (w : Nat) (g : CfgRegs) : Prop where
  order : o ≠ .jpeg
  widthPos : 1 ≤ w
  width : w ≤ 32
  inElement : w ≤ 8 * elemSize ety
  pitch : g.dimCols.toNat ≤ g.pixPitch.toNat
  packed : (packedRegion g).inRange Config.rsbc = true
  pixels : (pixelRegion g ety).inRange Config.rsbc = true
  apart : (packedRegion g).overlaps (pixelRegion g ety) = false

theorem unpackChecked_of_refusal {o : BitOrder} {ety : ElemType} {cnt : Nat} {g : CfgRegs}
    (h : codecRefusal false o (elemSize ety) cnt g = none) : UnpackChecked o ety (pixelWidth ety cnt) g := by
  obtain ⟨ho, hpos, hwidth, helement, hpitch, -, -, hpacked, hpixels, hapart⟩ :=
    codecFault_unpack_none (codecFault_none_of_refusal (op := .unpack) h)
  exact ⟨ho, hpos, hwidth, helement, hpitch, hpacked, hpixels, hapart⟩

/-- UNPACK whose checks pass ends as its row loop does (43_packed_codec.md R610). -/
theorem exec_unpack {o : BitOrder} {ety : ElemType} {cnt : Nat} {s : State} (hf : s.faulted = false)
    (hm : s.mode = .idle) (h : codecRefusal false o (elemSize ety) cnt s.cfg = none) :
    exec (.unpack o ety cnt) s = finishCommand (encode (.unpack o ety cnt)).word
      (unpackEnd ety s (unpackRows Config.rsbc o ety (pixelWidth ety cnt) s.cfg s.mem)) := by
  refine (runCommand_body hf hm rfl).trans ?_
  rw [codecFault_none_of_refusal (op := .unpack) h]

/-! ## Elements -/

section
variable {o : BitOrder} {ety : ElemType} {w : Nat} {g : CfgRegs} {m m' m₀ : Memory} {r c : Nat}

/-- A byte of an element lies at its address, in the rectangle (43_packed_codec.md R612). -/
theorem outsideRectangle_iff {a : Nat} :
    OutsideRectangle g (elemSize ety) a ↔
      ∀ r < g.dimRows.toNat, ∀ c < g.dimCols.toNat, ∀ i < elemSize ety, a ≠ pixelAddr g ety r c + i := Iff.rfl

/-- An element none of whose bytes changed has its value (20_memory.md R221). -/
theorem elementAt_congr
    (h : ∀ i < elemSize ety, Memory.read m' (pixelAddr g ety r c + i) = Memory.read m (pixelAddr g ety r c + i)) :
    elementAt m' g (elemSize ety) r c = elementAt m g (elemSize ety) r c :=
  congrArg bytesValue (List.map_congr_left fun i hi => h i (List.mem_range.1 hi))

/-- A written element has the written value, and every byte outside it is as before (20_memory.md R221). -/
theorem pixWrite_elementAt (hwf : Memory.wf m) {v : Word} (hv : v.toNat < 2 ^ (8 * elemSize ety))
    (haddr : pixelAddr g ety r c + elemSize ety ≤ Config.rsbc.memSize)
    (h : pixWrite Config.rsbc g ety m r c v = .ok m') :
    elementAt m' g (elemSize ety) r c = v.toNat ∧
      ∀ b, ¬ (pixelAddr g ety r c ≤ b ∧ b < pixelAddr g ety r c + elemSize ety) →
        Memory.read m' b = Memory.read m b := by
  obtain ⟨m₁, hwrite, hholds, hframe⟩ := pixWrite_holdsAt hwf v haddr
  obtain rfl : m' = m₁ := Except.ok.inj (h.symm.trans hwrite)
  refine ⟨?_, hframe⟩
  have hbytes := hholds.map_read
  rw [splitChunk_length] at hbytes
  have hvalue : bytesValue (bytesUp v (elemSize ety)) = v.toNat := by
    rw [bytesValue_bytesUp, ← show 2 ^ 8 = 256 from rfl, ← Nat.pow_mul, Nat.mod_eq_of_lt hv]
  exact (congrArg bytesValue hbytes).trans hvalue

/-- Bytes of packed row r lie outside the pixel rectangle (43_packed_codec.md R604). -/
theorem UnpackChecked.packedRow_outside (hg : UnpackChecked o ety w g) (hr : r < g.dimRows.toNat) {i : Nat}
    (hi : i < g.pkLen.toNat) : OutsideRectangle g (elemSize ety) ((packedRow g r).base + i) := by
  refine outsideRectangle_iff.2 fun r' hr' c' hc' i' hi' haddr => ?_
  obtain ⟨hlow, hhigh, -⟩ := pixelAddr_lt hg.pixels hr' hc'
  have hrows : r * g.pkPitch.toNat ≤ (g.dimRows.toNat - 1) * g.pkPitch.toNat := Nat.mul_le_mul_right _ (by omega)
  have hlen : (packedRegion g).len = (g.dimRows.toNat - 1) * g.pkPitch.toNat + g.pkLen.toNat :=
    if_pos (Nat.zero_lt_of_lt hr)
  have hbase : (packedRow g r).base = (packedRegion g).base + r * g.pkPitch.toNat := rfl
  refine Window.not_mem_of_not_overlaps hg.apart (a := (packedRow g r).base + i) (by omega) (by omega)
    ⟨?_, by omega⟩
  change g.pixBase.toNat ≤ _
  omega

/-! ## Pixels that are done -/

/-- Element (r, c) has the w stream bits of its position in packed row r (43_packed_codec.md R612). -/
def PixelStands (o : BitOrder) (ety : ElemType) (w : Nat) (g : CfgRegs) (m₀ m : Memory) (r c : Nat) : Prop :=
  elementAt m g (elemSize ety) r c < 2 ^ w ∧
    valueBits (policy Config.rsbc o).flow (BitVec.ofNat 64 (elementAt m g (elemSize ety) r c)) w =
      ((unpackedRowBits m₀ g (policy Config.rsbc o) w r).drop (c * w)).take w

/-- UNPACK has done the rows before r and the first c pixels of row r, and touched no byte outside the rectangle
(43_packed_codec.md R603, R610). -/
structure UnpackedUpTo (o : BitOrder) (ety : ElemType) (w : Nat) (g : CfgRegs) (m₀ : Memory) (r c : Nat)
    (m : Memory) : Prop where
  wf : Memory.wf m
  within : Memory.within m Config.rsbc.memSize
  pixels : ∀ r' < g.dimRows.toNat, ∀ c' < g.dimCols.toNat, r' < r ∨ r' = r ∧ c' < c → PixelStands o ety w g m₀ m r' c'
  frame : ∀ a, OutsideRectangle g (elemSize ety) a → Memory.read m a = Memory.read m₀ a

/-- A row whose pixels are all done is done. -/
theorem UnpackedUpTo.nextRow (h : UnpackedUpTo o ety w g m₀ r g.dimCols.toNat m) :
    UnpackedUpTo o ety w g m₀ (r + 1) 0 m :=
  { h with pixels := fun r' hr' c' hc' hdone => h.pixels r' hr' c' hc' (by omega) }

/-- The write of a pixel's stream bits to its element does that pixel and undoes none (43_packed_codec.md R610). -/
theorem UnpackedUpTo.write (hg : UnpackChecked o ety w g) (hr : r < g.dimRows.toNat) (hc : c < g.dimCols.toNat)
    (h : UnpackedUpTo o ety w g m₀ r c m) {v : Word} (hv : v.toNat < 2 ^ w)
    (hbits : valueBits (policy Config.rsbc o).flow (v.setWidth 64) w =
      ((unpackedRowBits m₀ g (policy Config.rsbc o) w r).drop (c * w)).take w) :
    ∃ m', pixWrite Config.rsbc g ety m r c v = .ok m' ∧ UnpackedUpTo o ety w g m₀ r (c + 1) m' ∧
      ∀ a, OutsideRectangle g (elemSize ety) a → Memory.read m' a = Memory.read m a := by
  obtain ⟨-, -, haddr⟩ := pixelAddr_lt hg.pixels hr hc
  obtain ⟨m', hwrite, hwf, hwithin, -⟩ := pixWrite_eq (v := v) h.wf haddr
  have hfits : v.toNat < 2 ^ (8 * elemSize ety) := hv.trans_le (Nat.pow_le_pow_right Nat.two_pos hg.inElement)
  obtain ⟨hvalue, hframe⟩ := pixWrite_elementAt h.wf hfits haddr hwrite
  have houtside : ∀ a, OutsideRectangle g (elemSize ety) a → Memory.read m' a = Memory.read m a := fun a ha =>
    hframe a fun hin => outsideRectangle_iff.1 ha r hr c hc (a - pixelAddr g ety r c) (by omega) (by omega)
  refine ⟨m', hwrite, ⟨hwf, hwithin h.within, fun r' hr' c' hc' hdone => ?_, fun a ha =>
    (houtside a ha).trans (h.frame a ha)⟩, houtside⟩
  by_cases hsame : r' = r ∧ c' = c
  · obtain ⟨rfl, rfl⟩ := hsame
    rw [PixelStands, hvalue, BitVec.ofNat_toNat]
    exact ⟨hv, hbits⟩
  · have hkept : elementAt m' g (elemSize ety) r' c' = elementAt m g (elemSize ety) r' c' :=
      elementAt_congr fun i hi => hframe _ fun hin => hsame <| by
        obtain ⟨hrow, hcol, -⟩ := pixelAddr_disjoint (r := r') (r' := r)
          (i' := pixelAddr g ety r' c' + i - pixelAddr g ety r c) hg.pitch hc' hc hi (by omega) (by omega)
        exact ⟨hrow, hcol⟩
    rw [PixelStands, hkept]
    exact h.pixels r' hr' c' hc' (by omega)

/-! ## Rows that hold their pixels -/

/-- The bytes read from an address on stand there. -/
theorem holdsAt_map_read (m : Memory) (a n : Nat) : HoldsAt m a ((List.range n).map fun i => Memory.read m (a + i)) :=
  fun i hi => by rw [List.getElem_map, List.getElem_range]

/-- The bytes that a packed row needs (43_packed_codec.md R611). -/
abbrev neededBytes (o : BitOrder) (w : Nat) (g : CfgRegs) : Nat :=
  (policy Config.rsbc o).chunk * rowChunks (policy Config.rsbc o).chunk g.dimCols.toNat w

/-- A session goes on over a window whose bytes did not change. -/
theorem Cursor.Supplies.of_unchanged {p : Config.Params} {win : Window} {bits : List Bool} {k : Cursor}
    (h : k.Supplies p o m win bits)
    (hsame : ∀ i < win.len, Memory.read m' (win.base + i) = Memory.read m (win.base + i)) :
    k.Supplies p o m' win bits := by
  obtain ⟨hready, n, data, hlen, hinside, hholds, hbits⟩ := h
  refine ⟨hready, n, data, hlen, hinside, fun i hi => ?_, hbits⟩
  rw [Nat.add_assoc, hsame _ (by omega), ← Nat.add_assoc]
  exact hholds i hi

/-- A fresh session of an order without stuffing holds the bits of the whole chunks in its window (42_stream_engine.md
R510). -/
theorem Cursor.supplies_bytes {p : Config.Params} {win : Window} {n : Nat} (ho : o ≠ .jpeg)
    (hlong : (policy p o).chunk * n ≤ win.len) :
    Cursor.Supplies p o m win
      (streamBits (policy p o) n ((List.range ((policy p o).chunk * n)).map fun i => Memory.read m (win.base + i)))
      ⟨BitCache.empty (policy p o).flow, 0⟩ := by
  refine ⟨Cursor.ready_fresh p o win, n,
    (List.range ((policy p o).chunk * n)).map fun i => Memory.read m (win.base + i),
    (List.length_map _).trans List.length_range, ?_, ?_, ?_⟩
  · rwa [wireBytes, if_neg ho, List.length_map, List.length_range, Nat.zero_add]
  · rw [wireBytes, if_neg ho]
    exact holdsAt_map_read _ _ _
  · rw [BitCache.empty_queue, List.nil_append]

/-- A fresh session over a packed row that is long enough holds the row's bits (43_packed_codec.md R602, R611). -/
theorem UnpackChecked.row_supplies (hg : UnpackChecked o ety w g) (hr : r < g.dimRows.toNat)
    (hlong : neededBytes o w g ≤ g.pkLen.toNat)
    (hframe : ∀ a, OutsideRectangle g (elemSize ety) a → Memory.read m a = Memory.read m₀ a) :
    Cursor.Supplies Config.rsbc o m (packedRow g r) (unpackedRowBits m₀ g (policy Config.rsbc o) w r)
      ⟨BitCache.empty (policy Config.rsbc o).flow, 0⟩ :=
  (Cursor.supplies_bytes hg.order (win := packedRow g r) hlong).of_unchanged fun _ hi =>
    hframe _ (hg.packedRow_outside hr hi)

theorem unpackedRowBits_length (m : Memory) (g : CfgRegs) (q : Policy) (w r : Nat) :
    (unpackedRowBits m g q w r).length = 8 * q.chunk * rowChunks q.chunk g.dimCols.toNat w := streamBits_length ..

/-- The chunks of a row hold the bits of its pixels (43_packed_codec.md R611). -/
theorem le_rowChunks (o : BitOrder) (cols w : Nat) :
    cols * w ≤ 8 * (policy Config.rsbc o).chunk * rowChunks (policy Config.rsbc o).chunk cols w := by
  unfold rowChunks
  rcases policy_chunk Config.rsbc o with h | h | h <;> rw [h] <;> omega

/-- One pixel whose bits the row's session holds is done (43_packed_codec.md R610). -/
theorem unpackPixel_fits (hg : UnpackChecked o ety w g) (hr : r < g.dimRows.toNat) (hc : c < g.dimCols.toNat)
    {x : Cursor × Memory}
    (hx : x.1.Supplies Config.rsbc o x.2 (packedRow g r)
      ((unpackedRowBits m₀ g (policy Config.rsbc o) w r).drop (c * w)))
    (hm : UnpackedUpTo o ety w g m₀ r c x.2) :
    ∃ y, unpackPixel Config.rsbc o ety w g r x c = .ok y ∧
      y.1.Supplies Config.rsbc o y.2 (packedRow g r)
        ((unpackedRowBits m₀ g (policy Config.rsbc o) w r).drop ((c + 1) * w)) ∧
      UnpackedUpTo o ety w g m₀ r (c + 1) y.2 := by
  have hcols : (c + 1) * w ≤ g.dimCols.toNat * w := Nat.mul_le_mul_right w hc
  rw [Nat.succ_mul] at hcols ⊢
  obtain ⟨v, k, hget, hk, hbits, hsmall⟩ := hx.getBits (packedRow_inRange hg.packed hr) hg.widthPos hg.width <| by
    have := le_rowChunks o g.dimCols.toNat w
    rw [List.length_drop, unpackedRowBits_length]
    omega
  obtain ⟨m', hwrite, hdone, hframe⟩ := hm.write hg hr hc hsmall hbits
  rw [List.drop_drop] at hk
  refine ⟨(k, m'), ?_, hk.of_unchanged fun i hi => hframe _ (hg.packedRow_outside hr hi), hdone⟩
  simp only [unpackPixel, hget, hwrite, bind, Except.bind, pure, Except.pure]

/-- A row that is long enough is done (43_packed_codec.md R602, R610). -/
theorem unpackRow_fits (hg : UnpackChecked o ety w g) (hr : r < g.dimRows.toNat)
    (hlong : neededBytes o w g ≤ g.pkLen.toNat)
    (hm : UnpackedUpTo o ety w g m₀ r 0 m) :
    ∃ m', unpackRow Config.rsbc o ety w g m r = .ok m' ∧ UnpackedUpTo o ety w g m₀ (r + 1) 0 m' := by
  obtain ⟨y, hloop, -, hdone⟩ := foldlM_range_fits (f := unpackPixel Config.rsbc o ety w g r)
    (x := (⟨BitCache.empty (policy Config.rsbc o).flow, 0⟩, m))
    (P := fun c x => x.1.Supplies Config.rsbc o x.2 (packedRow g r)
      ((unpackedRowBits m₀ g (policy Config.rsbc o) w r).drop (c * w)) ∧ UnpackedUpTo o ety w g m₀ r c x.2)
    ⟨by rw [Nat.zero_mul]; exact hg.row_supplies hr hlong hm.frame, hm⟩
    fun c hc x hx => unpackPixel_fits hg hr hc hx.1 hx.2
  refine ⟨y.2, ?_, hdone.nextRow⟩
  rw [unpackRow, hloop]
  rfl

/-- Rows that are long enough are all done (43_packed_codec.md R610, R612). -/
theorem unpackRows_fits (hg : UnpackChecked o ety w g) (hm : Memory.wf m₀)
    (hwithin : Memory.within m₀ Config.rsbc.memSize)
    (hlong : 0 < g.dimRows.toNat → neededBytes o w g ≤ g.pkLen.toNat) :
    ∃ m, unpackRows Config.rsbc o ety w g m₀ = .ok m ∧ UnpackedUpTo o ety w g m₀ g.dimRows.toNat 0 m :=
  foldlM_range_fits (P := fun r m => UnpackedUpTo o ety w g m₀ r 0 m)
    ⟨hm, hwithin, fun _ _ _ _ hdone => by omega, fun _ _ => rfl⟩
    fun _ hr _ hu => unpackRow_fits hg hr (hlong (Nat.zero_lt_of_lt hr)) hu

end

/-- UNPACK whose checks pass and whose rows are long enough completes with every pixel done (43_packed_codec.md
R612). -/
theorem exec_unpack_fits {o : BitOrder} {ety : ElemType} {cnt : Nat} {s : State} (hs : s.Inv) (hf : s.faulted = false)
    (hm : s.mode = .idle) (hcheck : codecRefusal false o (elemSize ety) cnt s.cfg = none)
    (hlong : 0 < s.cfg.dimRows.toNat → neededBytes o (pixelWidth ety cnt) s.cfg ≤ s.cfg.pkLen.toNat) :
    ∃ m, exec (.unpack o ety cnt) s = .next { s with mem := m, ioerr := false } ∧
      UnpackedUpTo o ety (pixelWidth ety cnt) s.cfg s.mem s.cfg.dimRows.toNat 0 m := by
  obtain ⟨-, hwf, hwithin, hidle, -⟩ := hs
  obtain ⟨m, hrows, hdone⟩ := unpackRows_fits (unpackChecked_of_refusal hcheck) hwf hwithin hlong
  refine ⟨m, ?_, hdone⟩
  rw [exec_unpack hf hm hcheck, hrows, unpackEnd, closeSession_idle (s := s.setMem m) hm hidle]
  rfl

/-- Settles O46: the row loop completes with every pixel done, and closing the session of an idle block changes
nothing. -/
theorem unpackFillsPixels : Obligations.UnpackFillsPixels := by
  intro o ety cnt s es w q cols hs hf hm hcheck hlong
  obtain ⟨m, hexec, hdone⟩ := exec_unpack_fits hs hf hm hcheck hlong
  exact ⟨m, hexec, hdone.wf, fun r hr c hc => hdone.pixels r hr c hc (.inl hr), hdone.frame⟩

/-! ## Rows that are too short -/

/-- A loop whose turn c fails, after the turns before it completed, fails so. -/
theorem foldlM_range_stops {σ ε : Type} {f : σ → Nat → Except ε σ} {c n : Nat} {x u : σ} {e : ε} (hc : c < n)
    (hu : (List.range c).foldlM f x = .ok u) (he : f u c = .error e) : (List.range n).foldlM f x = .error e := by
  obtain ⟨k, rfl⟩ := Nat.exists_eq_add_of_lt hc
  rw [Nat.add_assoc, Nat.add_comm k, ← Nat.add_assoc, List.range_add, List.foldlM_append, List.range_succ,
    List.foldlM_append, hu]
  simp [bind, Except.bind, he]

/-- The bits of the whole chunks in a window of `len` bytes (43_packed_codec.md R611). -/
def heldBits (o : BitOrder) (len : Nat) : Nat := 8 * (policy Config.rsbc o).chunk * (len / (policy Config.rsbc o).chunk)

/-- A decode session that has loaded whole chunks and used n of their bits (42_stream_engine.md R510). -/
def Cursor.Used (o : BitOrder) (n : Nat) (k : Cursor) : Prop :=
  ∃ m, k.pos = (policy Config.rsbc o).chunk * m ∧ 8 * (policy Config.rsbc o).chunk * m = n + k.cache.fill

section
variable {o : BitOrder} {ety : ElemType} {w : Nat} {g : CfgRegs} {m : Memory} {r c n : Nat} {win : Window}
  {k k' : Cursor} {v : Word}

/-- GetBits uses its bits (42_stream_engine.md R521). -/
theorem Cursor.Used.getBits (ho : o ≠ .jpeg) (hr : win.inRange Config.rsbc = true) (hk : k.Ready Config.rsbc o win)
    (hused : k.Used o n) (h : Machine.getBits Config.rsbc o w m win k = .ok (v, k')) : k'.Used o (n + w) := by
  obtain ⟨data, hgets⟩ := getBits_getsBits hr hk h
  obtain ⟨j, hpos, hbits⟩ := hused
  have hpos' := hgets.pos
  have hle := hgets.le_length
  have hfill := congrArg List.length hgets.rest
  rw [wireBytes, if_neg ho, hgets.length] at hpos'
  rw [List.length_append, BitCache.queue_length, streamBits_length] at hle
  rw [BitCache.queue_length, List.length_drop, List.length_append, BitCache.queue_length, streamBits_length] at hfill
  refine ⟨j + chunksNeeded (policy Config.rsbc o).chunk w k.cache.fill, ?_, ?_⟩
  · rw [hpos', hpos, Nat.mul_add]
  · rw [Nat.mul_add]
    omega

/-- The bits of the whole chunks in a window are all that GetBits can use (42_stream_engine.md R511). -/
theorem Cursor.Used.endOfInput (ho : o ≠ .jpeg) (hr : win.inRange Config.rsbc = true) (hk : k.Ready Config.rsbc o win)
    (h1 : 1 ≤ w) (hw : w ≤ 32) (hused : k.Used o n)
    (hshort : heldBits o win.len < n + w) :
    Machine.getBits Config.rsbc o w m win k = .error (raiseFault .endOfInput win.len) := by
  obtain ⟨j, hpos, hbits⟩ := hused
  have hneeded := le_chunksNeeded Config.rsbc o w k.cache.fill
  unfold heldBits at hshort
  refine getBits_endOfInput hr hk h1 hw ho ?_
  rw [hpos, ← Nat.mul_add, Nat.mul_comm]
  refine Nat.lt_mul_of_div_lt ?_ (policy_chunk_pos _ o)
  refine Nat.lt_of_mul_lt_mul_left (a := 8 * (policy Config.rsbc o).chunk) ?_
  rw [Nat.mul_add]
  omega

/-- GetBits completes while the bits of the whole chunks in the window last (42_stream_engine.md R511, R521). -/
theorem Cursor.Used.fits (ho : o ≠ .jpeg) (hr : win.inRange Config.rsbc = true) (hk : k.Ready Config.rsbc o win)
    (h1 : 1 ≤ w) (hw : w ≤ 32) (hused : k.Used o n)
    (hlong : n + w ≤ heldBits o win.len) :
    ∃ v k', Machine.getBits Config.rsbc o w m win k = .ok (v, k') := by
  obtain ⟨j, hpos, hbits⟩ := hused
  have hinside := hk.inside
  rw [hpos] at hinside
  unfold heldBits at hlong
  have hj : j ≤ win.len / (policy Config.rsbc o).chunk :=
    (Nat.le_div_iff_mul_le (policy_chunk_pos _ o)).2 (by rwa [Nat.mul_comm])
  have hneeded : chunksNeeded (policy Config.rsbc o).chunk w k.cache.fill ≤ win.len / (policy Config.rsbc o).chunk - j :=
    chunksNeeded_le (by rw [Nat.mul_sub]; omega)
  have hend : (policy Config.rsbc o).chunk * (j + chunksNeeded (policy Config.rsbc o).chunk w k.cache.fill) ≤ win.len :=
    (Nat.mul_le_mul_left _ (by omega)).trans (Nat.mul_div_le _ _)
  obtain ⟨v, k', hget, -⟩ := getBits_of_data (mem := m) hr hk h1 hw
    (data := (List.range _).map fun i => Memory.read m (win.base + k.pos + i))
    ((List.length_map _).trans List.length_range)
    (by rwa [wireBytes, if_neg ho, List.length_map, List.length_range, hpos, ← Nat.mul_add])
    (by rw [wireBytes, if_neg ho]; exact holdsAt_map_read _ _ _)
  exact ⟨v, k', hget⟩

/-- The whole chunks of a packed row that is too short hold fewer bits than the row needs (43_packed_codec.md R611). -/
theorem lt_of_lt_rowChunks {cols len : Nat}
    (h : len < (policy Config.rsbc o).chunk * rowChunks (policy Config.rsbc o).chunk cols w) :
    heldBits o len < cols * w := by
  unfold rowChunks at h
  unfold heldBits
  rcases policy_chunk Config.rsbc o with hk | hk | hk <;> rw [hk] at h ⊢ <;> omega

/-- A pixel whose bits the row's whole chunks hold is read, and its session goes on (43_packed_codec.md R610). -/
theorem unpackPixel_used (hg : UnpackChecked o ety w g) (hr : r < g.dimRows.toNat) (hc : c < g.dimCols.toNat)
    (hlong : (c + 1) * w ≤ heldBits o g.pkLen.toNat)
    {x : Cursor × Memory} (hx : UnpackReady Config.rsbc o g r x) (hused : x.1.Used o (c * w)) :
    ∃ y, unpackPixel Config.rsbc o ety w g r x c = .ok y ∧ UnpackReady Config.rsbc o g r y ∧
      y.1.Used o ((c + 1) * w) := by
  have hrange := packedRow_inRange hg.packed hr
  have ⟨hready, hwf, _⟩ := hx
  rw [Nat.succ_mul] at hlong ⊢
  obtain ⟨v, k, hget⟩ := hused.fits (m := x.2) hg.order hrange hready hg.widthPos hg.width hlong
  obtain ⟨m', hwrite, -⟩ := pixWrite_eq (v := v) hwf (pixelAddr_lt hg.pixels hr hc).2.2
  have hpixel : unpackPixel Config.rsbc o ety w g r x c = .ok (k, m') := by
    simp only [unpackPixel, hget, hwrite, bind, Except.bind, pure, Except.pure]
  exact ⟨_, hpixel, unpackPixel_keeps_ready hrange hg.pixels hr hc hx hpixel,
    hused.getBits hg.order hrange hready hget⟩

/-- A row that is too short faults at the first pixel that its whole chunks do not hold (43_packed_codec.md R611,
R620). -/
theorem unpackRow_short (hg : UnpackChecked o ety w g) (hr : r < g.dimRows.toNat)
    (hm : Memory.wf m ∧ Memory.within m Config.rsbc.memSize)
    (hshort : g.pkLen.toNat < neededBytes o w g) :
    unpackRow Config.rsbc o ety w g m r = .error (.fault ⟨.endOfInput, g.pkLen.toNat, r,
      heldBits o g.pkLen.toNat / w⟩) := by
  have hwpos := hg.widthPos
  have hrange := packedRow_inRange hg.packed hr
  generalize hheld : heldBits o g.pkLen.toNat = held
  have hfirst : held / w < g.dimCols.toNat := (Nat.div_lt_iff_lt_mul hwpos).2 (hheld ▸ lt_of_lt_rowChunks hshort)
  have hbefore : ∀ c < held / w, (c + 1) * w ≤ held := fun c hc => (Nat.le_div_iff_mul_le hwpos).1 hc
  obtain ⟨x, hloop, ⟨hready, -⟩, hused⟩ := foldlM_range_fits (f := unpackPixel Config.rsbc o ety w g r)
    (x := (⟨BitCache.empty (policy Config.rsbc o).flow, 0⟩, m))
    (P := fun c x => UnpackReady Config.rsbc o g r x ∧ x.1.Used o (c * w))
    ⟨⟨Cursor.ready_fresh _ o _, hm⟩, 0, rfl, by simp⟩
    fun c hc x hx => unpackPixel_used hg hr (hc.trans hfirst) (hheld ▸ hbefore c hc) hx.1 hx.2
  have hget : getBits Config.rsbc o w x.2 (packedRow g r) x.1 = .error (raiseFault .endOfInput g.pkLen.toNat) :=
    hused.endOfInput hg.order hrange hready hwpos hg.width <| by
      rw [← Nat.succ_mul]
      exact hheld ▸ Nat.lt_mul_of_div_lt (Nat.lt_succ_self _) hwpos
  have hpixel : unpackPixel Config.rsbc o ety w g r x (held / w) =
      .error (.fault ⟨.endOfInput, g.pkLen.toNat, r, held / w⟩) := by
    rw [unpackPixel, hget]
    rfl
  rw [unpackRow, foldlM_range_stops hfirst hloop hpixel]
  rfl

end

/-- The bytes outside the rectangle keep their values when those in it are drawn freely (43_packed_codec.md R620). -/
theorem State.freeRectangle_frame {s : State} (hwf : Memory.wf s.mem) {ety : ElemType} {a : Nat}
    (ha : OutsideRectangle s.cfg (elemSize ety) a) : Memory.read (s.freeRectangle ety).mem a = Memory.read s.mem a := by
  refine (Memory.read_foldl_write hwf _ _ a).trans (if_neg fun hin => ?_)
  obtain ⟨r, hr, c, hc, i, hi, haddr⟩ := mem_rectangleAddrs.1 hin
  exact outsideRectangle_iff.1 ha r hr c hc i hi haddr.symm

/-- Settles O47: row 0 faults at the first pixel that is not held, and the fault draws the rectangle's bytes. -/
theorem unpackShortRowFaults : Obligations.UnpackShortRowFaults := by
  intro o ety cnt s es w k hs hf hm hcheck hrows hshort
  have hg := unpackChecked_of_refusal hcheck
  obtain ⟨-, hwf, hwithin, -⟩ := hs
  refine ⟨(s.freeRectangle ety).mem, s.draws + 1, ?_, fun a => State.freeRectangle_frame hwf⟩
  have hrow := unpackRow_short hg hrows ⟨hwf, hwithin⟩ hshort
  rw [exec_unpack hf hm hcheck, unpackRows, foldlM_range_stops hrows rfl hrow, unpackEnd, finishCommand,
    State.faultEntry, BitVec.ofNat_toNat, BitVec.setWidth_eq]
  rfl

end Sys2Proof.Machine
end

section
/-! PROOF. PACK (43_packed_codec.md R640): row after row, words and padding go to the sink until all are written (R643)
or one does not fit (R642). -/

namespace Sys2Proof.Machine

/-! ## What the checks leave true -/

/-- What the checks of PACK leave true: the facts of `PackChecked`, no JPEG, and neither pixels nor padding table in the
sink (43_packed_codec.md R604). -/
structure PackSettled (o : BitOrder) (ety : ElemType) (w : Nat) (g : CfgRegs) : Prop extends
    PackChecked Config.rsbc ety w g where
  order : o ≠ .jpeg
  pixelsApart : (pixelRegion g ety).overlaps (snkWindow g) = false
  tableApart : (padRegion g).overlaps (snkWindow g) = false

/-- PACK has no width to infer, so its width is CNT (43_packed_codec.md R601). -/
theorem packSettled_of_refusal {o : BitOrder} {ety : ElemType} {w : Nat} {g : CfgRegs}
    (h : codecRefusal true o (elemSize ety) w g = none) : pixelWidth ety w = w ∧ PackSettled o ety w g := by
  have hfault := codecFault_none_of_refusal (op := .pack) h
  have hg := packChecked_of_codecFault hfault
  obtain ⟨ho, -, hwidth, -, -, -, -, -, -, -, hpixels, htable⟩ := codecFault_pack_none hfault
  rw [hwidth] at hg
  exact ⟨hwidth, hg, ho, hpixels, htable⟩

/-- PACK whose checks pass ends as its row loop does (43_packed_codec.md R640). -/
theorem exec_pack {o : BitOrder} {ety : ElemType} {w : Nat} {s : State} (hf : s.faulted = false) (hm : s.mode = .idle)
    (h : codecRefusal true o (elemSize ety) w s.cfg = none) :
    exec (.pack o ety w) s =
      finishCommand (encode (.pack o ety w)).word (packEnd s (packRows Config.rsbc o ety w s.cfg s.mem)) := by
  refine (runCommand_body hf hm rfl).trans ?_
  rw [codecFault_none_of_refusal (op := .pack) h, (packSettled_of_refusal h).1]

/-- The state in which PACK ends, from an idle block (43_packed_codec.md R642, R643). -/
theorem packedState_idle {s : State} (hm : s.mode = .idle) (h : s.IdleOk) (k : Sink) :
    packedState s k = { s with mem := k.mem, snkPos := BitVec.ofNat 32 k.pos } :=
  closeSession_idle (s := (s.setMem k.mem).setSnkPos k.pos) hm h

/-! ## Outcomes of steps and loops -/

/-- A computation that gives a value that satisfies `P`, or fails in a way that satisfies `Q`. -/
def ExceptEnds {σ ε : Type} (P : σ → Prop) (Q : ε → Prop) : Except ε σ → Prop
  | .ok a => P a
  | .error e => Q e

section
variable {σ ε : Type} {P P' : σ → Prop} {Q : ε → Prop}

theorem ExceptEnds.bind {x : Except ε σ} {f : σ → Except ε σ} (hx : ExceptEnds P Q x)
    (hf : ∀ a, P a → ExceptEnds P' Q (f a)) : ExceptEnds P' Q (x >>= f) := by
  cases x with
  | ok a => exact hf a hx
  | error e => exact hx

/-- A loop carries an invariant to its end, or fails as one of its turns does. -/
theorem ExceptEnds.foldlM {R : Nat → σ → Prop} {f : σ → Nat → Except ε σ} {n : Nat} {x : σ} (h0 : R 0 x)
    (hf : ∀ i < n, ∀ u, R i u → ExceptEnds (R (i + 1)) Q (f u i)) : ExceptEnds (R n) Q ((List.range n).foldlM f x) := by
  have next : ∀ i < n, ∀ u v, R i u → f u i = .ok v → R (i + 1) v := fun i hi u v hu hv => by
    have hturn := hf i hi u hu
    rwa [hv] at hturn
  cases h : (List.range n).foldlM f x with
  | ok y => exact foldlM_range_ok h0 next h
  | error e =>
    obtain ⟨i, hi, u, hu, hfail⟩ := foldlM_range_error h0 next h
    have hturn := hf i hi u hu
    rwa [hfail] at hturn

end

/-! ## Rows in the sink -/

section
variable {o : BitOrder} {ety : ElemType} {w : Nat} {g : CfgRegs} {m m' m₀ : Memory} {r r' j : Nat} {k k' : Sink}

/-- Rows follow one another in the sink (43_packed_codec.md R640). -/
theorem rowOffset_mono (m : Memory) (g : CfgRegs) (w : Nat) : Monotone (rowOffset m g w) :=
  monotone_nat_of_le_succ fun r => by rw [rowOffset]; omega

/-- The bits of the first c pixels of row r (43_packed_codec.md R640). -/
def pixelsBits (o : BitOrder) (ety : ElemType) (w : Nat) (g : CfgRegs) (m : Memory) (r c : Nat) : List Bool :=
  (List.range c).flatMap fun c =>
    valueBits (policy Config.rsbc o).flow (BitVec.ofNat 64 (elementAt m g (elemSize ety) r c)) w

/-- The bits of the words of row r (42_stream_engine.md R540; 43_packed_codec.md R640). -/
abbrev rowBits (o : BitOrder) (ety : ElemType) (w : Nat) (g : CfgRegs) (m : Memory) (r : Nat) : List Bool :=
  paddedRowBits m g (policy Config.rsbc o).flow (elemSize ety) w r

theorem pixelsBits_succ (o : BitOrder) (ety : ElemType) (w : Nat) (g : CfgRegs) (m : Memory) (r c : Nat) :
    pixelsBits o ety w g m r (c + 1) = pixelsBits o ety w g m r c ++
      valueBits (policy Config.rsbc o).flow (BitVec.ofNat 64 (elementAt m g (elemSize ety) r c)) w := by
  rw [pixelsBits, List.range_succ, List.flatMap_append, List.flatMap_singleton, pixelsBits]

theorem pixelsBits_length (o : BitOrder) (ety : ElemType) (w : Nat) (g : CfgRegs) (m : Memory) (r c : Nat) :
    (pixelsBits o ety w g m r c).length = c * w := by
  simp [pixelsBits, List.length_flatMap]

/-- A row's words hold its pixels and zero bits (42_stream_engine.md R540). -/
theorem rowBits_eq (o : BitOrder) (ety : ElemType) (w : Nat) (g : CfgRegs) (m : Memory) (r : Nat) :
    rowBits o ety w g m r = pixelsBits o ety w g m r g.dimCols.toNat ++
      List.replicate (32 * rowWords g.dimCols.toNat w - g.dimCols.toNat * w) false := rfl

theorem rowBits_length (o : BitOrder) (ety : ElemType) (w : Nat) (g : CfgRegs) (m : Memory) (r : Nat) :
    (rowBits o ety w g m r).length = 32 * rowWords g.dimCols.toNat w := by
  rw [rowBits_eq, List.length_append, pixelsBits_length, List.length_replicate, rowWords]
  omega

/-- The first pixels of a row come first (43_packed_codec.md R603). -/
theorem pixelsBits_isPrefix (m : Memory) (r : Nat) {c : Nat} (hc : c ≤ g.dimCols.toNat) :
    pixelsBits o ety w g m r c <+: rowBits o ety w g m r := by
  obtain ⟨n, hn⟩ := Nat.exists_eq_add_of_le hc
  rw [rowBits_eq]
  refine List.IsPrefix.trans ?_ (List.prefix_append ..)
  rw [pixelsBits, pixelsBits, hn, List.range_add, List.flatMap_append]
  exact List.prefix_append ..

/-- Drained words that no write touches stand where they stood. -/
theorem HoldsWords.of_unchanged {a n : Nat} {bits : List Bool} (h : HoldsWords o m a bits) (hlen : bits.length ≤ 32 * n)
    (hsame : ∀ b < a + 4 * n, Memory.read m' b = Memory.read m b) : HoldsWords o m' a bits := by
  obtain ⟨words, hbits, hholds⟩ := h
  have hwords : bits.length = 32 * words.length := hbits ▸ flatMap_wordBits_length _ words
  refine ⟨words, hbits, hholds.of_unchanged fun b hb => hsame b ?_⟩
  rw [flatMap_tableWordBytes_length] at hb
  omega

/-- One more drained word after those that stand in MEM (42_stream_engine.md R531). -/
theorem HoldsWords.snoc {a n : Nat} {bits : List Bool} (h : HoldsWords o m a bits) (hlen : bits.length = 32 * n) {v : Word}
    (hv : HoldsAt m (a + 4 * n) (tableWordBytes o v)) :
    HoldsWords o m a (bits ++ wordBits (policy Config.rsbc o).flow v) := by
  obtain ⟨words, rfl, hholds⟩ := h
  obtain rfl : words.length = n :=
    Nat.eq_of_mul_eq_mul_left (by decide) ((flatMap_wordBits_length _ words).symm.trans hlen)
  refine ⟨words ++ [v], ?_, ?_⟩
  · rw [List.flatMap_append, List.flatMap_singleton]
    rfl
  · rw [List.flatMap_append, List.flatMap_singleton, HoldsAt.append_iff, flatMap_tableWordBytes_length]
    exact ⟨hholds, hv⟩

/-- Row r stands in the sink: its words, and its padding after them (43_packed_codec.md R640, R643). -/
def RowStands (o : BitOrder) (ety : ElemType) (w : Nat) (g : CfgRegs) (m₀ m : Memory) (r : Nat) : Prop :=
  HoldsWords o m (g.snkBase.toNat + rowOffset m₀ g w r) (rowBits o ety w g m₀ r) ∧
    HoldsAt m (g.snkBase.toNat + rowOffset m₀ g w r + 4 * rowWords g.dimCols.toNat w)
      (List.replicate (padAt m₀ g r) 0x00)

/-- A row that no write touches stands where it stood. -/
theorem RowStands.of_unchanged (h : RowStands o ety w g m₀ m r)
    (hsame : ∀ b < g.snkBase.toNat + rowOffset m₀ g w (r + 1), Memory.read m' b = Memory.read m b) :
    RowStands o ety w g m₀ m' r := by
  rw [rowOffset] at hsame
  refine ⟨h.1.of_unchanged (rowBits_length ..).le fun b hb => hsame b (by omega),
    h.2.of_unchanged fun b hb => hsame b ?_⟩
  rw [List.length_replicate] at hb
  omega

/-- PACK has written the rows before r and the first j words of row r, and nothing else (43_packed_codec.md R640, R642). -/
structure PackedUpTo (o : BitOrder) (ety : ElemType) (w : Nat) (g : CfgRegs) (m₀ : Memory) (r j : Nat) (k : Sink) :
    Prop where
  ready : k.Ready Config.rsbc o (snkWindow g)
  inRow : j ≤ rowWords g.dimCols.toNat w
  pos : k.pos = rowOffset m₀ g w r + 4 * j
  rows : ∀ r' < r, RowStands o ety w g m₀ k.mem r'
  words : HoldsWords o k.mem (g.snkBase.toNat + rowOffset m₀ g w r)
    ((rowBits o ety w g m₀ r).take (32 * j))
  frame : ∀ a, ¬ (g.snkBase.toNat ≤ a ∧ a < g.snkBase.toNat + k.pos) → Memory.read k.mem a = Memory.read m₀ a

/-- A write at the sink position leaves the rows before as they are, and every byte outside the sink
(43_packed_codec.md R640). -/
theorem PackedUpTo.keeps (h : PackedUpTo o ety w g m₀ r j k) {n : Nat} (hpos : k'.pos = k.pos + n)
    (hframe : ∀ b, ¬ (g.snkBase.toNat + k.pos ≤ b ∧ b < g.snkBase.toNat + k.pos + n) →
      Memory.read k'.mem b = Memory.read k.mem b) :
    (∀ r' < r, RowStands o ety w g m₀ k'.mem r') ∧
      HoldsWords o k'.mem (g.snkBase.toNat + rowOffset m₀ g w r)
        ((rowBits o ety w g m₀ r).take (32 * j)) ∧
      ∀ a, ¬ (g.snkBase.toNat ≤ a ∧ a < g.snkBase.toNat + k'.pos) → Memory.read k'.mem a = Memory.read m₀ a := by
  have hbelow : ∀ b < g.snkBase.toNat + k.pos, Memory.read k'.mem b = Memory.read k.mem b := fun b hb =>
    hframe b (by omega)
  have hkpos := h.pos
  refine ⟨fun r' hr' => (h.rows r' hr').of_unchanged fun b hb => hbelow b ?_,
    h.words.of_unchanged (n := j) ?_ fun b hb => hbelow b (by omega), fun a ha => ?_⟩
  · have hrow : rowOffset m₀ g w (r' + 1) ≤ rowOffset m₀ g w r := rowOffset_mono m₀ g w hr'
    omega
  · rw [List.length_take]
    omega
  · rw [hframe a (by omega), h.frame a (by omega)]

/-- Why PACK stops: the next word of row r does not fit the sink, or row r's padding does not (43_packed_codec.md R642). -/
def PackStopped (o : BitOrder) (ety : ElemType) (w : Nat) (g : CfgRegs) (m₀ : Memory) (k : Sink) : Prop :=
  ∃ r < g.dimRows.toNat, ∃ j, PackedUpTo o ety w g m₀ r j k ∧
    (j < rowWords g.dimCols.toNat w ∧ g.snkCap.toNat < k.pos + 4 ∨
      j = rowWords g.dimCols.toNat w ∧ g.snkCap.toNat < k.pos + padAt m₀ g r)

/-- A part of PACK reaches a sink that satisfies `P`, or stops at a full sink (43_packed_codec.md R640, R642). -/
abbrev PackEnds (o : BitOrder) (ety : ElemType) (w : Nat) (g : CfgRegs) (m₀ : Memory) (P : Sink → Prop) :
    Except (Raise × Sink) Sink → Prop :=
  ExceptEnds P fun x => x.1 = .ioError ∧ PackStopped o ety w g m₀ x.2

/-! ## One row's session -/

/-- Bits that go on from a list's start are its next bits. -/
theorem take_add_of_isPrefix {α : Type} {l xs : List α} {n i : Nat} (h : l.take n ++ xs <+: l) (hi : i ≤ xs.length) :
    l.take (n + i) = l.take n ++ xs.take i := by
  obtain ⟨rest, hrest⟩ := h
  have hdrop : xs ++ rest = l.drop n :=
    List.append_cancel_left ((List.append_assoc ..).symm.trans (hrest.trans (List.take_append_drop n l).symm))
  rw [List.take_add, ← hdrop, List.take_append_of_le_length hi]

/-- The session of row r has taken in the bits `taken`: its words are drained, and the rest is cached (43_packed_codec.md
R602, R640). -/
def RowTaken (o : BitOrder) (ety : ElemType) (w : Nat) (g : CfgRegs) (m₀ : Memory) (r : Nat) (taken : List Bool)
    (k : Sink) : Prop :=
  ∃ j, PackedUpTo o ety w g m₀ r j k ∧ (rowBits o ety w g m₀ r).take (32 * j) ++ k.cache.queue = taken

/-- A drained word of row r stands after those before it (42_stream_engine.md R530, R531). -/
theorem PackedUpTo.drained (hg : PackSettled o ety w g) (h : PackedUpTo o ety w g m₀ r j k) {bits : List Bool} {v : Word}
    (hbits : (rowBits o ety w g m₀ r).take (32 * j) ++ bits <+: rowBits o ety w g m₀ r)
    (hfull : 32 ≤ bits.length) (hready : k'.Ready Config.rsbc o (snkWindow g))
    (hv : DrainsWord o (snkWindow g) bits v k k') :
    PackedUpTo o ety w g m₀ r (j + 1) k' ∧
      (rowBits o ety w g m₀ r).take (32 * (j + 1)) ++ k'.cache.queue =
        (rowBits o ety w g m₀ r).take (32 * j) ++ bits := by
  have hbytes : drainedBytes o v = tableWordBytes o v := if_neg hg.order
  have htake := take_add_of_isPrefix hbits hfull
  have hlen := hbits.length_le
  obtain ⟨hvalue, -, hpos, -, -, hrest, -, hholds, hframe⟩ := hv
  rw [hbytes] at hholds
  rw [hbytes, tableWordBytes_length] at hpos hframe
  rw [List.length_append, List.length_take, rowBits_length] at hlen
  obtain ⟨hrows, hwords, houtside⟩ := h.keeps hpos hframe
  have hkpos := h.pos
  have hinRow := h.inRow
  rw [Nat.mul_succ, htake]
  refine ⟨⟨hready, by omega, by omega, hrows, ?_, houtside⟩, ?_⟩
  · rw [Nat.mul_succ, htake, ← hvalue, h.ready.flow]
    refine hwords.snoc (n := j) ?_ ?_
    · rw [List.length_take, rowBits_length]
      omega
    · rwa [Nat.add_assoc, ← hkpos]
  · rw [List.append_assoc, hrest, List.take_append_drop]

/-- The session of a row that appends bits and drains a full word takes the bits in, or stops at a full sink
(43_packed_codec.md R640, R642). -/
theorem RowTaken.append (hg : PackSettled o ety w g) (hr : r < g.dimRows.toNat) {taken new : List Bool}
    (h : RowTaken o ety w g m₀ r taken k) (hnew : taken ++ new <+: rowBits o ety w g m₀ r) (hle : new.length ≤ 32)
    {c : BitCache} (hc : c.wf) (hflow : c.flow = k.cache.flow) (hqueue : c.queue = k.cache.queue ++ new) :
    PackEnds o ety w g m₀ (RowTaken o ety w g m₀ r (taken ++ new))
      (k.attempt (drainIfFull Config.rsbc o (snkWindow g) { k with cache := c })) := by
  obtain ⟨j, hk, rfl⟩ := h
  have hready := hk.ready
  have hcached := hready.fill
  have hfill : c.fill = k.cache.fill + new.length := by simpa using congrArg List.length hqueue
  rw [List.append_assoc, ← hqueue] at hnew ⊢
  by_cases hless : c.fill < 32
  · have hdrain := drainIfFull_of_lt (p := Config.rsbc) (o := o) (w := snkWindow g) (k := k) hless
    rw [hdrain]
    exact ⟨j, { hk with ready := drainIfFull_keeps_ready hready hc hflow (by omega) hdrain }, rfl⟩
  · have hfull : 32 ≤ c.queue.length := by rwa [BitCache.queue_length, ← Nat.not_lt]
    obtain ⟨v, -, ⟨k', hdrain, hv⟩ | ⟨hlong, hdrain⟩⟩ :=
      drainIfFull_ends hg.sink hready hc hflow (Nat.not_lt.1 hless)
    · rw [hdrain]
      exact ⟨j + 1, hk.drained hg hnew hfull (drainIfFull_keeps_ready hready hc hflow (by omega) hdrain) hv⟩
    · have hlen := hnew.length_le
      rw [List.length_append, List.length_take, rowBits_length] at hlen
      rw [drainedBytes, wireBytes, if_neg hg.order, tableWordBytes_length] at hlong
      rw [hdrain]
      exact ⟨rfl, r, hr, j, hk, .inl ⟨by omega, hlong⟩⟩

/-! ## One row -/

/-- A window apart from the sink is as before PACK (43_packed_codec.md R604, R642). -/
theorem PackedUpTo.read_eq (h : PackedUpTo o ety w g m₀ r j k) {win : Window} (hapart : win.overlaps (snkWindow g) = false)
    {a : Nat} (hlow : win.base ≤ a) (hhigh : a < win.base + win.len) : Memory.read k.mem a = Memory.read m₀ a := by
  have hinside : k.pos ≤ g.snkCap.toNat := h.ready.inside
  refine h.frame a fun hin => Window.not_mem_of_not_overlaps hapart hlow hhigh ⟨hin.1, ?_⟩
  exact hin.2.trans_le (Nat.add_le_add_left hinside _)

/-- An element of the view is as before PACK: the pixels lie outside the sink (43_packed_codec.md R604). -/
theorem PackedUpTo.elementAt_eq (hg : PackSettled o ety w g) (h : PackedUpTo o ety w g m₀ r j k)
    (hr : r' < g.dimRows.toNat) {c : Nat} (hc : c < g.dimCols.toNat) :
    elementAt k.mem g (elemSize ety) r' c = elementAt m₀ g (elemSize ety) r' c := by
  obtain ⟨hlow, hhigh, -⟩ := pixelAddr_lt hg.pixels hr hc
  exact elementAt_congr fun i hi => h.read_eq hg.pixelsApart (Nat.le_add_right_of_le hlow) (by omega)

/-- The padding table is as before PACK: it lies outside the sink (43_packed_codec.md R604). -/
theorem PackedUpTo.padAt_eq (hg : PackSettled o ety w g) (h : PackedUpTo o ety w g m₀ r j k)
    (hr : r' < g.dimRows.toNat) : padAt k.mem g r' = padAt m₀ g r' := by
  unfold padAt
  split_ifs with hmode
  · rfl
  · have hone : g.padMode = 1 := by
      have := hg.padMode
      bv_omega
    have hlen : (padRegion g).len = 4 * g.dimRows.toNat := if_pos hone
    have hbase : (padRegion g).base = g.padBase.toNat := rfl
    refine congrArg bytesValue (List.map_congr_left fun i hi => ?_)
    have := List.mem_range.1 hi
    exact h.read_eq hg.tableApart (by omega) (by omega)

/-- One pixel: its row's session takes in its bits, or stops at a full sink (43_packed_codec.md R640). -/
theorem packPixel_ends (hg : PackSettled o ety w g) (hr : r < g.dimRows.toNat) {c : Nat} (hc : c < g.dimCols.toNat)
    (h : RowTaken o ety w g m₀ r (pixelsBits o ety w g m₀ r c) k) :
    PackEnds o ety w g m₀ (RowTaken o ety w g m₀ r (pixelsBits o ety w g m₀ r (c + 1)))
      (packPixel Config.rsbc o ety w g r k c) := by
  have ⟨j, hk, _⟩ := h
  have hbegins := pixelsBits_isPrefix (o := o) (ety := ety) (w := w) m₀ r (Nat.succ_le_of_lt hc)
  rw [pixelsBits_succ] at hbegins ⊢
  have hvalue : chunkValue Config.rsbc.pixEndian
      ((List.range (elemSize ety)).map fun i => Memory.read k.mem (pixelAddr g ety r c + i)) =
      BitVec.ofNat 64 (elementAt m₀ g (elemSize ety) r c) := by
    rw [← hk.elementAt_eq hg hr hc]
    rfl
  rw [packPixel_eq (pixelAddr_lt hg.pixels hr hc).2.2, hvalue]
  obtain ⟨b, hb, hflow, hqueue, hput⟩ := putBits_eq_drain hk.ready (BitVec.ofNat 64 (elementAt m₀ g (elemSize ety) r c))
    hg.width
  rw [hk.ready.flow] at hqueue
  rw [hput]
  exact h.append hg hr hbegins (by rw [valueBits_length]; exact hg.width) hb hflow hqueue

/-- A session that has taken in all of a row's bits has written all its words (43_packed_codec.md R640). -/
theorem RowTaken.complete (h : RowTaken o ety w g m₀ r (rowBits o ety w g m₀ r) k) :
    PackedUpTo o ety w g m₀ r (rowWords g.dimCols.toNat w) k := by
  obtain ⟨j, hk, htaken⟩ := h
  have hinRow := hk.inRow
  have hcached := hk.ready.fill
  have hlen := congrArg List.length htaken
  rw [List.length_append, List.length_take, rowBits_length, BitCache.queue_length] at hlen
  obtain rfl : j = rowWords g.dimCols.toNat w := by omega
  exact hk

/-- Flush after a row's pixels fills the last word with zero bits (42_stream_engine.md R540; 43_packed_codec.md R640). -/
theorem flushRow_ends (hg : PackSettled o ety w g) (hr : r < g.dimRows.toNat)
    (h : RowTaken o ety w g m₀ r (pixelsBits o ety w g m₀ r g.dimCols.toNat) k) :
    PackEnds o ety w g m₀ (RowTaken o ety w g m₀ r (rowBits o ety w g m₀ r))
      (k.attempt (flushBits Config.rsbc o (snkWindow g) k)) := by
  have ⟨j, hk, htaken⟩ := h
  have hinRow := hk.inRow
  have hcached := hk.ready.fill
  have hlen := congrArg List.length htaken
  rw [List.length_append, List.length_take, rowBits_length, BitCache.queue_length, pixelsBits_length] at hlen
  have hpad : 32 * rowWords g.dimCols.toNat w - g.dimCols.toNat * w =
      if k.cache.fill = 0 then 0 else 32 - k.cache.fill := by
    unfold rowWords at hinRow hlen ⊢
    split_ifs <;> omega
  by_cases hfill : k.cache.fill = 0
  · rw [if_pos hfill] at hpad
    rw [flushBits, if_pos hfill, rowBits_eq, hpad, List.replicate_zero, List.append_nil]
    exact h
  · rw [if_neg hfill] at hpad
    obtain ⟨c, hc, hflow, hqueue, -, hflush⟩ := flushBits_eq_drain hk.ready hfill
    have hrow : pixelsBits o ety w g m₀ r g.dimCols.toNat ++ List.replicate (32 - k.cache.fill) false =
        rowBits o ety w g m₀ r := by
      rw [rowBits_eq, hpad]
    rw [hflush, ← hrow]
    exact h.append hg hr (hrow ▸ List.prefix_rfl) (by rw [List.length_replicate]; omega) hc hflow hqueue

/-- Emitted bytes stand at the sink position, and no other byte changes (42_stream_engine.md R530). -/
theorem emitBytes_holdsAt {p : Config.Params} {win : Window} {bytes : List Byte} (hwf : Memory.wf k.mem)
    (h : emitBytes p win bytes k = .ok k') :
    HoldsAt k'.mem (win.base + k.pos) bytes ∧
      ∀ b, ¬ (win.base + k.pos ≤ b ∧ b < win.base + k.pos + bytes.length) →
        Memory.read k'.mem b = Memory.read k.mem b := by
  obtain ⟨-, -, -, -, -, hread⟩ := emitBytes_ok hwf h
  refine ⟨fun i hi => ?_, fun b hb => (hread b).trans (dif_neg hb)⟩
  rw [hread, dif_pos ⟨by omega, by omega⟩]
  simp only [Nat.add_sub_cancel_left]

/-- The padding after a row's words ends the row (43_packed_codec.md R640, R641). -/
theorem packPadding_ends (hg : PackSettled o ety w g) (hr : r < g.dimRows.toNat)
    (h : PackedUpTo o ety w g m₀ r (rowWords g.dimCols.toNat w) k) :
    PackEnds o ety w g m₀ (PackedUpTo o ety w g m₀ (r + 1) 0) (packPadding Config.rsbc g r k) := by
  have hsame := h.padAt_eq hg hr
  rw [packPadding_eq (padEntryAddr_lt hg.padMode hg.table hr), hsame]
  cases hemit : emitBytes Config.rsbc (snkWindow g) (List.replicate (padAt m₀ g r) 0x00) k with
  | error e =>
    obtain ⟨hlong, rfl⟩ := emitBytes_error hg.sink h.ready.memWf hemit
    rw [List.length_replicate] at hlong
    exact ⟨rfl, r, hr, _, h, .inr ⟨rfl, hlong⟩⟩
  | ok k' =>
    obtain ⟨-, hpos, -⟩ := emitBytes_ok h.ready.memWf hemit
    obtain ⟨hpadding, hframe⟩ := emitBytes_holdsAt h.ready.memWf hemit
    have hkpos := h.pos
    rw [hkpos, ← Nat.add_assoc] at hpadding
    rw [List.length_replicate] at hpos hframe
    obtain ⟨hrows, hwords, houtside⟩ := h.keeps hpos hframe
    rw [List.take_of_length_le (rowBits_length ..).le] at hwords
    exact
      { ready := emitBytes_keeps_ready h.ready hemit, inRow := Nat.zero_le _, pos := by rw [hpos, hkpos]; rfl,
        rows := fun r' hr' => (Nat.lt_succ_iff_lt_or_eq.1 hr').elim (hrows r') fun he => he ▸ ⟨hwords, hpadding⟩,
        words := ⟨[], rfl, HoldsAt.nil _ _⟩, frame := houtside }

/-- One row: its session, its flush and its padding (43_packed_codec.md R602, R640). -/
theorem packRow_ends (hg : PackSettled o ety w g) (hr : r < g.dimRows.toNat) (h : PackedUpTo o ety w g m₀ r 0 k) :
    PackEnds o ety w g m₀ (PackedUpTo o ety w g m₀ (r + 1) 0) (packRow Config.rsbc o ety w g k r) := by
  have hfresh : RowTaken o ety w g m₀ r (pixelsBits o ety w g m₀ r 0)
      { k with cache := BitCache.empty (policy Config.rsbc o).flow } :=
    ⟨0, { h with ready := h.ready.fresh }, BitCache.empty_queue _⟩
  have hpixels := ExceptEnds.foldlM (R := fun c => RowTaken o ety w g m₀ r (pixelsBits o ety w g m₀ r c)) hfresh
    fun c hc k hk => packPixel_ends hg hr hc hk
  refine hpixels.bind fun k₁ hk₁ => ?_
  exact (flushRow_ends hg hr hk₁).bind fun k₂ hk₂ => packPadding_ends hg hr hk₂.complete

/-- The row loop of PACK writes every row, or stops at a full sink (43_packed_codec.md R640, R642). -/
theorem packRows_ends (hg : PackSettled o ety w g) (hm : Memory.wf m₀) (hwithin : Memory.within m₀ Config.rsbc.memSize) :
    PackEnds o ety w g m₀ (PackedUpTo o ety w g m₀ g.dimRows.toNat 0) (packRows Config.rsbc o ety w g m₀) := by
  have hstart : PackedUpTo o ety w g m₀ 0 0 ⟨BitCache.empty (policy Config.rsbc o).flow, 0, m₀⟩ :=
    { ready := ⟨BitCache.wf_empty _, rfl, by simp, Nat.zero_le _, hm, hwithin⟩, inRow := Nat.zero_le _, pos := rfl,
      rows := nofun, words := ⟨[], rfl, HoldsAt.nil _ _⟩, frame := fun _ _ => rfl }
  exact ExceptEnds.foldlM (R := fun r => PackedUpTo o ety w g m₀ r 0) hstart fun r hr k hk => packRow_ends hg hr hk

/-- PACK stops only where its whole output does not fit the sink (43_packed_codec.md R642). -/
theorem PackStopped.lt_rowOffset (h : PackStopped o ety w g m₀ k) :
    g.snkCap.toNat < rowOffset m₀ g w g.dimRows.toNat := by
  obtain ⟨r, hr, j, hk, hfull⟩ := h
  have hkpos := hk.pos
  have hrow : rowOffset m₀ g w (r + 1) ≤ rowOffset m₀ g w g.dimRows.toNat := rowOffset_mono m₀ g w hr
  rw [rowOffset] at hrow
  omega

/-- All rows are written only where the whole output fits the sink (43_packed_codec.md R643). -/
theorem PackedUpTo.rowOffset_le (h : PackedUpTo o ety w g m₀ r 0 k) : rowOffset m₀ g w r ≤ g.snkCap.toNat := by
  have hinside : k.pos ≤ g.snkCap.toNat := h.ready.inside
  rwa [h.pos] at hinside

end

/-- Settles O48: output that fits never stops the row loop, and after the last row every row stands in the sink. -/
theorem packFillsSink : Obligations.PackFillsSink := by
  intro o ety w s es g total words hs hf hm hcheck hfits
  have hg := (packSettled_of_refusal hcheck).2
  obtain ⟨-, hwf, hwithin, hidle, -⟩ := hs
  have hends := packRows_ends hg hwf hwithin
  have hexec := exec_pack hf hm hcheck
  cases hrows : packRows Config.rsbc o ety w g s.mem with
  | error x =>
    rw [hrows] at hends
    exact absurd hends.2.lt_rowOffset (Nat.not_lt.2 hfits)
  | ok k =>
    rw [hrows] at hends hexec
    have hdone : PackedUpTo o ety w g s.mem g.dimRows.toNat 0 k := hends
    have hpos : k.pos = total := hdone.pos
    refine ⟨k.mem, ?_, hdone.ready.memWf, hdone.rows, hpos ▸ hdone.frame⟩
    rw [hexec, packEnd, packedState_idle hm hidle, hpos]
    rfl

/-- Settles O49: output that does not fit never lets the row loop complete, so it stops at a full sink. -/
theorem packStopsAtFullSink : Obligations.PackStopsAtFullSink := by
  intro o ety w s es g words row hs hf hm hcheck hlong
  have hg := (packSettled_of_refusal hcheck).2
  obtain ⟨-, hwf, hwithin, hidle, -⟩ := hs
  have hends := packRows_ends hg hwf hwithin
  have hexec := exec_pack hf hm hcheck
  cases hrows : packRows Config.rsbc o ety w g s.mem with
  | ok k =>
    rw [hrows] at hends
    exact absurd (PackedUpTo.rowOffset_le hends) (Nat.not_le.2 hlong)
  | error x =>
    rw [hrows] at hends hexec
    obtain ⟨e, k⟩ := x
    obtain ⟨rfl, r, hr, j, hk, hfull⟩ := hends
    have hinside : k.pos ≤ g.snkCap.toNat := hk.ready.inside
    refine ⟨k.mem, r, j, ?_⟩
    rw [hexec, packEnd, packedState_idle hm hidle]
    rw [hk.pos] at hfull hinside ⊢
    exact ⟨rfl, hr, hinside, hfull, hk.rows, hk.words, hk.pos ▸ hk.frame⟩

end Sys2Proof.Machine
end

section
/-! PROOF. UNPACK of what PACK wrote gives the pixel matrix back (43_packed_codec.md R650). -/

namespace Sys2Proof.Machine

section
variable {o : BitOrder} {ety : ElemType} {w : Nat} {g g' : CfgRegs} {m m₀ : Memory} {r c : Nat}

/-- With a constant padding every row takes as many bytes (43_packed_codec.md R640, R641). -/
theorem rowOffset_of_constant (hmode : g.padMode = 0) (m : Memory) (w r : Nat) :
    rowOffset m g w r = r * (4 * rowWords g.dimCols.toNat w + g.padConst.toNat) := by
  induction r with
  | zero => rw [rowOffset, Nat.zero_mul]
  | succ r ih => rw [rowOffset, ih, padAt, if_pos hmode, Nat.succ_mul r, Nat.add_assoc]

/-- The chunks of an unpacked row lie in the words of a packed one (43_packed_codec.md R650). -/
theorem rowChunks_le_rowWords (o : BitOrder) (cols w : Nat) :
    (policy Config.rsbc o).chunk * rowChunks (policy Config.rsbc o).chunk cols w ≤ 4 * rowWords cols w := by
  unfold rowChunks rowWords
  rcases policy_chunk Config.rsbc o with h | h | h <;> rw [h] <;> omega

/-- Chunks read from the start of drained words give the first of their bits (42_stream_engine.md R510, R543). -/
theorem HoldsWords.streamBits_eq {a n j : Nat} {bits : List Bool} (h : HoldsWords o m a bits)
    (hlen : bits.length = 32 * n) (hle : (policy Config.rsbc o).chunk * j ≤ 4 * n) :
    streamBits (policy Config.rsbc o) j
        ((List.range ((policy Config.rsbc o).chunk * j)).map fun i => Memory.read m (a + i)) =
      bits.take (8 * (policy Config.rsbc o).chunk * j) := by
  obtain ⟨words, rfl, hholds⟩ := h
  obtain rfl : words.length = n :=
    Nat.eq_of_mul_eq_mul_left (by decide) ((flatMap_wordBits_length _ words).symm.trans hlen)
  obtain ⟨i, hi⟩ : ∃ i, words.length * (4 / (policy Config.rsbc o).chunk) = j + i := Nat.exists_eq_add_of_le <| by
    rcases policy_chunk Config.rsbc o with hk | hk | hk <;> rw [hk] at hle ⊢ <;> omega
  obtain ⟨rest, hrest⟩ := Nat.exists_eq_add_of_le hle
  obtain ⟨xs, ys, hbytes, hxs, -⟩ :=
    exists_append_of_length ((flatMap_tableWordBytes_length o words).trans hrest)
  have hread := streamBits_flatMap_tableWordBytes Config.rsbc o words
  rw [hbytes, hi, streamBits_append hxs] at hread
  rw [hbytes, HoldsAt.append_iff] at hholds
  rw [← hxs, hholds.1.map_read]
  exact ((congrArg (List.take _) hread).symm.trans (List.take_left' (streamBits_length ..))).symm

/-- The bits of a pixel in its packed row (43_packed_codec.md R640). -/
theorem rowBits_pixel (m : Memory) {n : Nat} (hc : c < g.dimCols.toNat) (hn : (c + 1) * w ≤ n) :
    (((rowBits o ety w g m r).take n).drop (c * w)).take w =
      valueBits (policy Config.rsbc o).flow (BitVec.ofNat 64 (elementAt m g (elemSize ety) r c)) w := by
  obtain ⟨rest, hrest⟩ := List.prefix_take_iff.2 ⟨pixelsBits_isPrefix (o := o) (ety := ety) (w := w) m r
    (Nat.succ_le_of_lt hc), (pixelsBits_length ..).trans_le hn⟩
  rw [← hrest, pixelsBits_succ, List.append_assoc, List.drop_left' (pixelsBits_length ..),
    List.take_left' (valueBits_length ..)]

/-- A packed row read back holds its pixels' bits (43_packed_codec.md R650). -/
theorem RowStands.unpackedRowBits_pixel (h : RowStands o ety w g m₀ m r) (hcols : g'.dimCols = g.dimCols)
    (hrow : g'.srcBase.toNat + r * g'.pkPitch.toNat = g.snkBase.toNat + rowOffset m₀ g w r) (hc : c < g.dimCols.toNat) :
    ((unpackedRowBits m g' (policy Config.rsbc o) w r).drop (c * w)).take w =
      valueBits (policy Config.rsbc o).flow (BitVec.ofNat 64 (elementAt m₀ g (elemSize ety) r c)) w := by
  rw [unpackedRowBits, hrow, hcols,
    h.1.streamBits_eq (rowBits_length ..) (rowChunks_le_rowWords o g.dimCols.toNat w)]
  exact rowBits_pixel m₀ hc ((Nat.mul_le_mul_right w hc).trans (le_rowChunks o g.dimCols.toNat w))

end

/-- Values below 2^n with the same n bits are the same number. -/
theorem eq_of_valueBits_eq {f : Flow} {a b n : Nat} (hn : n ≤ 32) (ha : a < 2 ^ n) (hb : b < 2 ^ n)
    (h : valueBits f (BitVec.ofNat 64 a) n = valueBits f (BitVec.ofNat 64 b) n) : a = b := by
  have hpow : 2 ^ n ≤ 2 ^ 32 := Nat.pow_le_pow_right Nat.two_pos hn
  have hvalue : ∀ x < 2 ^ n, (BitVec.ofNat 64 x).toNat = x := fun x hx => Nat.mod_eq_of_lt (by omega)
  rw [← hvalue a ha, ← hvalue b hb, valueBits_inj (by rwa [hvalue a ha]) (by rwa [hvalue b hb]) h]

/-- Settles O51: PACK leaves every row in the sink, each at the address from which UNPACK reads it, so both elements have
the same w bits. -/
theorem packUnpackRoundTrip : Obligations.PackUnpackRoundTrip := by
  intro o ety w s g' es g rowBytes hs hf hm hmode hpack hfits hsmall hbase hlen hpitch hrows hcols hunpack
  obtain ⟨hw, hg⟩ := packSettled_of_refusal hpack
  obtain ⟨m, hexec, -, hstands, -⟩ := packFillsSink o ety w s hs hf hm hpack hfits
  have hlong : neededBytes o (pixelWidth ety w) g' ≤ g'.pkLen.toNat := by
    rw [hw, neededBytes, hcols, hlen]
    exact (rowChunks_le_rowWords o g.dimCols.toNat w).trans (Nat.le_add_right ..)
  obtain ⟨m', hexec', hdone⟩ := exec_unpack_fits ((exec_keeps_inv hs hexec).setCfg hm g') hf hm hunpack fun _ => hlong
  refine ⟨_, _, hexec, hexec', rfl, hf, rfl, hf, fun r hr c hc => ?_⟩
  have hrow : g'.srcBase.toNat + r * g'.pkPitch.toNat = g.snkBase.toNat + rowOffset s.mem g w r := by
    rw [hbase, hpitch, rowOffset_of_constant hmode]
  have hr' : r < g'.dimRows.toNat := hrows ▸ hr
  rw [hw] at hdone
  have hpixel : PixelStands o ety w g' m m' r c := hdone.pixels r hr' c (hcols ▸ hc) (.inl hr')
  rw [PixelStands, RowStands.unpackedRowBits_pixel (ety := ety) (hstands r hr) hcols hrow hc] at hpixel
  exact eq_of_valueBits_eq hg.width hpixel.1 (hsmall r hr c hc) hpixel.2

end Sys2Proof.Machine
end

section
/-! PROOF. JPEG sessions whose window stops the byte reader: after the data bytes that stand readable the window ends, or a
sentinel has no escape behind it, and GETBITS faults where that byte is read (44_jpeg_stuffing.md R710, R711). -/

namespace Sys2Proof.Machine

/-! ## Reads that fail after some data bytes -/

/-- The data bytes stand readable at a position of the window, and reading the data byte after them fails
(42_stream_engine.md R510). -/
structure ReadFailsAfter (p : Config.Params) (o : BitOrder) (mem : Memory) (w : Window) (data : List Byte) (pos : Nat)
    (e : Raise) : Prop where
  inside : pos + (wireBytes o data).length ≤ w.len
  holds : HoldsAt mem (w.base + pos) (wireBytes o data)
  fails : readByte p o mem w (pos + (wireBytes o data).length) = .error e

section
variable {p : Config.Params} {o : BitOrder} {mem : Memory} {w : Window} {n fuel pos : Nat} {k : Cursor} {e : Raise}
  {bs data : List Byte}

/-- Past the first data bytes the others stand readable, and the same read fails. -/
theorem ReadFailsAfter.split (h : ReadFailsAfter p o mem w (bs ++ data) pos e) :
    pos + (wireBytes o bs).length ≤ w.len ∧ HoldsAt mem (w.base + pos) (wireBytes o bs) ∧
      ReadFailsAfter p o mem w data (pos + (wireBytes o bs).length) e := by
  obtain ⟨hinside, hholds, hfails⟩ := h
  rw [wireBytes_append, List.length_append, ← Nat.add_assoc] at hinside hfails
  rw [wireBytes_append, HoldsAt.append_iff, Nat.add_assoc] at hholds
  exact ⟨by omega, hholds.1, hinside, hholds.2, hfails⟩

/-- Reading more bytes than stand readable fails as the byte after them does. -/
theorem ReadFailsAfter.readBytes_eq (hr : w.inRange p = true) (h : ReadFailsAfter p o mem w data pos e)
    (hlen : data.length < n) : readBytes p o mem w n pos = .error e := by
  obtain ⟨n, rfl⟩ := Nat.exists_eq_add_one_of_ne_zero (Nat.ne_zero_of_lt hlen)
  induction data generalizing n pos with
  | nil =>
    have hfails : readByte p o mem w pos = .error e := by simpa using h.fails
    simp only [readBytes, hfails, bind, Except.bind]
  | cons b data ih =>
    obtain ⟨hinside, hholds, hrest⟩ := h.split (bs := [b])
    have hlen' : data.length < n := Nat.lt_of_succ_lt_succ hlen
    obtain ⟨n, rfl⟩ := Nat.exists_eq_add_one_of_ne_zero (Nat.ne_zero_of_lt hlen')
    rw [readBytes, (readByte_ok_iff hr).2 ⟨rfl, hinside, hholds⟩]
    simp only [ih hrest n hlen', bind, Except.bind]

/-- A refill that lacks data bytes of its chunk fails (42_stream_engine.md R510). -/
theorem ReadFailsAfter.refill_eq (hr : w.inRange p = true) (h : ReadFailsAfter p o mem w data k.pos e)
    (hlen : data.length < (policy p o).chunk) : refill p o mem w k = .error e := by
  simp only [refill, h.readBytes_eq hr hlen, bind, Except.bind]

/-- A refill over a chunk of data bytes loads these bytes (42_stream_engine.md R510). -/
theorem refill_loads (hr : w.inRange p = true) (hwf : k.cache.wf) (hflow : k.cache.flow = (policy p o).flow)
    (hfill : k.cache.fill ≤ 32) (hlen : bs.length = (policy p o).chunk)
    (hinside : k.pos + (wireBytes o bs).length ≤ w.len) (hholds : HoldsAt mem (w.base + k.pos) (wireBytes o bs)) :
    ∃ k', refill p o mem w k = .ok k' ∧ Loaded p o mem w 1 bs k k' := by
  obtain ⟨k', hk'⟩ := refill_fits hr hfill hlen hinside hholds
  obtain ⟨bs', hloaded⟩ := refill_ok hr hwf hflow hk'
  obtain rfl := wireBytes_unique hloaded.holds hholds (hloaded.length.trans (by rw [hlen, Nat.mul_one]))
  exact ⟨k', hk', hloaded⟩

/-- Where a data byte is still missing, fewer bits are cached than asked for. -/
theorem fill_lt_of_lt_chunksNeeded {c fill : Nat}
    (h : c < (policy p o).chunk * chunksNeeded (policy p o).chunk n fill) : fill < n := by
  by_contra hle
  have hnone : chunksNeeded (policy p o).chunk n fill ≤ 0 := chunksNeeded_le (m := 0) (by omega)
  rw [Nat.le_zero.1 hnone] at h
  exact absurd h (Nat.not_lt_zero _)

/-- One chunk loaded is one chunk less to load (42_stream_engine.md R521). -/
theorem chunksNeeded_le_succ (p : Config.Params) (o : BitOrder) (n fill : Nat) :
    chunksNeeded (policy p o).chunk n fill ≤
      chunksNeeded (policy p o).chunk n (fill + 8 * (policy p o).chunk) + 1 := by
  refine chunksNeeded_le ((le_chunksNeeded p o n (fill + 8 * (policy p o).chunk)).trans_eq ?_)
  ring

/-- The refill loop loads the whole chunks that stand readable, and its next refill fails (42_stream_engine.md R521). -/
theorem ReadFailsAfter.refillWhile_eq (hr : w.inRange p = true) (hwf : k.cache.wf)
    (hflow : k.cache.flow = (policy p o).flow) (hn : n ≤ 32) (hfuel : n ≤ k.cache.fill + 8 * fuel)
    (h : ReadFailsAfter p o mem w data k.pos e)
    (hshort : data.length < (policy p o).chunk * chunksNeeded (policy p o).chunk n k.cache.fill) :
    refillWhile p o mem w n fuel k = .error e := by
  have hlt := fill_lt_of_lt_chunksNeeded hshort
  induction fuel generalizing k data with
  | zero => omega
  | succ fuel ih =>
    rw [refillWhile, if_pos hlt]
    by_cases hlast : data.length < (policy p o).chunk
    · simp only [h.refill_eq hr hlast, bind, Except.bind]
    · obtain ⟨bs, rest, rfl, hbs, hrest⟩ :=
        exists_append_of_length (Nat.add_sub_of_le (Nat.le_of_not_lt hlast)).symm
      obtain ⟨hinside, hholds, hafter⟩ := h.split
      obtain ⟨k', hrefill, hloaded⟩ := refill_loads hr hwf hflow (by omega) hbs hinside hholds
      have hfill : k'.cache.fill = k.cache.fill + 8 * (policy p o).chunk := by rw [hloaded.fill, Nat.mul_one]
      have hshort' : rest.length < (policy p o).chunk * chunksNeeded (policy p o).chunk n k'.cache.fill := by
        have hmul := Nat.mul_le_mul_left (policy p o).chunk (chunksNeeded_le_succ p o n k.cache.fill)
        rw [← hfill, Nat.mul_succ] at hmul
        rw [List.length_append] at hshort
        omega
      have hchunk := policy_chunk_pos p o
      simp only [hrefill, bind, Except.bind]
      exact ih hloaded.wf (hloaded.flow.trans hflow) (by omega) (hloaded.pos ▸ hafter) hshort'
        (fill_lt_of_lt_chunksNeeded hshort')

/-- GetBits that needs more data bytes than stand readable fails as the byte after them does (42_stream_engine.md R521). -/
theorem ReadFailsAfter.getBits_eq (hr : w.inRange p = true) (hk : k.Ready p o w) (h1 : 1 ≤ n) (hn : n ≤ 32)
    (h : ReadFailsAfter p o mem w data k.pos e)
    (hshort : data.length < (policy p o).chunk * chunksNeeded (policy p o).chunk n k.cache.fill) :
    getBits p o n mem w k = .error e := by
  rw [getBits, countFault_none.2 ⟨h1, hn⟩]
  simp only [h.refillWhile_eq (fuel := n) hr hk.wf hk.flow hn (by omega) hshort, bind, Except.bind]

/-! ## The byte reader of a JPEG session -/

/-- No data byte begins at the window's end (44_jpeg_stuffing.md R710). -/
theorem readByte_jpeg_windowEnd (h : w.len ≤ pos) :
    readByte p .jpeg mem w pos = .error (raiseFault .endOfInput pos) :=
  if_pos h

/-- A sentinel in the window fails where its escape does (44_jpeg_stuffing.md R710). -/
theorem readByte_jpeg_sentinel (hr : w.inRange p = true) (hpos : pos < w.len)
    (hread : Memory.read mem (w.base + pos) = sentinelByte) (h : readEscape p mem w (pos + 1) = .error e) :
    readByte p .jpeg mem w pos = .error e := by
  rw [Window.inRange_iff] at hr
  have hmem : memRead p mem (w.base + pos) = .ok sentinelByte := memRead_ok.2 ⟨by omega, hread.symm⟩
  change readDestuffedByte p mem w pos = .error e
  rw [readDestuffedByte, if_neg (Nat.not_le.2 hpos), hmem]
  simp only [if_true, h, bind, Except.bind]

/-- The escape is missing at the window's end (44_jpeg_stuffing.md R710). -/
theorem readEscape_windowEnd (h : w.len ≤ pos) : readEscape p mem w pos = .error (raiseFault .endOfInput pos) :=
  if_pos h

/-- Another byte than 0x00 is no escape (44_jpeg_stuffing.md R711). -/
theorem readEscape_bad (hr : w.inRange p = true) (hpos : pos < w.len)
    (hread : Memory.read mem (w.base + pos) ≠ escapeByte) :
    readEscape p mem w pos = .error (raiseFault .jpegBadEscape pos) := by
  rw [Window.inRange_iff] at hr
  have hmem : memRead p mem (w.base + pos) = .ok (Memory.read mem (w.base + pos)) := memRead_ok.2 ⟨by omega, rfl⟩
  rw [readEscape, if_neg (Nat.not_le.2 hpos), hmem]
  exact if_neg hread

end

/-- Settles O38: the byte after the data bytes fails at the window's end, at a missing escape or at a bad one, and GETBITS
raises that fault. -/
theorem jpegReadFaults : Obligations.JpegReadFaults := by
  intro n s data hs hf hm ho h1 hn hlen hholds pos
  obtain ⟨hready, hr⟩ := hs.cursor_ready hm
  rw [ho] at hready
  have faults : ∀ c info, pos ≤ s.cfg.srcLen.toNat →
      readByte Config.rsbc .jpeg s.mem (srcWindow s.cfg) pos = .error (raiseFault c info) →
      exec (.getbits n) s = .next (faultedBy s (.getbits n) c info) := fun c info hinside hfails => by
    have hafter : ReadFailsAfter Config.rsbc .jpeg s.mem (srcWindow s.cfg) data s.cursor.pos (raiseFault c info) :=
      ⟨hinside, hholds, hfails⟩
    rw [exec_getbits hf hm, ho, hafter.getBits_eq hr hready h1 hn hlen, finishCommand_raiseFault]
  refine ⟨fun hend => faults _ _ hend.le ?_, fun hlast hsentinel => faults _ _ (by omega) ?_,
    fun hmore hsentinel hbad => faults _ _ (by omega) ?_⟩
  · exact readByte_jpeg_windowEnd hend.ge
  · exact readByte_jpeg_sentinel hr (Nat.lt_of_succ_le hlast.le) hsentinel (readEscape_windowEnd hlast.ge)
  · exact readByte_jpeg_sentinel hr (Nat.lt_of_succ_lt hmore) hsentinel (readEscape_bad hr hmore hbad)

end Sys2Proof.Machine
end

section
/-! PROOF. The host port: the next transaction's step, and what a read and a write of each register index do
(45_control.md R810, R811, R812; 10_state.md R101, R114-R119). -/

namespace Sys2Proof.Machine

/-- Settles O7. -/
theorem stepRunsDecoded : Obligations.StepRunsDecoded :=
  fun _ _ _ _ _ hpending hdecode => step_transaction hpending hdecode

/-! ## Reads -/

/-- A read answers the register at the index (45_control.md R811). -/
theorem regRead_index (s : State) (r : Reg) : regRead s r.index = s.readReg r := by
  rw [regRead, Reg.ofIndex_index]

/-- A read of a reserved index answers 0 (10_state.md R115). -/
theorem regRead_reserved {idx : BitVec 8} (h : Reg.ofIndex idx = none) (s : State) : regRead s idx = 0 := by
  rw [regRead, h]

/-- A read changes nothing but the answer (45_control.md R811). -/
theorem exec_regrd (idx : BitVec 8) (s : State) :
    exec (.regrd idx) s = .next { s with response := some (regRead s idx) } := rfl

/-- The indices in use lie below 0x20, and these of them are left out (10_state.md R101). -/
theorem Reg.index_not_reserved (r : Reg) :
    ¬ (r.index.toNat ∈ [0x07, 0x0B, 0x0F, 0x1C, 0x1D, 0x1E] ∨ 0x20 ≤ r.index.toNat) := by
  cases r <;> decide

theorem Reg.ofIndex_reserved {idx : BitVec 8}
    (h : idx.toNat ∈ [0x07, 0x0B, 0x0F, 0x1C, 0x1D, 0x1E] ∨ 0x20 ≤ idx.toNat) : Reg.ofIndex idx = none := by
  cases hidx : Reg.ofIndex idx with
  | none => rfl
  | some r =>
    obtain rfl := Reg.ofIndex_eq_some.1 hidx
    exact absurd h r.index_not_reserved

/-- Settles O20: the table of the statement lists every register's index with its value. -/
theorem readsAnswerRegisters : Obligations.ReadsAnswerRegisters := by
  intro s
  constructor
  · have hall : ∀ e ∈ Reg.all.map fun r => (r.index, s.readReg r),
        exec (.regrd e.1) s = .next { s with response := some e.2 } := by
      rw [List.forall_mem_map]
      intro r _
      rw [exec_regrd, regRead_index]
    exact hall
  · intro idx hidx
    rw [exec_regrd, regRead_reserved (Reg.ofIndex_reserved hidx)]

/-! ## Writes -/

section
variable {s : State}

/-- A write to DATA takes all 64 bits (10_state.md R117). -/
theorem exec_regwr_data (hf : s.faulted = false) (v : DWord) : exec (.regwr 0x02 v) s = .next { s with data := v } :=
  exec_regwr_ready hf (r := .data) (Reg.ofIndex_index .data) (by decide) v

/-- A write to a CFG register takes v[31:0] in IDLE and nothing in a session (10_state.md R117, R119). -/
theorem exec_regwr_cfg {r : Reg} (hf : s.faulted = false) (hr : r.access = .config) (v : DWord) :
    exec (.regwr r.index v) s =
      .next (if s.mode = .idle then { s with cfg := s.cfg.write (v.setWidth 32) r } else s) := by
  have hcmd : r ≠ .cmd := by
    rintro rfl
    cases hr
  rw [exec_regwr_ready hf r.ofIndex_index hcmd, writeReg, hr]
  rfl

/-- A write to a read-only register has no effect (10_state.md R116). -/
theorem exec_regwr_readOnly {r : Reg} (hf : s.faulted = false) (hr : r.access = .readOnly) (v : DWord) :
    exec (.regwr r.index v) s = .next s := by
  have hcmd : r ≠ .cmd := by
    rintro rfl
    cases hr
  rw [exec_regwr_ready hf r.ofIndex_index hcmd, writeReg, hr]

/-- A write to a reserved index has no effect (10_state.md R115). -/
theorem exec_regwr_reserved {idx : BitVec 8} (hf : s.faulted = false) (h : Reg.ofIndex idx = none) (v : DWord) :
    exec (.regwr idx v) s = .next s := by
  rw [exec, execRegwr, if_neg (by simp [hf]), h]

/-- A write of an illegal word to CMD raises ILLEGAL_COMMAND (30_encoding.md R317; 45_control.md R813). -/
theorem exec_regwr_cmd_error {v : DWord} {e : DecodeError} (hf : s.faulted = false)
    (h : decodeCommand (v.setWidth 32) = .error e) :
    exec (.regwr 0x1F v) s = .next (illegalCommand (v.setWidth 32) s) := by
  rw [exec_regwr_cmd hf, execute_error h]

end

/-- The registers that the host sets in IDLE (10_state.md R101, R119). -/
def Reg.configs : List Reg := Reg.all.filter fun r => r.access == .config

theorem Reg.access_of_mem_configs {r : Reg} (h : r ∈ configs) : r.access = .config := by
  simpa using List.of_mem_filter h

/-- Of the indices that are no CMD, DATA or CFG index, those in use are read-only (10_state.md R101). -/
theorem Reg.access_of_unwritable {r : Reg}
    (h : r.index.toNat ∈ [0x00, 0x01, 0x03, 0x04, 0x05, 0x06, 0x07, 0x0A, 0x0B, 0x0E, 0x0F, 0x1C, 0x1D, 0x1E] ∨
      0x20 ≤ r.index.toNat) : r.access = .readOnly := by
  revert h
  cases r <;> decide

/-- Settles O22: the gate of FAULTED, then one law per access class. The table of the statement lists every CFG register's
index with the CFG registers as its write leaves them. -/
theorem writesReachRegisters : Obligations.WritesReachRegisters := by
  intro s v
  refine ⟨fun hf idx => exec_regwr_faulted hf idx v, fun hf => ⟨fun i hi => exec_regwr_cmd_of_decode hi s,
    fun e he => exec_regwr_cmd_error hf he, exec_regwr_data hf v, ?configs, fun idx hidx => ?unwritable⟩⟩
  case configs =>
    have hall : ∀ e ∈ Reg.configs.map fun r => (r.index, s.cfg.write (v.setWidth 32) r),
        exec (.regwr e.1 v) s = .next (if s.mode = .idle then { s with cfg := e.2 } else s) := by
      rw [List.forall_mem_map]
      exact fun r hr => exec_regwr_cfg hf (Reg.access_of_mem_configs hr) v
    exact hall
  case unwritable =>
    cases hreg : Reg.ofIndex idx with
    | none => exact exec_regwr_reserved hf hreg v
    | some r =>
      obtain rfl := Reg.ofIndex_eq_some.1 hreg
      exact exec_regwr_readOnly hf (Reg.access_of_unwritable hidx) v

end Sys2Proof.Machine
end

section
/-! PROOF. The control commands NOP and END (45_control.md R800, R801). -/

namespace Sys2Proof.Machine

/-- Settles O23: NOP completes in the state it runs in, and completion clears IOERR (45_control.md R813). -/
theorem nopClearsIoerr : Obligations.NopClearsIoerr :=
  fun _ hf => runCommand_ready hf

/-- END has nothing to close in IDLE, refuses to drop the bits of an encode session, and closes any other session
(45_control.md R801; 42_stream_engine.md R541). -/
theorem endBody_eq (s : State) :
    endBody s =
      if s.mode = .idle then .completes s
      else if s.mode = .enc ∧ s.cache.fill ≠ 0 then .faults ⟨.unflushedClose, s.cache.fill, 0, 0⟩ s
      else .completes s.closeSession := by
  unfold endBody
  cases s.mode with
  | idle => rfl
  | raw => rfl
  | dec => rfl
  | enc => simp

/-- Settles O41, by the branches of END's pseudocode: each ends the command as R813 says. -/
theorem endClosesSession : Obligations.EndClosesSession := by
  intro s hf
  unfold exec execEndSession
  rw [runCommand_ready hf, endBody_eq]
  split_ifs with hidle hunflushed
  · rfl
  · rfl
  · rfl

end Sys2Proof.Machine
end

section
/-! PROOF. The raises of the shared operations in every state, with or without the invariant: each fault has a cause of its
own, and outside the row loop of UNPACK it names no pixel (60_exceptions.md R901, R905, R906). -/

namespace Sys2Proof.Machine

/-! ## What pseudocode raises -/

section
variable {ε α β : Type} {P : ε → Prop} {x : Except ε α}

/-- The pseudocode raises nothing but what P allows. -/
def RaisesOnly (P : ε → Prop) (x : Except ε α) : Prop := ∀ e, x = .error e → P e

theorem RaisesOnly.ok (a : α) : RaisesOnly P (.ok a : Except ε α) := nofun

theorem RaisesOnly.error {e : ε} (h : P e) : RaisesOnly P (.error e : Except ε α) := by
  rintro _ ⟨⟩
  exact h

theorem RaisesOnly.bind {f : α → Except ε β} (hx : RaisesOnly P x) (hf : ∀ a, RaisesOnly P (f a)) :
    RaisesOnly P (x >>= f) := by
  cases x with
  | ok a => exact hf a
  | error e => exact .error (hx e rfl)

/-- A loop raises what its turns raise. -/
theorem RaisesOnly.foldlM_range {f : α → Nat → Except ε α} {n : Nat} {a : α} (hf : ∀ a i, RaisesOnly P (f a i)) :
    RaisesOnly P ((List.range n).foldlM f a) := by
  intro e h
  obtain ⟨i, -, u, -, hu⟩ := foldlM_range_error (P := fun _ _ => True) trivial (fun _ _ _ _ _ _ => trivial) h
  exact hf u i e hu

end

/-- A fault has a cause that C allows and names no pixel (60_exceptions.md R905); the other raises are free. -/
def Raise.Within (C : Cause → Prop) : Raise → Prop
  | .fault f => C f.cause ∧ f.row = 0 ∧ f.col = 0
  | .ioError => True
  | .stop _ => True

theorem Raise.within_raiseFault {C : Cause → Prop} {c : Cause} (hc : C c) (info : Nat) : (raiseFault c info).Within C :=
  ⟨hc, rfl, rfl⟩

/-- A raise of a shared operation outside the row loop of UNPACK, whatever its state: if a fault, then one with a cause and
without a pixel (60_exceptions.md R901, R905). -/
abbrev Raise.Plain : Raise → Prop := Raise.Within (· ≠ .noFault)

theorem Raise.plain_raiseFault {c : Cause} (hc : c ≠ .noFault) (info : Nat) : (raiseFault c info).Plain :=
  within_raiseFault hc info

/-! ## Cache and memory -/

section
variable {p : Config.Params} {o : BitOrder} {w : Window} {m : Memory}

theorem BitCache.push_raisesPlain (c : BitCache) (v : DWord) (n : Nat) : RaisesOnly Raise.Plain (c.push v n) := by
  intro e h
  obtain ⟨-, rfl⟩ := BitCache.push_error.1 h
  exact Raise.plain_raiseFault Cause.noConfusion _

theorem BitCache.peek_raisesPlain (c : BitCache) (n : Nat) : RaisesOnly Raise.Plain (c.peek n) := by
  intro e h
  rcases BitCache.peek_error h with hcount | ⟨-, rfl⟩
  · obtain ⟨c, rfl, hc, -⟩ := countFault_some hcount
    exact Raise.plain_raiseFault hc _
  · exact Raise.plain_raiseFault Cause.noConfusion _

theorem BitCache.skip_raisesPlain (c : BitCache) (n : Nat) : RaisesOnly Raise.Plain (c.skip n) := by
  intro e h
  obtain ⟨-, rfl⟩ := BitCache.skip_error.1 h
  exact Raise.plain_raiseFault Cause.noConfusion _

theorem memReadBytes_raisesPlain (a k : Nat) : RaisesOnly Raise.Plain (memReadBytes p m a k) := by
  intro e h
  obtain ⟨b, rfl⟩ := memReadBytes_error h
  trivial

theorem memWriteBytes_raisesPlain (a : Nat) (bytes : List Byte) : RaisesOnly Raise.Plain (memWriteBytes p m a bytes) := by
  intro e h
  obtain ⟨b, rfl⟩ := memWriteBytes_error h
  trivial

/-! ## The stream engine -/

theorem readBytes_raisesPlain (k pos : Nat) : RaisesOnly Raise.Plain (readBytes p o m w k pos) := by
  intro e h
  cases readBytes_error h with
  | endOfInput => exact Raise.plain_raiseFault Cause.noConfusion _
  | badEscape => exact Raise.plain_raiseFault Cause.noConfusion _
  | outside => trivial

theorem refill_raisesPlain (k : Cursor) : RaisesOnly Raise.Plain (refill p o m w k) :=
  (readBytes_raisesPlain _ _).bind fun _ => (BitCache.push_raisesPlain _ _ _).bind fun _ => .ok _

theorem refillWhile_raisesPlain (n fuel : Nat) (k : Cursor) : RaisesOnly Raise.Plain (refillWhile p o m w n fuel k) := by
  induction fuel generalizing k with
  | zero => exact .ok k
  | succ fuel ih =>
    unfold refillWhile
    split
    · exact (refill_raisesPlain k).bind ih
    · exact .ok k

theorem getBits_raisesPlain (n : Nat) (k : Cursor) : RaisesOnly Raise.Plain (getBits p o n m w k) := by
  unfold getBits
  split
  · rename_i hcount
    obtain ⟨c, rfl, hc, -⟩ := countFault_some hcount
    exact .error (Raise.plain_raiseFault hc _)
  · exact (refillWhile_raisesPlain n n k).bind fun _ => (BitCache.peek_raisesPlain _ n).bind fun _ =>
      (BitCache.skip_raisesPlain _ n).bind fun _ => .ok _

theorem emitBytes_raisesPlain (bytes : List Byte) (k : Sink) : RaisesOnly Raise.Plain (emitBytes p w bytes k) := by
  unfold emitBytes
  split
  · exact .error trivial
  · exact (memWriteBytes_raisesPlain _ bytes).bind fun _ => .ok _

theorem drainIfFull_raisesPlain (k : Sink) : RaisesOnly Raise.Plain (drainIfFull p o w k) := by
  unfold drainIfFull
  split
  · exact .ok k
  · exact (BitCache.peek_raisesPlain _ 32).bind fun _ => (emitBytes_raisesPlain _ k).bind fun _ =>
      (BitCache.skip_raisesPlain _ 32).bind fun _ => .ok _

theorem putBits_raisesPlain (v : DWord) (n : Nat) (k : Sink) : RaisesOnly Raise.Plain (putBits p o v n w k) := by
  unfold putBits
  split
  · exact .error (Raise.plain_raiseFault Cause.noConfusion _)
  · exact (BitCache.push_raisesPlain _ _ n).bind fun _ => drainIfFull_raisesPlain _

theorem flushBits_raisesPlain (k : Sink) : RaisesOnly Raise.Plain (flushBits p o w k) := by
  unfold flushBits
  split
  · exact .ok k
  · exact (BitCache.push_raisesPlain _ _ _).bind fun _ => drainIfFull_raisesPlain _

end

/-! ## The row loops -/

section
variable {p : Config.Params} {o : BitOrder} {ety : ElemType} {w : Nat} {g : CfgRegs}

/-- The cause of a raise, if it is a fault, is one that C allows; the fault may name a pixel (43_packed_codec.md R620). -/
def Raise.Caused (C : Cause → Prop) (e : Raise) : Prop := ∀ f, e = .fault f → C f.cause

theorem Raise.Within.caused_atPixel {C : Cause → Prop} {e : Raise} (h : e.Within C) (r c : Nat) :
    (e.atPixel r c).Caused C := by
  cases e with
  | fault f =>
    rintro _ ⟨⟩
    exact h.1
  | ioError => exact fun _ => Raise.noConfusion
  | stop e => exact fun _ => Raise.noConfusion

/-- The row loop of UNPACK raises no fault without a cause (43_packed_codec.md R610, R620). -/
theorem unpackRows_raisesCaused (m : Memory) : RaisesOnly (Raise.Caused (· ≠ .noFault)) (unpackRows p o ety w g m) := by
  refine .foldlM_range fun m r => .bind (.foldlM_range fun x c e hpixel => ?_) fun _ => .ok _
  rcases unpackPixel_error hpixel with ⟨e', hget, rfl⟩ | ⟨b, rfl⟩
  · exact (getBits_raisesPlain w x.1 e' hget).caused_atPixel r c
  · exact fun _ => Raise.noConfusion

theorem Sink.attempt_raisesOnly {P : Raise → Prop} {k : Sink} {x : Except Raise Sink} (h : RaisesOnly P x) :
    RaisesOnly (fun y => P y.1) (k.attempt x) :=
  fun y hy => h y.1 (Sink.attempt_error hy).1

/-- The row loop of PACK raises no fault with a pixel or without a cause (43_packed_codec.md R640). -/
theorem packRows_raisesPlain (m : Memory) : RaisesOnly (fun x => x.1.Plain) (packRows p o ety w g m) := by
  have pixel : ∀ r k c, RaisesOnly (fun x => x.1.Plain) (packPixel p o ety w g r k c) := fun r k c =>
    Sink.attempt_raisesOnly (((memReadBytes_raisesPlain _ _).bind fun _ => .ok _).bind fun v => putBits_raisesPlain v w k)
  have padCount_plain : ∀ m r, RaisesOnly Raise.Plain (padCount p g m r) := by
    intro m r
    unfold padCount
    split
    · exact .ok _
    · exact (memReadBytes_raisesPlain _ _).bind fun _ => .ok _
  have padding : ∀ r k, RaisesOnly (fun x => x.1.Plain) (packPadding p g r k) := fun r k =>
    Sink.attempt_raisesOnly ((padCount_plain _ r).bind fun n => emitBytes_raisesPlain _ k)
  exact .foldlM_range fun k r => .bind (.foldlM_range (pixel r)) fun k₁ =>
    .bind (Sink.attempt_raisesOnly (flushBits_raisesPlain k₁)) (padding r)

end

end Sys2Proof.Machine
end

section
/-! PROOF. How a command faults: the cause that its column of the table of causes gives it, the state to which its fault
entry applies, and the mode check (60_exceptions.md R900, R901, R904, R906; 43_packed_codec.md R620). -/

namespace Sys2Proof.Machine

/-! ## Faulting endings -/

/-- The state to which the fault entry of a command applies: the one before it with no pixel named, or for UNPACK that with
the pixel rectangle drawn freely (60_exceptions.md R905, R906; 43_packed_codec.md R620). -/
inductive FaultExtent : Instr → State → FaultRecord → State → Prop where
  | restored {i : Instr} {s : State} {f : FaultRecord} (hrow : f.row = 0) (hcol : f.col = 0) : FaultExtent i s f s
  | rectangle {o : BitOrder} {ety : ElemType} {n : Nat} {s : State} {f : FaultRecord} :
      FaultExtent (.unpack o ety n) s f (s.freeRectangle ety)

/-- An ending that leaves FAULTED alone, or a fault with a cause that C allows. -/
def CommandEnd.FaultsWith (C : Cause → Prop) (i : Instr) (s : State) : CommandEnd → Prop
  | .completes u => u.faulted = s.faulted
  | .ioError u => u.faulted = s.faulted
  | .faults f u => C f.cause ∧ FaultExtent i s f u
  | .stops _ => True

/-- If the instruction leaves FAULTED = 1 behind, it raised a fault with a cause that C allows (60_exceptions.md R906). -/
def FaultsOnlyWith (C : Cause → Prop) (i : Instr) (s : State) : Prop :=
  ∀ t, exec i s = .next t → t.faulted = true →
    ∃ f u, C f.cause ∧ FaultExtent i s f u ∧ t = u.faultEntry (encode i).word f

section
variable {C D : Cause → Prop} {i : Instr} {s : State}

theorem FaultsOnlyWith.mono (h : FaultsOnlyWith C i s) (hCD : ∀ c, C c → D c) : FaultsOnlyWith D i s := by
  intro t hexec ht
  obtain ⟨f, u, hcause, hextent, heq⟩ := h t hexec ht
  exact ⟨f, u, hCD _ hcause, hextent, heq⟩

/-- A command faults as its pseudocode does (45_control.md R813). -/
theorem FaultsOnlyWith.of_body {body : State → CommandEnd} (hf : s.faulted = false)
    (hexec : exec i s = runCommand i s body) (hbody : (body s).FaultsWith C i s) : FaultsOnlyWith C i s := by
  intro t h ht
  rw [hexec] at h
  obtain ⟨hfaulted, -⟩ | ⟨-, ⟨u, hu, rfl⟩ | ⟨u, hu, rfl⟩ | ⟨f, u, hu, rfl⟩⟩ := runCommand_next h
  · exact absurd hfaulted (by simp [hf])
  · rw [hu] at hbody
    exact absurd ((hbody : u.faulted = s.faulted).symm.trans ht) (by simp [hf])
  · rw [hu] at hbody
    exact absurd ((hbody : u.faulted = s.faulted).symm.trans ht) (by simp [hf])
  · rw [hu] at hbody
    exact ⟨f, u, hbody.1, hbody.2, rfl⟩

theorem CommandEnd.faultsWith_requireMode {m : Mode} {rest : CommandEnd} (hC : C .badMode)
    (h : s.mode = m → rest.FaultsWith C i s) :
    (requireMode m s rest).FaultsWith C i s := by
  rcases requireMode_cases m s rest with ⟨hm, heq⟩ | ⟨-, heq⟩
  · rw [heq]
    exact h hm
  · rw [heq]
    exact ⟨hC, .restored rfl rfl⟩

theorem CommandEnd.faultsWith_openOver {p : Config.Params} {w : Window} {sub : Nat} {opened : State} (hC : C .cfgRange)
    (hopened : opened.faulted = s.faulted) : (openOver p w sub s opened).FaultsWith C i s := by
  unfold openOver
  split
  · exact hopened
  · exact ⟨hC, .restored rfl rfl⟩

/-- Pseudocode outside the row loop of UNPACK faults in the state before the command (60_exceptions.md R906). -/
theorem CommandEnd.faultsWith_ofExcept_map {α : Type} {x : Except Raise α} {f : α → State}
    (hx : RaisesOnly (Raise.Within C) x) (hf : ∀ a, (f a).faulted = s.faulted) :
    (CommandEnd.ofExcept s (x.map f)).FaultsWith C i s := by
  cases x with
  | ok a => exact hf a
  | error e =>
    have he := hx e rfl
    cases e with
    | fault g => exact ⟨he.1, .restored he.2.1 he.2.2⟩
    | ioError => rfl
    | stop r => trivial

end

/-! ## The causes of the cache operations -/

section
variable {C : Cause → Prop}

theorem BitCache.push_raisesWithin (hC : C .pushOverflow) (c : BitCache) (v : DWord) (n : Nat) :
    RaisesOnly (Raise.Within C) (c.push v n) := by
  intro e h
  obtain ⟨-, rfl⟩ := BitCache.push_error.1 h
  exact Raise.within_raiseFault hC _

/-- The count checks have three causes (41_bit_cache.md R406). -/
theorem countFault_within {n fill : Nat} {e : Raise} (h : countFault n fill = some e)
    (hC : ∀ c ∈ [Cause.peekZero, .peekOverCapacity, .peekOverMax], C c) : e.Within C := by
  simp only [List.forall_mem_cons] at hC
  obtain ⟨hzero, hcapacity, hmax, -⟩ := hC
  unfold countFault at h
  split_ifs at h <;> cases h
  · exact Raise.within_raiseFault hzero _
  · exact Raise.within_raiseFault hcapacity _
  · exact Raise.within_raiseFault hmax _

theorem BitCache.peek_raisesWithin (hC : ∀ c ∈ [Cause.peekZero, .peekOverCapacity, .peekOverMax], C c)
    (hfill : C .peekOverFill) (c : BitCache) (n : Nat) : RaisesOnly (Raise.Within C) (c.peek n) := by
  intro e h
  rcases BitCache.peek_error h with hcount | ⟨-, rfl⟩
  · exact countFault_within hcount hC
  · exact Raise.within_raiseFault hfill _

theorem BitCache.skip_raisesWithin (hC : C .skipOverFill) (c : BitCache) (n : Nat) :
    RaisesOnly (Raise.Within C) (c.skip n) := by
  intro e h
  obtain ⟨-, rfl⟩ := BitCache.skip_error.1 h
  exact Raise.within_raiseFault hC _

theorem extractHigh_raisesWithin (hC : C .extractOverWidth) (w : Nat) (x : BitVec w) (n : Nat) :
    RaisesOnly (Raise.Within C) (extractHigh w x n) := by
  intro e h
  obtain ⟨-, rfl⟩ := extractHigh_error.1 h
  exact Raise.within_raiseFault hC _

theorem extractLow_raisesWithin (hC : C .extractOverWidth) (w : Nat) (x : BitVec w) (n : Nat) :
    RaisesOnly (Raise.Within C) (extractLow w x n) := by
  intro e h
  obtain ⟨-, rfl⟩ := extractLow_error.1 h
  exact Raise.within_raiseFault hC _

end

/-! ## The causes of the stream engine and the codec -/

section
variable {p : Config.Params} {o : BitOrder}

/-- A read of the source window ends at its end or, under JPEG, at a bad escape (42_stream_engine.md R511;
44_jpeg_stuffing.md R710). -/
theorem ReadFailure.within {C : Cause → Prop} {w : Window} {pos : Nat} {e : Raise} (h : ReadFailure p o w pos e)
    (hend : C .endOfInput) (hescape : o = .jpeg → C .jpegBadEscape) : e.Within C := by
  cases h with
  | endOfInput => exact Raise.within_raiseFault hend _
  | badEscape info _ _ ho => exact Raise.within_raiseFault (hescape ho) _
  | outside => trivial

/-- The causes of the codec's checks, each with no pixel (43_packed_codec.md R604; 60_exceptions.md R901). -/
theorem codecFault_cause_mem {op : CodecOp} {ety : ElemType} {cnt : Nat} {g : CfgRegs} {f : FaultRecord}
    (h : codecFault p op o ety cnt g = some f) :
    f.cause ∈ [Cause.cfgInvalid, .cfgDimension, .cfgRange, .cfgOverlap] ∧ f.row = 0 ∧ f.col = 0 := by
  have causes : ∀ k ∈ codecChecks p op o ety cnt g,
      k.2.1 ∈ [Cause.cfgInvalid, .cfgDimension, .cfgRange, .cfgOverlap] := by
    simp [codecChecks]
  obtain ⟨k, hk, rfl⟩ := Option.map_eq_some_iff.1 h
  exact ⟨causes k (List.mem_of_find?_eq_some hk), rfl, rfl⟩

/-- A raise of UNPACK's row loop is a raise of one of its pixels (43_packed_codec.md R610, R620). -/
theorem unpackRows_error_pixel {ety : ElemType} {w : Nat} {g : CfgRegs} {m : Memory} {e : Raise}
    (hpk : (packedRegion g).inRange p = true) (hpix : (pixelRegion g ety).inRange p = true)
    (hm : Memory.wf m ∧ Memory.within m p.memSize) (h : unpackRows p o ety w g m = .error e) :
    ∃ r < g.dimRows.toNat, ∃ c x, UnpackReady p o g r x ∧ unpackPixel p o ety w g r x c = .error e := by
  obtain ⟨r, hr, u, hu, hrow⟩ :=
    foldlM_range_error (P := fun _ m => Memory.wf m ∧ Memory.within m p.memSize) hm
      (fun r hr _ _ => unpackRow_keeps_mem (packedRow_inRange hpk hr) hpix hr) h
  simp only [unpackRow, bind, Except.bind] at hrow
  split at hrow
  · rename_i hpixels
    cases hrow
    obtain ⟨c, -, x, hx, hpixel⟩ :=
      foldlM_range_error (P := fun _ => UnpackReady p o g r) ⟨Cursor.ready_fresh p o _, hu⟩
        (fun c hc _ _ => unpackPixel_keeps_ready (packedRow_inRange hpk hr) hpix hr hc) hpixels
    exact ⟨r, hr, c, x, hx, hpixel⟩
  · cases hrow

/-- The row loop of UNPACK, after its checks, faults at the end of a packed row only: its counts are legal and its order is
not JPEG (43_packed_codec.md R604, R620). -/
theorem unpackRows_cause {ety : ElemType} {cnt : Nat} {g : CfgRegs} {m : Memory} {f : FaultRecord}
    (hcheck : codecFault p .unpack o ety cnt g = none) (hm : Memory.wf m ∧ Memory.within m p.memSize)
    (h : unpackRows p o ety (pixelWidth ety cnt) g m = .error (.fault f)) : f.cause = .endOfInput := by
  obtain ⟨ho, hpos, hwidth, -, -, -, -, hpk, hpix, -⟩ := codecFault_unpack_none hcheck
  obtain ⟨r, hr, c, x, ⟨hready, -⟩, hpixel⟩ := unpackRows_error_pixel hpk hpix hm h
  obtain ⟨e, hget, he⟩ | ⟨b, hb⟩ := unpackPixel_error hpixel
  · obtain hcount | ⟨-, -, pos, -, -, hread⟩ :=
      getBits_error (packedRow_inRange hpk hr) hready.wf hready.flow hready.inside hget
    · rw [countFault_none.2 ⟨hpos, hwidth⟩] at hcount
      cases hcount
    · have hwithin : e.Within (· = .endOfInput) := hread.within rfl fun hjpeg => absurd hjpeg ho
      exact hwithin.caused_atPixel r c f he.symm
  · cases hb

end

/-! ## The causes of each command -/

/-- A cause that a command may raise: one of the table's, and under the invariant one of the command's own (60_exceptions.md
R901). -/
def OwnCause (i : Instr) (s : State) (c : Cause) : Prop := c ≠ .noFault ∧ (s.Inv → c ∈ causesOf i)

theorem noFault_notMem_causesOf (i : Instr) : Cause.noFault ∉ causesOf i := by
  cases i <;> simp [causesOf]

theorem ownCause_of_mem {i : Instr} {c : Cause} (h : c ∈ causesOf i) (s : State) : OwnCause i s c :=
  ⟨fun hc => noFault_notMem_causesOf i (hc ▸ h), fun _ => h⟩

theorem raisesWithin_ownCause {α : Type} {i : Instr} {s : State} {x : Except Raise α} (hx : RaisesOnly Raise.Plain x)
    (hinv : s.Inv → RaisesOnly (Raise.Within (· ∈ causesOf i)) x) : RaisesOnly (Raise.Within (OwnCause i s)) x := by
  intro e h
  have hplain := hx e h
  have hown := fun hs => hinv hs e h
  cases e with
  | fault f => exact ⟨⟨hplain.1, fun hs => (hown hs).1⟩, hplain.2⟩
  | ioError => trivial
  | stop r => trivial

section
variable {s : State}

open CommandEnd

/-- A command of the table of R904 that needs no mode raises its own causes, with or without the invariant. -/
theorem faultsOnlyWith_of_modeless {i : Instr} (hi : isCommand i = true) (hmode : neededMode i = none)
    (hf : s.faulted = false) : FaultsOnlyWith (· ∈ causesOf i) i s := by
  cases i with
  | nop => exact .of_body hf rfl rfl
  | xhi width n =>
    refine .of_body hf (by rw [exec, execXhi]) ?_
    refine faultsWith_ofExcept_map (extractHigh_raisesWithin ?_ _ _ n) fun _ => rfl
    simp [causesOf]
  | xlo width n =>
    refine .of_body hf (by rw [exec, execXlo]) ?_
    refine faultsWith_ofExcept_map (extractLow_raisesWithin ?_ _ _ n) fun _ => rfl
    simp [causesOf]
  | endSession =>
    refine .of_body hf rfl ?_
    rw [endBody_eq]
    split_ifs
    · rfl
    · exact ⟨List.mem_singleton_self _, .restored rfl rfl⟩
    · rfl
  | regrd idx => cases hi
  | regwr idx v => cases hi
  | reset => cases hi
  | _ => cases hmode

/-- GETBITS raises the causes of its counts and reads: its refills overflow no cache (42_stream_engine.md R513, R521). -/
theorem getbitsBody_faultsWith (n : Nat) :
    (getbitsBody Config.rsbc n s).FaultsWith (OwnCause (.getbits n) s) (.getbits n) s := by
  refine faultsWith_requireMode (ownCause_of_mem (by simp [causesOf]) s) fun hm => ?_
  refine faultsWith_ofExcept_map (raisesWithin_ownCause (getBits_raisesPlain n _) fun hs e h => ?_) fun _ => rfl
  obtain ⟨hready, hrange⟩ := hs.cursor_ready hm
  obtain hcount | ⟨-, -, pos, -, -, hread⟩ := getBits_error hrange hready.wf hready.flow hready.inside h
  · exact countFault_within hcount (by simp [causesOf])
  · exact hread.within (by simp [causesOf]) fun _ => by simp [causesOf]

/-- PUT raises PUT_OVER_MAX only: a legal count fits the cache (42_stream_engine.md R533, R534). -/
theorem putBody_faultsWith (n : Nat) : (putBody Config.rsbc n s).FaultsWith (OwnCause (.put n) s) (.put n) s := by
  refine faultsWith_requireMode (ownCause_of_mem (by simp [causesOf]) s) fun hm => ?_
  refine faultsWith_ofExcept_map (raisesWithin_ownCause (putBits_raisesPlain _ n _) fun hs e h => ?_) fun _ => rfl
  obtain ⟨hready, hrange⟩ := hs.sink_ready hm
  obtain ⟨-, rfl⟩ | ⟨-, -, rfl⟩ := putBits_error hrange hready.memWf (Nat.le_succ_of_le hready.fill) h
  · exact Raise.within_raiseFault (by simp [causesOf]) _
  · trivial

/-- FLUSH pads to one word, which fits the cache (42_stream_engine.md R540). -/
theorem flushBody_faultsWith : (flushBody Config.rsbc s).FaultsWith (OwnCause .flush s) .flush s := by
  refine faultsWith_requireMode (ownCause_of_mem (by simp [causesOf]) s) fun hm => ?_
  refine faultsWith_ofExcept_map (raisesWithin_ownCause (flushBits_raisesPlain _) fun hs e h => ?_) fun _ => rfl
  obtain ⟨hready, hrange⟩ := hs.sink_ready hm
  obtain rfl := flushBits_eq_ioError hrange hready h
  trivial

/-- UNPACK raises the causes of its checks, and END_OF_INPUT in its row loop (43_packed_codec.md R604, R620). -/
theorem unpackBody_faultsWith (o : BitOrder) (ety : ElemType) (cnt : Nat) :
    (unpackBody Config.rsbc o ety cnt s).FaultsWith (OwnCause (.unpack o ety cnt) s) (.unpack o ety cnt) s := by
  refine faultsWith_requireMode (ownCause_of_mem (by simp [causesOf]) s) fun _ => ?_
  cases hcheck : codecFault Config.rsbc .unpack o ety cnt s.cfg with
  | some f =>
    obtain ⟨hcause, hrow, hcol⟩ := codecFault_cause_mem hcheck
    have hown : f.cause ∈ causesOf (.unpack o ety cnt) :=
      List.mem_cons_of_mem _ (List.mem_append_left [Cause.endOfInput] hcause)
    exact ⟨ownCause_of_mem hown s, .restored hrow hcol⟩
  | none =>
    cases hrows : unpackRows Config.rsbc o ety (pixelWidth ety cnt) s.cfg s.mem with
    | ok m => rfl
    | error e =>
      cases e with
      | ioError => rfl
      | stop r => trivial
      | fault f =>
        refine ⟨⟨unpackRows_raisesCaused _ _ hrows f rfl, fun hs => ?_⟩, .rectangle⟩
        obtain ⟨hwf, hwithin, -⟩ := hs.soundOutside
        simp [causesOf, unpackRows_cause hcheck ⟨hwf, hwithin⟩ hrows]

/-- PACK raises the causes of its checks: its row loop raises I/O errors only (43_packed_codec.md R604, R640). -/
theorem packBody_faultsWith (o : BitOrder) (ety : ElemType) (cnt : Nat) :
    (packBody Config.rsbc o ety cnt s).FaultsWith (OwnCause (.pack o ety cnt) s) (.pack o ety cnt) s := by
  refine faultsWith_requireMode (ownCause_of_mem (by simp [causesOf]) s) fun _ => ?_
  cases hcheck : codecFault Config.rsbc .pack o ety cnt s.cfg with
  | some f =>
    obtain ⟨hcause, hrow, hcol⟩ := codecFault_cause_mem hcheck
    have hown : f.cause ∈ causesOf (.pack o ety cnt) := List.mem_cons_of_mem _ hcause
    exact ⟨ownCause_of_mem hown s, .restored hrow hcol⟩
  | none =>
    cases hrows : packRows Config.rsbc o ety (pixelWidth ety cnt) s.cfg s.mem with
    | ok k => rfl
    | error x =>
      obtain ⟨e, k⟩ := x
      cases e with
      | ioError => rfl
      | stop r => trivial
      | fault f =>
        obtain ⟨hcause, hrow, hcol⟩ := packRows_raisesPlain _ _ hrows
        refine ⟨⟨hcause, fun hs => ?_⟩, .restored hrow hcol⟩
        obtain ⟨hwf, hwithin, -⟩ := hs.soundOutside
        have houtcome := packRows_outcome (o := o) (packChecked_of_codecFault hcheck) hwf hwithin
        rw [hrows] at houtcome
        cases houtcome

/-- How a command faults: with a cause of its own, in the state before it or, for UNPACK, with the rectangle drawn freely
(60_exceptions.md R900, R901, R906). -/
theorem command_faultsOnlyWith {i : Instr} (hi : isCommand i = true) (hf : s.faulted = false) :
    FaultsOnlyWith (OwnCause i s) i s := by
  have own : ∀ {c}, c ∈ causesOf i → OwnCause i s c := fun hc => ownCause_of_mem hc s
  cases i with
  | nop => exact (faultsOnlyWith_of_modeless hi rfl hf).mono fun _ => own
  | xhi width n => exact (faultsOnlyWith_of_modeless hi rfl hf).mono fun _ => own
  | xlo width n => exact (faultsOnlyWith_of_modeless hi rfl hf).mono fun _ => own
  | endSession => exact (faultsOnlyWith_of_modeless hi rfl hf).mono fun _ => own
  | cinit fl =>
    refine .of_body hf (by rw [exec, execCinit]) ?_
    exact faultsWith_requireMode (own (by simp [causesOf])) fun _ => rfl
  | cpush n =>
    refine .of_body hf (by rw [exec, execCpush]) (faultsWith_requireMode (own ?_) fun _ => ?_)
    · simp [causesOf]
    exact faultsWith_ofExcept_map (BitCache.push_raisesWithin (own (by simp [causesOf])) _ _ n) fun _ => rfl
  | cpeek n =>
    refine .of_body hf (by rw [exec, execCpeek]) (faultsWith_requireMode (own ?_) fun _ => ?_)
    · simp [causesOf]
    refine faultsWith_ofExcept_map (BitCache.peek_raisesWithin (fun c hc => own ?_) (own ?_) _ n) fun _ => rfl
    · exact List.mem_cons_of_mem _ (List.mem_append_left [Cause.peekOverFill] hc)
    · simp [causesOf]
  | cskip n =>
    refine .of_body hf (by rw [exec, execCskip]) (faultsWith_requireMode (own ?_) fun _ => ?_)
    · simp [causesOf]
    exact faultsWith_ofExcept_map (BitCache.skip_raisesWithin (own (by simp [causesOf])) _ n) fun _ => rfl
  | dstart o =>
    exact .of_body hf rfl (faultsWith_requireMode (own (by simp [causesOf])) fun _ =>
      faultsWith_openOver (own (by simp [causesOf])) rfl)
  | estart o =>
    exact .of_body hf rfl (faultsWith_requireMode (own (by simp [causesOf])) fun _ =>
      faultsWith_openOver (own (by simp [causesOf])) rfl)
  | getbits n => exact .of_body hf rfl (getbitsBody_faultsWith n)
  | put n => exact .of_body hf rfl (putBody_faultsWith n)
  | flush => exact .of_body hf rfl flushBody_faultsWith
  | unpack o ety cnt => exact .of_body hf rfl (unpackBody_faultsWith o ety cnt)
  | pack o ety cnt => exact .of_body hf rfl (packBody_faultsWith o ety cnt)
  | regrd idx => cases hi
  | regwr idx v => cases hi
  | reset => cases hi

end

/-! ## The statements -/

/-- Settles O18: under the invariant a command's own causes are those of its column. -/
theorem causesHaveTheirOrigin : Obligations.CausesHaveTheirOrigin := by
  intro i s t hi hs hf h ht
  obtain ⟨f, u, ⟨-, hown⟩, -, rfl⟩ := command_faultsOnlyWith hi hf t h ht
  exact hown hs

/-- Settles O16, by cases on the state to which the fault entry applies. -/
theorem faultsArePrecise : Obligations.FaultsArePrecise := by
  intro i s t hi hwf hf h ht
  obtain ⟨f, u, ⟨hcause, -⟩, hextent, rfl⟩ := command_faultsOnlyWith hi hf t h ht
  cases hextent with
  | restored hrow hcol =>
    refine ⟨rfl, hcause, ?_⟩
    have hrecord : (s.faultEntry (encode i).word f).faultRow = 0 ∧ (s.faultEntry (encode i).word f).faultCol = 0 := by
      simp [State.faultEntry, hrow, hcol]
    cases i with
    | unpack o ety n => exact fun a _ => rfl
    | _ => exact ⟨rfl, rfl, hrecord⟩
  | rectangle => exact ⟨rfl, hcause, fun a => State.freeRectangle_frame hwf⟩

/-- The mode check comes first in the pseudocode of every command that needs a mode (60_exceptions.md R904). -/
theorem exec_requireMode {i : Instr} {m : Mode} {s : State} (hf : s.faulted = false) (hneeded : neededMode i = some m) :
    ∃ rest, exec i s = finishCommand (encode i).word (requireMode m s rest) := by
  cases i with
  | nop => cases hneeded
  | xhi width n => cases hneeded
  | xlo width n => cases hneeded
  | endSession => cases hneeded
  | regrd idx => cases hneeded
  | regwr idx v => cases hneeded
  | reset => cases hneeded
  | cinit fl =>
    cases hneeded
    rw [exec, execCinit]
    exact ⟨_, runCommand_ready hf⟩
  | cpush n =>
    cases hneeded
    rw [exec, execCpush]
    exact ⟨_, runCommand_ready hf⟩
  | cpeek n =>
    cases hneeded
    rw [exec, execCpeek]
    exact ⟨_, runCommand_ready hf⟩
  | cskip n =>
    cases hneeded
    rw [exec, execCskip]
    exact ⟨_, runCommand_ready hf⟩
  | _ =>
    cases hneeded
    exact ⟨_, runCommand_ready hf⟩

/-- A command in another mode than it needs faults BAD_MODE with FAULT_INFO = MODE (60_exceptions.md R904). -/
theorem exec_wrongMode {i : Instr} {m : Mode} {s : State} (hf : s.faulted = false) (hneeded : neededMode i = some m)
    (hm : s.mode ≠ m) : exec i s = .next (faultedBy s i .badMode s.mode.code.toNat) := by
  obtain ⟨rest, hexec⟩ := exec_requireMode hf hneeded
  rw [hexec, requireMode_ne hm]
  rfl

/-- The table of causes gives BAD_MODE to no command that the table of modes gives no mode (60_exceptions.md R901, R904). -/
theorem badMode_notMem_causesOf {i : Instr} (hneeded : neededMode i = none) : Cause.badMode ∉ causesOf i := by
  cases i <;> simp [neededMode, causesOf] at hneeded ⊢

/-- Settles O17: the mode check raises BAD_MODE with the code of MODE, and BAD_MODE is no cause of a command without a mode
check. -/
theorem badModeIsRaised : Obligations.BadModeIsRaised := by
  intro i s hi hf
  refine ⟨fun m hneeded hm => ?_, fun t hneeded h ht hbad => ?_⟩
  · rw [exec_wrongMode hf hneeded hm]
    cases s.mode <;> rfl
  · obtain ⟨f, u, hown, -, rfl⟩ := faultsOnlyWith_of_modeless hi hneeded hf t h ht
    exact badMode_notMem_causesOf hneeded (hbad ▸ hown)

end Sys2Proof.Machine
end

section
/-! PROOF. An encode session after an I/O error: the command that raised it raises it again, and the ways out of the session
(60_exceptions.md R921, R922). -/

namespace Sys2Proof.Machine

section
variable {i j : Instr} {s t u : State}

/-- An I/O error of a command over a sink keeps the state before it but for IOERR, which the sink's operation does not read:
the command raises the error again (60_exceptions.md R921, R922). -/
theorem finishCommand_ioError_again {w : Word} {x : Except Raise Sink}
    (h : finishCommand w (.ofExcept s (x.map s.setSink)) = .next t) (ht : t.faulted = false) (hio : t.ioerr = true) :
    t = s.setIoerr true ∧ finishCommand w (.ofExcept t (x.map t.setSink)) = .next t := by
  cases x with
  | ok k =>
    cases h
    cases hio
  | error e =>
    cases e with
    | fault f =>
      cases h
      cases ht
    | ioError =>
      cases h
      exact ⟨rfl, rfl⟩
    | stop r => cases h

/-- After its I/O error a PUT or FLUSH is the same operation on the same sink (60_exceptions.md R922). -/
theorem exec_ioError_again (hi : i = .flush ∨ ∃ n, i = .put n) (hf : s.faulted = false) (hm : s.mode = .enc)
    (h : exec i s = .next t) (ht : t.faulted = false) (hio : t.ioerr = true) :
    t = s.setIoerr true ∧ exec i t = .next t := by
  obtain rfl | ⟨n, rfl⟩ := hi
  · rw [exec_flush hf hm] at h
    obtain ⟨rfl, hagain⟩ := finishCommand_ioError_again h ht hio
    exact ⟨rfl, (exec_flush (s := s.setIoerr true) hf hm).trans hagain⟩
  · rw [exec_put hf hm] at h
    obtain ⟨rfl, hagain⟩ := finishCommand_ioError_again h ht hio
    exact ⟨rfl, (exec_put (s := s.setIoerr true) hf hm n).trans hagain⟩

/-- END alone closes an encode session, and only one that holds no bits: CINIT, DSTART and ESTART need IDLE, and the others
keep MODE (60_exceptions.md R904, R922). -/
theorem eq_endSession_of_leaves_enc (hj : isCommand j = true) (hs : s.Inv) (hf : s.faulted = false) (hm : s.mode = .enc)
    (h : exec j s = .next u) (hu : u.mode ≠ .enc) : j = .endSession ∧ s.cache.fill = 0 := by
  have refuses : neededMode j ≠ some .idle := by
    intro hneeded
    obtain rfl := Host.Outcome.next.inj ((exec_wrongMode hf hneeded (by simp [hm])).symm.trans h)
    exact hu hm
  have keeps : u.mode = s.mode → j = .endSession ∧ s.cache.fill = 0 := fun hmode => absurd (hmode.trans hm) hu
  obtain ⟨-, -, -, -, -, -, -, -, -, -, hmode, -⟩ := onlyNamedCommandsWrite j s u hj hs h
  cases j with
  | endSession =>
    refine ⟨rfl, by_contra fun hfill => ?_⟩
    obtain rfl := Host.Outcome.next.inj ((endClosesSession s hf).symm.trans h)
    simp [hm, hfill, faultedBy] at hu
  | cinit fl => exact absurd rfl refuses
  | dstart o => exact absurd rfl refuses
  | estart o => exact absurd rfl refuses
  | _ => exact keeps hmode.1

end

/-- Settles O42: the failed command leaves the state before it with IOERR set, which is again an encode session that meets
the invariant. -/
theorem ioErrorPersists : Obligations.IoErrorPersists := by
  intro i s t hs hf hm hi h ht hio
  obtain ⟨heq, hagain⟩ := exec_ioError_again hi hf hm h ht hio
  have hcommand : isCommand i = true := by
    obtain rfl | ⟨n, rfl⟩ := hi <;> rfl
  have hinv : t.Inv := exec_command_keeps_inv hcommand hs h
  have hmode : t.mode = .enc := heq ▸ hm
  refine ⟨hagain, fun v => ?shut, fun hfill => ?unflushed, fun hfill => ?closed, ⟨_, rfl, rfl, rfl⟩,
    fun j u hj hu hleft => ?leaves⟩
  case shut => exact (exec_regwr_cfg (r := .snkCap) ht rfl v).trans (by simp [hmode])
  case unflushed => exact (endClosesSession t ht).trans (by simp [hmode, hfill])
  case closed => exact ⟨_, exec_endSession_enc ht hmode hfill, ht, rfl⟩
  case leaves => exact eq_endSession_of_leaves_enc hj hinv ht hmode hu hleft

end Sys2Proof.Machine
end

section
/-! PROOF. RESET and what it leaves (70_reset_and_hazards.md R1001, R1003): every register reads 0, a session has an empty
window, so its first read and its first drain fail, and an image without rows is unpacked and packed without effect. -/

namespace Sys2Proof.Machine

theorem exec_reset (s : State) : exec .reset s = .next s.resetBlock := rfl

/-- Settles O13: RESET answers ResetState, which takes every field of the block from power-on. -/
theorem resetClearsTheBlock : Obligations.ResetClearsTheBlock := exec_reset

/-! ## Reads -/

/-- STATUS after RESET is that of power-on, where all its fields are 0 (70_reset_and_hazards.md R1003). -/
theorem statusWord_resetBlock (s : State) : statusWord s.resetBlock = 0 :=
  show statusWord State.reset = 0 by decide

theorem readReg_resetBlock (s : State) (r : Reg) : s.resetBlock.readReg r = 0 := by
  cases r with
  | status => exact congrArg (BitVec.setWidth 64) (statusWord_resetBlock s)
  | _ => rfl

theorem regRead_resetBlock (s : State) (idx : BitVec 8) : regRead s.resetBlock idx = 0 := by
  cases hidx : Reg.ofIndex idx with
  | none => exact regRead_reserved hidx _
  | some r =>
    obtain rfl := Reg.ofIndex_eq_some.1 hidx
    exact (regRead_index _ r).trans (readReg_resetBlock s r)

/-! ## Sessions over an empty window -/

section
variable {p : Config.Params} {o : BitOrder} {mem : Memory} {w : Window} {n : Nat} {s : State}

/-- In every order no data byte begins at the window's end (42_stream_engine.md R511; 44_jpeg_stuffing.md R710). -/
theorem readByte_windowEnd {pos : Nat} (h : w.len ≤ pos) :
    readByte p o mem w pos = .error (raiseFault .endOfInput pos) := by
  cases o with
  | jpeg => exact readByte_jpeg_windowEnd h
  | _ => exact if_pos h

/-- A fresh session over an empty window fails at its first data byte (42_stream_engine.md R511, R521). -/
theorem getBits_emptyWindow (hlen : w.len = 0) (h1 : 1 ≤ n) (hn : n ≤ 32) :
    getBits p o n mem w ⟨BitCache.empty (policy p o).flow, 0⟩ = .error (raiseFault .endOfInput 0) := by
  have hfails : ReadFailsAfter p o mem w [] 0 (raiseFault .endOfInput 0) := by
    refine ⟨?_, ?_, ?_⟩ <;> rw [wireBytes_nil]
    · exact Nat.zero_le _
    · exact HoldsAt.nil _ _
    · exact readByte_windowEnd hlen.le
  have hneeded : 0 < chunksNeeded (policy p o).chunk n 0 := by
    have henough := le_chunksNeeded p o n 0
    by_contra hnone
    rw [Nat.eq_zero_of_not_pos hnone] at henough
    omega
  exact hfails.getBits_eq (Window.inRange_iff.2 (.inl hlen)) (Cursor.ready_fresh p o w) h1 hn
    (Nat.mul_pos (policy_chunk_pos p o) hneeded)

/-- An empty window is in range wherever it lies, so the session is opened (20_memory.md R233). -/
theorem finishCommand_openOver_empty {word : Word} {sub : Nat} {opened : State} (hlen : w.len = 0) :
    finishCommand word (openOver p w sub s opened) = .next (opened.setIoerr false) := by
  rw [openOver, if_pos (Window.inRange_iff.2 (.inl hlen)), finishCommand]

theorem exec_dstart_emptyWindow (hf : s.faulted = false) (hm : s.mode = .idle) (hlen : (srcWindow s.cfg).len = 0) :
    exec (.dstart o) s =
      .next (((s.openSession .dec (policy Config.rsbc o).flow o).setSrcPos 0).setIoerr false) :=
  (runCommand_body hf hm rfl).trans (finishCommand_openOver_empty hlen)

theorem exec_estart_emptyWindow (hf : s.faulted = false) (hm : s.mode = .idle) (hlen : (snkWindow s.cfg).len = 0) :
    exec (.estart o) s =
      .next (((s.openSession .enc (policy Config.rsbc o).flow o).setSnkPos 0).setIoerr false) :=
  (runCommand_body hf hm rfl).trans (finishCommand_openOver_empty hlen)

/-- GETBITS of a fresh session over an empty window is END_OF_INPUT at offset 0 (42_stream_engine.md R511; 60_exceptions.md
R902). -/
theorem exec_getbits_emptyWindow (hf : s.faulted = false) (hm : s.mode = .dec) (hlen : (srcWindow s.cfg).len = 0)
    (hfresh : s.cursor = ⟨BitCache.empty (policy Config.rsbc s.order).flow, 0⟩) (h1 : 1 ≤ n) (hn : n ≤ 32) :
    exec (.getbits n) s = .next (faultedBy s (.getbits n) .endOfInput 0) := by
  rw [exec_getbits hf hm, hfresh, getBits_emptyWindow hlen h1 hn, finishCommand_raiseFault]

/-! ## Drains that do not fit -/

/-- A word takes at least 4 window bytes, so with fewer left its drain is an I/O error, whatever the cache holds
(42_stream_engine.md R530, R532). -/
theorem drainIfFull_ioError {k : Sink} (hshort : w.len < k.pos + 4) (hfull : 32 ≤ k.cache.fill) :
    drainIfFull p o w k = .error .ioError := by
  have emits : ∀ v, emitBytes p w (storeWordBytes p o v) k = .error .ioError := fun v =>
    if_pos (hshort.trans_le (Nat.add_le_add_left (storeWordBytes_length p o v).1 _))
  rw [drainIfFull, if_neg (Nat.not_lt.2 hfull), BitCache.peek_fits (by decide) le_rfl hfull]
  simp only [emits, bind, Except.bind]

/-- PutBits that fills a word for which the sink has no room is an I/O error (42_stream_engine.md R532, R533). -/
theorem putBits_ioError {v : DWord} {k : Sink} (hshort : w.len < k.pos + 4) (hfill : k.cache.fill ≤ 31) (hn : n ≤ 32)
    (hfull : 32 ≤ k.cache.fill + n) : putBits p o v n w k = .error .ioError := by
  rw [putBits, if_neg (Nat.not_lt.2 hn), BitCache.push_eq _ (by omega)]
  exact drainIfFull_ioError hshort hfull

/-- Flush of cached bits for which the sink has no room is an I/O error (42_stream_engine.md R532, R540). -/
theorem flushBits_ioError {k : Sink} (hshort : w.len < k.pos + 4) (hfill : k.cache.fill ≤ 31) (hbits : k.cache.fill ≠ 0) :
    flushBits p o w k = .error .ioError := by
  rw [flushBits, if_neg hbits, BitCache.push_eq _ (by omega)]
  exact drainIfFull_ioError hshort (show 32 ≤ k.cache.fill + (32 - k.cache.fill) by omega)

/-- PUT that fills a word of a session over an empty window (60_exceptions.md R921). -/
theorem exec_put_emptyWindow (hf : s.faulted = false) (hm : s.mode = .enc) (hlen : (snkWindow s.cfg).len = 0)
    (hfill : s.cache.fill ≤ 31) (hn : n ≤ 32) (hfull : 32 ≤ s.cache.fill + n) :
    exec (.put n) s = .next { s with ioerr := true } := by
  have hshort : (snkWindow s.cfg).len < s.sink.pos + 4 := by omega
  rw [exec_put hf hm, putBits_ioError hshort hfill hn hfull, finishCommand_ioError]

/-- FLUSH of cached bits of a session over an empty window (60_exceptions.md R921). -/
theorem exec_flush_emptyWindow (hf : s.faulted = false) (hm : s.mode = .enc) (hlen : (snkWindow s.cfg).len = 0)
    (hfill : s.cache.fill ≤ 31) (hbits : s.cache.fill ≠ 0) : exec .flush s = .next { s with ioerr := true } := by
  have hshort : (snkWindow s.cfg).len < s.sink.pos + 4 := by omega
  rw [exec_flush hf hm, flushBits_ioError hshort hfill hbits, finishCommand_ioError]

end

/-! ## Images without rows -/

section
variable {o : BitOrder} {ety : ElemType} {w : Nat} {s : State}

/-- The reset configuration passes every check that does not concern the command word (43_packed_codec.md R604). -/
theorem codecRefusal_zero {pack : Bool} (ho : o ≠ .jpeg) (hpack : pack = true → w ≠ 0) (hw : w ≤ 8 * elemSize ety) :
    codecRefusal pack o (elemSize ety) w CfgRegs.zero = none := by
  have hwidth : (if w = 0 then 8 * elemSize ety else w) ≤ 8 * elemSize ety := by
    split
    · exact le_rfl
    · exact hw
  have hmax : 8 * elemSize ety ≤ 32 := by cases ety <;> decide
  have hempty : ¬ passesEnd 0 0 := by decide
  cases pack with
  | false => simp [codecRefusal, CfgRegs.zero, ho, hwidth.not_gt, (hwidth.trans hmax).not_gt, hempty]
  | true => simp [codecRefusal, CfgRegs.zero, ho, hpack rfl, hw.not_gt, (hw.trans hmax).not_gt, hempty]

/-- UNPACK of an image without rows does nothing (43_packed_codec.md R603, R610). -/
theorem exec_unpack_noRows (hf : s.faulted = false) (hm : s.mode = .idle) (hidle : s.IdleOk)
    (hcheck : codecRefusal false o (elemSize ety) w s.cfg = none) (hrows : s.cfg.dimRows.toNat = 0) :
    exec (.unpack o ety w) s = .next (s.setIoerr false) := by
  have hloop : unpackRows Config.rsbc o ety (pixelWidth ety w) s.cfg s.mem = .ok s.mem := by
    rw [unpackRows, hrows]
    rfl
  rw [exec_unpack hf hm hcheck, hloop]
  exact congrArg (fun t : State => Host.Outcome.next (t.setIoerr false)) (closeSession_idle hm hidle)

/-- PACK of an image without rows only leaves SNK_POS = 0 (43_packed_codec.md R603, R640, R643). -/
theorem exec_pack_noRows (hf : s.faulted = false) (hm : s.mode = .idle) (hidle : s.IdleOk)
    (hcheck : codecRefusal true o (elemSize ety) w s.cfg = none) (hrows : s.cfg.dimRows.toNat = 0) :
    exec (.pack o ety w) s = .next ((s.setSnkPos 0).setIoerr false) := by
  have hloop : packRows Config.rsbc o ety w s.cfg s.mem = .ok ⟨BitCache.empty (policy Config.rsbc o).flow, 0, s.mem⟩ := by
    rw [packRows, hrows]
    rfl
  rw [exec_pack hf hm hcheck, hloop]
  exact congrArg (fun t : State => Host.Outcome.next (t.setIoerr false)) (packedState_idle hm hidle _)

end

/-- Settles O14: after RESET the registers are 0, so each session's window is empty and the image has no rows. -/
theorem afterResetNothingIsConfigured : Obligations.AfterResetNothingIsConfigured := by
  intro s
  have hidle : s.resetBlock.IdleOk := fun _ => ⟨rfl, rfl⟩
  refine ⟨s.resetBlock, exec_reset s, fun idx => ?reads,
    fun o n h1 hn => ⟨_, exec_dstart_emptyWindow rfl rfl rfl, ?getbits⟩,
    fun o => ⟨_, exec_estart_emptyWindow rfl rfl rfl, fun c d n hc hn => ⟨fun hfull => ?put, fun hbits => ?flush⟩⟩,
    fun o ety w ho h1 hw => ⟨?unpack, ?unpackWhole, ?pack⟩⟩
  case reads => rw [exec_regrd, regRead_resetBlock]
  case getbits => exact exec_getbits_emptyWindow rfl rfl rfl rfl h1 hn
  case put => exact exec_put_emptyWindow rfl rfl rfl hc hn hfull
  case flush => exact exec_flush_emptyWindow rfl rfl rfl hc hbits
  case unpack => exact exec_unpack_noRows rfl rfl hidle (codecRefusal_zero ho nofun hw) rfl
  case unpackWhole => exact exec_unpack_noRows rfl rfl hidle (codecRefusal_zero ho nofun (Nat.zero_le _)) rfl
  case pack => exact exec_pack_noRows rfl rfl hidle (codecRefusal_zero ho (fun _ => Nat.ne_of_gt h1) hw) rfl

end Sys2Proof.Machine
end
